-- ==== Sys2Proof/Word.lean ====
section
/-! DEFINITION. The word and byte types of RDEC (00_scope.md R6, R8). -/

namespace Sys2Proof

/-- A 32-bit unsigned register value (00_scope.md R6). -/
abbrev Word := BitVec 32

/-- One byte of BUF or TBL (20_memory.md R61, R63). -/
abbrev Byte := BitVec 8

end Sys2Proof
end

