-- ==== Sys2Proof/Config.lean ====
section
/-! DEFINITION. What may differ between RDEC instances (00_scope.md R5), and what an unlisted byte of
BUF or TBL reads as. -/

namespace Sys2Proof

/-- The two parameters a model of RDEC takes as arguments (00_scope.md R5). They are held in State, so that
every statement over all states is one over all parameter values (log 1). -/
structure Params where
  /-- BUF_MAX, the capacity of BUF in bytes. -/
  bufMax : Nat
  /-- TBL_MAX, the capacity of TBL in bytes. -/
  tblMax : Nat
deriving DecidableEq, Repr

/-- The legal parameter values (00_scope.md R5). -/
def Params.legal (p : Params) : Bool :=
  decide (2 ≤ p.bufMax ∧ p.bufMax ≤ 65536 ∧ 2 ≤ p.tblMax ∧ p.tblMax ≤ 65536)

/-- The default parameter values (00_scope.md R5). -/
def Params.default : Params := { bufMax := 2048, tblMax := 4096 }

/-- What an unlisted byte of BUF or TBL reads as. DESIGN CHOICE, unsafe (log 2): the spec leaves each byte
unspecified at power-on (10_state.md R45, 70_reset_and_hazards.md R270). -/
def Config.unlistedByte : Byte := 0

end Sys2Proof
end

