-- ==== Sys2Proof/Syntax.lean ====
section
/-! DEFINITION. The commands of RDEC (spec/opcode_table.json, 30_encoding.md R93), and the host's side of the
bus: the registers of the register page (20_memory.md R62), the accesses (R65, R66) and the host program. -/

namespace Sys2Proof

/-- The twelve commands, one constructor per row of the opcode table. A CN command carries its immediate N, a
count (30_encoding.md R92); `Instr.wf` bounds it. -/
inductive Instr where
  | init
  | decode
  | decodeBin (n : Nat)
  | update
  | bitLogp (n : Nat)
  | icdf8 (n : Nat)
  | icdf16 (n : Nat)
  | bits (n : Nat)
  | uint
  | laplace
  | tell
  | tellFrac
deriving DecidableEq, Repr

/-- The registers of the register page, in the order of their offsets (20_memory.md R62). -/
inductive Reg where
  | id | ctrl | status | cmd | arg0 | arg1 | arg2 | result | len
  | rng | val | pos | endPos | totalBits | window | rawinfo | fcmd | finfo
deriving DecidableEq, Repr

/-- The two windows of the aperture (20_memory.md R60). -/
inductive Window where
  | buf | tbl
deriving DecidableEq, Repr

/-- The width of a host access: the three that 20_memory.md R65 and R66 name. DESIGN CHOICE: which widths a host can
issue at all is open; a wider access, which would be a bus error, is no term of the model (log 20). -/
inductive Width where
  | w8 | w16 | w32
deriving DecidableEq, Repr

/-- One host access: its width and its byte offset from the block's base address, and for a write its data
(20_memory.md R60, R66). A narrow write moves the low lanes of `data` (log 14). -/
inductive Access where
  | read (w : Width) (offset : Nat)
  | write (w : Width) (offset : Nat) (data : Word)
deriving DecidableEq, Repr

/-- One item of a host program: an access, or WAITIDLE, which repeats a STATUS read until BUSY reads 0
(30_encoding.md R98). -/
inductive HostOp where
  | access (a : Access)
  | waitIdle
deriving DecidableEq, Repr

end Sys2Proof
end

