-- ==== Sys2Proof/WellFormed.lean ====
section
/-! DEFINITION. Which commands the encoding admits: N is a 5-bit field (30_encoding.md R91, R92, R97). -/

namespace Sys2Proof

/-- N is 0 to 31 in form CN; form C0 has no operand (30_encoding.md R91, R97). -/
def Instr.wf : Instr → Bool
  | .init => true
  | .decode => true
  | .decodeBin n => decide (n < 32)
  | .update => true
  | .bitLogp n => decide (n < 32)
  | .icdf8 n => decide (n < 32)
  | .icdf16 n => decide (n < 32)
  | .bits n => decide (n < 32)
  | .uint => true
  | .laplace => true
  | .tell => true
  | .tellFrac => true

end Sys2Proof
end

