-- ==== Sys2Proof/Decode.lean ====
section
/-! DEFINITION. The command word (30_encoding.md R90 to R96): its fields, the decoder (total, rejecting by
name), the encoder, R94's legality, and the assembler of R97. -/

namespace Sys2Proof

/-- OP, bits [7:0] of a command word (30_encoding.md R90). -/
def opField (w : Word) : Nat := w.toNat % 256

/-- N, bits [12:8] of a command word, zero-extended (30_encoding.md R90, R92). -/
def nField (w : Word) : Nat := w.toNat / 256 % 32

/-- RSV, bits [31:13] of a command word (30_encoding.md R90). -/
def rsvField (w : Word) : Nat := w.toNat / 8192

/-- Why a word is illegal (30_encoding.md R95). -/
inductive Illegal where
  /-- OP is 0x00 or 0x0D to 0xFF. -/
  | reservedOp
  /-- RSV is not 0. -/
  | reservedBits
  /-- N is not 0 in a C0 form. -/
  | immediateOnC0
deriving DecidableEq, Repr

/-- A C0 word takes no immediate (30_encoding.md R91). -/
def decodeC0 (n : Nat) (i : Instr) : Except Illegal Instr :=
  if n = 0 then .ok i else .error .immediateOnC0

/-- The opcode map read by OP, N being the word's immediate (30_encoding.md R93). -/
def decodeOp (n : Nat) : Nat → Except Illegal Instr
  | 0x01 => decodeC0 n .init
  | 0x02 => decodeC0 n .decode
  | 0x03 => .ok (.decodeBin n)
  | 0x04 => decodeC0 n .update
  | 0x05 => .ok (.bitLogp n)
  | 0x06 => .ok (.icdf8 n)
  | 0x07 => .ok (.icdf16 n)
  | 0x08 => .ok (.bits n)
  | 0x09 => decodeC0 n .uint
  | 0x0A => decodeC0 n .laplace
  | 0x0B => decodeC0 n .tell
  | 0x0C => decodeC0 n .tellFrac
  | _ => .error .reservedOp

/-- The decoder, total on command words (30_encoding.md R94, R95, R96). -/
def decode (w : Word) : Except Illegal Instr :=
  if rsvField w = 0 then decodeOp (nField w) (opField w) else .error .reservedBits

/-- OP of each command (30_encoding.md R93). -/
def Instr.opcode : Instr → Nat
  | .init => 0x01
  | .decode => 0x02
  | .decodeBin _ => 0x03
  | .update => 0x04
  | .bitLogp _ => 0x05
  | .icdf8 _ => 0x06
  | .icdf16 _ => 0x07
  | .bits _ => 0x08
  | .uint => 0x09
  | .laplace => 0x0A
  | .tell => 0x0B
  | .tellFrac => 0x0C

/-- N of each command; 0 in form C0 (30_encoding.md R91). -/
def Instr.imm : Instr → Nat
  | .decodeBin n => n
  | .bitLogp n => n
  | .icdf8 n => n
  | .icdf16 n => n
  | .bits n => n
  | .init => 0
  | .decode => 0
  | .update => 0
  | .uint => 0
  | .laplace => 0
  | .tell => 0
  | .tellFrac => 0

/-- The encoder: `OP + n * 0x100` (30_encoding.md R93). -/
def encode (i : Instr) : Word := BitVec.ofNat 32 (i.opcode + i.imm * 0x100)

/-- The OPs of form CN (30_encoding.md R93). -/
def opTakesN (op : Nat) : Bool := op == 3 || op == 5 || op == 6 || op == 7 || op == 8

/-- R94's legality of a word, in its own terms. -/
def legalWord (w : Word) : Bool :=
  decide (1 ≤ opField w ∧ opField w ≤ 0x0C) && decide (rsvField w = 0)
    && (opTakesN (opField w) || decide (nField w = 0))

/-- The instruction the decoder reads from a table row's word of `nbits` bits; the word's bits above `nbits`
are 0, and a command is one 32-bit word (30_encoding.md R96). -/
def decodeTableWord (nbits w : Nat) : Option Instr :=
  match decode (BitVec.ofNat 32 (w % 2 ^ nbits)) with
  | .ok i => some i
  | .error _ => none

/-- The assembler's reading of `MNEMONIC` and `MNEMONIC n` (30_encoding.md R97): it refuses an unknown
mnemonic, n outside 0..31, an n on a C0 mnemonic and a missing n on a CN one. -/
def assembleInstr (mnemonic : String) (n : Option Nat) : Option Instr :=
  let i : Option Instr := match n with
    | none =>
      if mnemonic = "INIT" then some .init
      else if mnemonic = "DECODE" then some .decode
      else if mnemonic = "UPDATE" then some .update
      else if mnemonic = "UINT" then some .uint
      else if mnemonic = "LAPLACE" then some .laplace
      else if mnemonic = "TELL" then some .tell
      else if mnemonic = "TELL_FRAC" then some .tellFrac
      else none
    | some k =>
      if mnemonic = "DECODE_BIN" then some (.decodeBin k)
      else if mnemonic = "BIT_LOGP" then some (.bitLogp k)
      else if mnemonic = "ICDF8" then some (.icdf8 k)
      else if mnemonic = "ICDF16" then some (.icdf16 k)
      else if mnemonic = "BITS" then some (.bits k)
      else none
  match i with
  | some i => if i.wf then some i else none
  | none => none

/-- The word of `MNEMONIC [n]` (30_encoding.md R97). -/
def assemble (mnemonic : String) (n : Option Nat) : Option Word :=
  (assembleInstr mnemonic n).map encode

end Sys2Proof
end

