-- ==== Sys2Proof/Machine/State.lean ====
section
/-! DEFINITION. The state of RDEC (10_state.md R20), its reset (R44), and why a step may stop. -/

namespace Sys2Proof.Machine

/-- BUF or TBL: (index, byte) pairs, indexes strictly rising, no byte equal to what an unlisted index reads
as (`Memory.wf`, Machine/Ops.lean). -/
abbrev Memory := List Host.Cell

/-- RDEC's state (10_state.md R20), then the model's own four fields, which are inputs of a model and the
observation of a run (00_scope.md R5, 70_reset_and_hazards.md R278, R280). BUSY is the valid bit of `pending`
(10_state.md R38) and ERR is ECODE ≠ 0 (R41), so neither is stored twice; CTRL and ID store nothing (R34, R35). -/
@[ext]
structure State where
  /-- BUF (20_memory.md R61). -/
  buf : Memory
  /-- TBL (20_memory.md R63). -/
  tbl : Memory
  /-- ARG0 (10_state.md R22). -/
  arg0 : Word
  /-- ARG1 (10_state.md R22). -/
  arg1 : Word
  /-- ARG2 (10_state.md R22). -/
  arg2 : Word
  /-- RESULT (10_state.md R23). -/
  result : Word
  /-- LEN (10_state.md R24). -/
  len : BitVec 17
  /-- RNG (10_state.md R26). -/
  rng : Word
  /-- VAL (10_state.md R27). -/
  val : Word
  /-- POS (10_state.md R28). -/
  pos : Word
  /-- END_POS (10_state.md R29). -/
  endPos : Word
  /-- TOTAL_BITS (10_state.md R31). -/
  totalBits : Word
  /-- WINDOW (10_state.md R32). -/
  window : Word
  /-- AVAIL (10_state.md R32). -/
  avail : BitVec 6
  /-- REM (10_state.md R33). -/
  rem : BitVec 1
  /-- STATUS.READY (10_state.md R39). -/
  ready : Bool
  /-- STATUS.FAULT (10_state.md R40). -/
  fault : Bool
  /-- STATUS.ERR_SEEN (10_state.md R41). -/
  errSeen : Bool
  /-- STATUS.ECODE (10_state.md R41). -/
  ecode : BitVec 4
  /-- STATUS.FCODE (10_state.md R40). -/
  fcode : BitVec 8
  /-- FCMD (10_state.md R36). -/
  fcmd : Word
  /-- FINFO (10_state.md R36). -/
  finfo : Word
  /-- PENDING, the command latch (10_state.md R38). -/
  pending : Option Word
  /-- The parameters BUF_MAX and TBL_MAX, fixed for the machine (00_scope.md R5, log 1). -/
  params : Params
  /-- The host's accesses still to be performed, first first (70_reset_and_hazards.md R280, log 3). -/
  program : List HostOp
  /-- The values the host's reads returned, first first (70_reset_and_hazards.md R280, log 3). -/
  replies : List Word
  /-- For the pending command and each one after it, how many of the host's STATUS reads its latency covers;
  0 when the list is used up (70_reset_and_hazards.md R278, log 4). -/
  polls : List Nat
deriving DecidableEq, Repr

/-- The seven fault codes of RDEC (60_exceptions.md R235). Raising one is a next state (R237), so these are
no outcomes of a step. -/
inductive RdecFault where
  | illegalCmd | notReady | divZero | updateContract | tableBounds | icdfOverrun | lenRange
deriving DecidableEq, Repr

/-- The completion codes (60_exceptions.md R231). -/
inductive Completion where
  | ok | bufferTooSmall | tooManyBits | invalidArgument | corruptFrame
deriving DecidableEq, Repr

/-- Why a run stops with a fault. None of these is an RDEC fault: those are taken (60_exceptions.md R237). -/
inductive Fault where
  /-- Raised by a host access of a width or alignment its region does not take: the bus error of 20_memory.md
  R67, treated as the host's own fault, as the rule asks. Safe: the run stops where R67 changes no state. -/
  | busError
  /-- Raised by a host access at an offset outside the aperture of 20_memory.md R60. Safe: the spec says nothing
  of what lies there (log 6). -/
  | outsideAperture
  /-- Raised by ICDF8, ICDF16 and TELL_FRAC with READY = 1 in a state that breaks 10_state.md R25, where the
  exactness the spec proves from R25 fails and its pseudocode has no value or no end. Safe: no run reaches such
  a state (log 9). -/
  | coreInvariantBroken
deriving DecidableEq, Repr

/-- Why a command is refused. -/
inductive Refusal where
  /-- Raised by an arm of exec for a command without a meaning; no arm of this model raises it. Safe. -/
  | notModelled (mnemonic : String)
deriving DecidableEq, Repr

/-- What a step answers. -/
abbrev Result := Host.Outcome State Fault Refusal

/-- Power-on reset of an RDEC with parameters `p`, BUF and TBL holding whatever they hold (10_state.md R44,
70_reset_and_hazards.md R270); the host performs `program`, under the latencies `polls`. -/
def State.powerOn (p : Params) (buf tbl : Memory) (program : List HostOp) (polls : List Nat) : State where
  buf := buf
  tbl := tbl
  arg0 := 0
  arg1 := 0
  arg2 := 0
  result := 0
  len := 0
  rng := 0
  val := 0
  pos := 0
  endPos := 0
  totalBits := 0
  window := 0
  avail := 0
  rem := 0
  ready := false
  fault := false
  errSeen := false
  ecode := 0
  fcode := 0
  fcmd := 0
  finfo := 0
  pending := none
  params := p
  program := program
  replies := []
  polls := polls

/-- The machine right after power-on reset, with the default parameters of 00_scope.md R5, nothing listed in
BUF and TBL (log 2), no host program and no latency (log 3, log 4). -/
def State.reset : State := State.powerOn Params.default [] [] [] []

end Sys2Proof.Machine
end

