-- ==== Sys2Proof/Machine/Operands.lean ====
section
/-! DEFINITION. The fixed constants (00_scope.md R6), the arithmetic primitives (R9, R10), and the operands of a
command (30_encoding.md R92, R99). Values are natural numbers, computed exactly and narrowed to a register
by `w32`. -/

namespace Sys2Proof.Machine

/-- 2^32 - 1, the largest 32-bit value (00_scope.md R10). -/
def maxU32 : Nat := 2 ^ 32 - 1

/-- Normalization threshold 2^23 (00_scope.md R6). -/
def normThreshold : Nat := 0x800000

/-- Raw-bit ceiling per draw (00_scope.md R6). -/
def rawBitCeiling : Nat := 25

/-- EC_UINT_BITS, the uniform-integer split width (00_scope.md R6). -/
def uintSplitBits : Nat := 8

/-- LAPLACE_MINP (00_scope.md R6). -/
def laplaceMinp : Nat := 1

/-- LAPLACE_LOG_MINP (00_scope.md R6). -/
def laplaceLogMinp : Nat := 0

/-- LAPLACE_NMIN (00_scope.md R6). -/
def laplaceNmin : Nat := 16

/-- The total frequency of the Laplace decoder (00_scope.md R6). -/
def laplaceTotal : Nat := 32768

/-- The value of the ID register, ASCII "RDEC" (10_state.md R35). -/
def idValue : Word := 0x52444543

/-- The low 32 bits of a value, as a register. -/
def w32 (n : Nat) : Word := BitVec.ofNat 32 n

/-- `sat_sub`, clamped at zero (00_scope.md R10). -/
def satSub (a b : Nat) : Nat := a - b

/-- `sat_mul`, the exact product clamped at 2^32 - 1 (00_scope.md R10). -/
def satMul (a b : Nat) : Nat := min (a * b) maxU32

/-- `sat_add`, clamped at 2^32 - 1 (00_scope.md R10). -/
def satAdd (a b : Nat) : Nat := min (a + b) maxU32

/-- `sat_inc` (00_scope.md R10). -/
def satInc (a : Nat) : Nat := satAdd a 1

/-- The bit-length of x, 0 for 0 (00_scope.md R9). -/
def ilog (x : Nat) : Nat := if x = 0 then 0 else Nat.log2 x + 1

/-- The operand ARG0 of the current command (30_encoding.md R99). -/
def State.opArg0 (s : State) : Nat := s.arg0.toNat

/-- The operand ARG1 of the current command (30_encoding.md R99). -/
def State.opArg1 (s : State) : Nat := s.arg1.toNat

/-- The operand ARG2 of the current command (30_encoding.md R99). -/
def State.opArg2 (s : State) : Nat := s.arg2.toNat

/-- `1 << n`, the power-of-two frequency space of a CN command (41_symbol_decode.md R142, 42_table_bit.md R160). -/
def pow2 (n : Nat) : Nat := 2 ^ n

end Sys2Proof.Machine
end

