-- ==== Sys2Proof/Machine/Flags.lean ====
section
/-! DEFINITION. The codes of STATUS (60_exceptions.md R231, R235), STATUS and RAWINFO as the words the host reads
(10_state.md R30, 20_memory.md R62). RDEC has no other flag (10_state.md R30). -/

namespace Sys2Proof.Machine

/-- FCODE of each fault (60_exceptions.md R235). -/
def RdecFault.code : RdecFault → BitVec 8
  | .illegalCmd => 1
  | .notReady => 2
  | .divZero => 3
  | .updateContract => 4
  | .tableBounds => 5
  | .icdfOverrun => 6
  | .lenRange => 7

/-- ECODE of each completion (60_exceptions.md R231). -/
def Completion.code : Completion → BitVec 4
  | .ok => 0
  | .bufferTooSmall => 1
  | .tooManyBits => 2
  | .invalidArgument => 3
  | .corruptFrame => 4

/-- A flag as a number. -/
def bit (b : Bool) : Nat := if b then 1 else 0

/-- STATUS.BUSY is the valid bit of PENDING (10_state.md R38). -/
def State.busy (s : State) : Bool := s.pending.isSome

/-- STATUS.ERR is ECODE ≠ 0 (10_state.md R41). -/
def State.err (s : State) : Bool := s.ecode != 0

/-- STATUS as the host reads it (10_state.md R30): BUSY [0], READY [1], FAULT [2], ERR [3], ERR_SEEN [4],
ECODE [11:8], FCODE [23:16], the rest 0. -/
def State.statusWord (s : State) : Word :=
  w32 (bit s.busy + bit s.ready * 2 + bit s.fault * 4 + bit s.err * 8 + bit s.errSeen * 16
    + s.ecode.toNat * 2 ^ 8 + s.fcode.toNat * 2 ^ 16)

/-- RAWINFO as the host reads it: AVAIL [5:0], REM [8], the rest 0 (20_memory.md R62). -/
def State.rawinfoWord (s : State) : Word := w32 (s.avail.toNat + s.rem.toNat * 2 ^ 8)

end Sys2Proof.Machine
end

