-- ==== Sys2Proof/Machine/Ops.lean ====
section
/-! DEFINITION. The named operations every command is written over: memory (20_memory.md R61, R63, R71),
completion (60_exceptions.md R232), taking a fault and leaving the fault state (R237, R238), dispatch (R236), and
the shared procedures of 00_scope.md R12: Normalize, DecodeCore, UpdateCore, IcdfSearch, RawBits. -/

namespace Sys2Proof.Machine

/-! ### Memory -/

/-- The canonical form: indexes strictly rising, no byte equal to what an unlisted index reads as. -/
def Memory.wf : Memory → Bool
  | [] => true
  | [(_, v)] => v != Config.unlistedByte
  | (a, v) :: (b, u) :: m => v != Config.unlistedByte && decide (a < b) && Memory.wf ((b, u) :: m)

/-- Every listed index is below `n`. -/
def Memory.below (n : Nat) : Memory → Bool
  | [] => true
  | (a, _) :: m => decide (a < n) && Memory.below n m

/-- One byte (20_memory.md R61, R63). -/
def Memory.read : Memory → Nat → Byte
  | [], _ => Config.unlistedByte
  | (b, u) :: m, a => if a = b then u else Memory.read m a

/-- Store one byte, keeping the canonical form. -/
def Memory.write : Memory → Nat → Byte → Memory
  | [], a, v => if v = Config.unlistedByte then [] else [(a, v)]
  | (b, u) :: m, a, v =>
    if a < b then (if v = Config.unlistedByte then (b, u) :: m else (a, v) :: (b, u) :: m)
    else if a = b then (if v = Config.unlistedByte then m else (a, v) :: m)
    else (b, u) :: Memory.write m a v

/-- `n` bytes from index `a`, little-endian: the sum over k of byte a+k shifted by 8k (20_memory.md R63). -/
def Memory.readLE (m : Memory) (a : Nat) : Nat → Nat
  | 0 => 0
  | n + 1 => (m.read a).toNat + 256 * Memory.readLE m (a + 1) n

/-- FrontByte(i): BUF[i] inside the packet, 0 at and past its end (20_memory.md R71). -/
def State.frontByte (s : State) (i : Nat) : Byte :=
  if i < s.len.toNat then s.buf.read i else 0

/-- TailByte(k): the byte k places before the packet's last, 0 once the tail is exhausted (20_memory.md R71). -/
def State.tailByte (s : State) (k : Nat) : Byte :=
  if k < s.len.toNat then s.buf.read (s.len.toNat - 1 - k) else 0

/-- TblEntry(base, k, w) (20_memory.md R71). -/
def State.tblEntry (s : State) (base k w : Nat) : Nat := s.tbl.readLE (base + w * k) w

/-! ### Ending a command -/

/-- `complete(code, r)` (60_exceptions.md R232). -/
def complete (c : Completion) (r : Word) (s : State) : State :=
  { s with result := r, ecode := c.code, errSeen := s.errSeen || (c != .ok) }

/-- Taking a fault: `raise Fault(F, info)` in the command word `w`, from the state `s` that the command found
(60_exceptions.md R237). Decoder state is as the command found it because `s` is that state. -/
def raiseFault (w : Word) (f : RdecFault) (info : Word) (s : State) : State :=
  { s with fault := true, ready := false, fcode := f.code, fcmd := w, finfo := info, ecode := 0 }

/-- Leaving the fault state: INIT's first line (40_init_normalize.md R120, 60_exceptions.md R238). -/
def clearFault (s : State) : State :=
  { s with fault := false, fcode := 0, fcmd := 0, finfo := 0, errSeen := false }

/-- How a command's pseudocode ends early. -/
inductive Abort where
  /-- `raise Fault(f, info)` (60_exceptions.md R237). -/
  | raise (f : RdecFault) (info : Word)
  /-- The pseudocode has no value or no end, in a state that breaks 10_state.md R25 (log 9). -/
  | broken
deriving DecidableEq, Repr

/-- The end of command `w` that found state `s`: its own state on completion, fault entry on a raise. -/
def settle (w : Word) (s : State) : Except Abort State → Result
  | .ok t => .next t
  | .error (.raise f info) => .next (raiseFault w f info s)
  | .error .broken => .fault .coreInvariantBroken

/-- The common dispatch of every command but INIT: ignored in the fault state, NOT_READY without a decoder,
else its pseudocode `body` (60_exceptions.md R236, R239, R240). -/
def dispatch (w : Word) (s : State) (body : Except Abort State) : Result :=
  if s.fault then .next s
  else if s.ready then settle w s body
  else .next (raiseFault w .notReady 0 s)

/-! ### Normalize -/

/-- One iteration of Normalize's loop (40_init_normalize.md R122, R123). -/
def normalizeOnce (s : State) : State :=
  let b := (s.frontByte s.pos.toNat).toNat
  let sym := s.rem.toNat * 2 ^ 7 + b / 2
  { s with
    rng := w32 (s.rng.toNat * 2 ^ 8)
    pos := w32 (satInc s.pos.toNat)
    rem := BitVec.ofNat 1 b
    val := w32 (s.val.toNat * 2 ^ 8 + (255 - sym))
    totalBits := w32 (satAdd s.totalBits.toNat 8) }

/-- `while RNG <= 0x800000` (40_init_normalize.md R123), at most `fuel` iterations. -/
def normalizeLoop : Nat → State → State
  | 0, s => s
  | fuel + 1, s =>
    if s.rng.toNat ≤ normThreshold then normalizeLoop fuel (normalizeOnce s) else s

/-- Normalize(): at most 3 iterations when entered with RNG ≥ 1, as every caller does (40_init_normalize.md R123,
R124, log 8). -/
def normalizeRange (s : State) : State := normalizeLoop 3 s

/-! ### DecodeCore and UpdateCore -/

/-- DecodeCore(ft) (41_symbol_decode.md R141). -/
def decodeCore (ft : Nat) (s : State) : Except Abort Nat :=
  if ft = 0 ∨ s.rng.toNat / ft = 0 then .error (.raise .divZero (w32 ft))
  else
    let q := s.val.toNat / (s.rng.toNat / ft)
    .ok (satSub ft (min (q + 1) ft))

/-- The new value of UpdateCore (41_symbol_decode.md R144). -/
def updateVal (fh ft : Nat) (s : State) : Nat :=
  satSub s.val.toNat (satMul (s.rng.toNat / ft) (satSub ft fh))

/-- The new range of UpdateCore (41_symbol_decode.md R144). -/
def updateRng (fl fh ft : Nat) (s : State) : Nat :=
  if 0 < fl then satMul (s.rng.toNat / ft) (satSub fh fl)
  else satSub s.rng.toNat (satMul (s.rng.toNat / ft) (satSub ft fh))

/-- UpdateCore(fl, fh, ft) (41_symbol_decode.md R144). -/
def updateCore (fl fh ft : Nat) (s : State) : Except Abort State :=
  if ft = 0 ∨ s.rng.toNat / ft = 0 then .error (.raise .divZero (w32 ft))
  else
    let v := updateVal fh ft s
    let r := updateRng fl fh ft s
    if r ≤ v then .error (.raise .updateContract (w32 r))
    else .ok (normalizeRange { s with val := w32 v, rng := w32 r })

/-! ### IcdfSearch -/

/-- The probe loop of IcdfSearch: `left` entries remain from entry `k` on, `t` is the previous product. The
answer is (k, t, s) at the stopping probe, none when no entry stops it (42_table_bit.md R163). -/
def icdfLoop (s : State) (base w r d : Nat) : Nat → Nat → Nat → Option (Nat × Nat × Nat)
  | 0, _, _ => none
  | left + 1, k, t =>
    let p := satMul r (s.tblEntry base k w)
    if p ≤ d then some (k, t, p) else icdfLoop s base w r d left (k + 1) p

/-- IcdfSearch(ftb, base, len, w) (42_table_bit.md R163). It always has t > d while R25 holds (R165). -/
def icdfSearch (ftb base len w : Nat) (s : State) : Except Abort (Nat × State) :=
  if len = 0 ∨ s.params.tblMax < base + w * len then .error (.raise .tableBounds (w32 base))
  else
    let d := s.val.toNat
    match icdfLoop s base w (s.rng.toNat / 2 ^ ftb) d len 0 s.rng.toNat with
    | none => .error (.raise .icdfOverrun (w32 len))
    | some (k, t, p) =>
      if t ≤ d then .error .broken
      else .ok (k, normalizeRange { s with val := w32 (d - p), rng := w32 (t - p) })

/-! ### RawBits -/

/-- One tail fetch into the window (43_raw_bits.md R181, R182). -/
def rawFetch (s : State) : State :=
  let b := (s.tailByte s.endPos.toNat).toNat
  { s with
    endPos := w32 (satInc s.endPos.toNat)
    window := w32 (s.window.toNat ||| b * 2 ^ s.avail.toNat)
    avail := BitVec.ofNat 6 (s.avail.toNat + 8) }

/-- `while AVAIL < n` (43_raw_bits.md R182), at most `fuel` fetches. -/
def rawFill (n : Nat) : Nat → State → State
  | 0, s => s
  | fuel + 1, s => if s.avail.toNat < n then rawFill n fuel (rawFetch s) else s

/-- Taking the low `n` bits of the filled window (43_raw_bits.md R182). -/
def rawTake (n : Nat) (s : State) : Nat × State :=
  (s.window.toNat % 2 ^ n,
   { s with
     window := w32 (s.window.toNat / 2 ^ n)
     avail := BitVec.ofNat 6 (s.avail.toNat - n)
     totalBits := w32 (satAdd s.totalBits.toNat n) })

/-- RawBits(n), 1 ≤ n ≤ 25: at most 4 fetches (43_raw_bits.md R182, 70_reset_and_hazards.md R279, log 8). -/
def rawBits (n : Nat) (s : State) : Nat × State := rawTake n (rawFill n 4 s)

end Sys2Proof.Machine
end

