-- ==== Sys2Proof/Machine/Bus.lean ====
section
/-! DEFINITION. The host's accesses: the aperture and its regions (20_memory.md R60), the register page (R62, R65,
R68), the windows (R66, R68, R82), the soft reset (70_reset_and_hazards.md R271) and the bus error (20_memory.md
R67). -/

namespace Sys2Proof.Machine

/-! ### Registers -/

/-- The offset of each register (20_memory.md R62). -/
def regOffset : Reg → Nat
  | .id => 0x000
  | .ctrl => 0x004
  | .status => 0x008
  | .cmd => 0x00C
  | .arg0 => 0x010
  | .arg1 => 0x014
  | .arg2 => 0x018
  | .result => 0x01C
  | .len => 0x020
  | .rng => 0x024
  | .val => 0x028
  | .pos => 0x02C
  | .endPos => 0x030
  | .totalBits => 0x034
  | .window => 0x038
  | .rawinfo => 0x03C
  | .fcmd => 0x040
  | .finfo => 0x044

/-- The register at an offset of the register page; none at a reserved one (20_memory.md R62, R68). -/
def regAt : Nat → Option Reg
  | 0x000 => some .id
  | 0x004 => some .ctrl
  | 0x008 => some .status
  | 0x00C => some .cmd
  | 0x010 => some .arg0
  | 0x014 => some .arg1
  | 0x018 => some .arg2
  | 0x01C => some .result
  | 0x020 => some .len
  | 0x024 => some .rng
  | 0x028 => some .val
  | 0x02C => some .pos
  | 0x030 => some .endPos
  | 0x034 => some .totalBits
  | 0x038 => some .window
  | 0x03C => some .rawinfo
  | 0x040 => some .fcmd
  | 0x044 => some .finfo
  | _ => none

/-- What a read of a register returns: CTRL and CMD read 0, ID its constant (10_state.md R34, R35, R37;
20_memory.md R62, R68). -/
def readReg (s : State) : Reg → Word
  | .id => idValue
  | .ctrl => 0
  | .status => s.statusWord
  | .cmd => 0
  | .arg0 => s.arg0
  | .arg1 => s.arg1
  | .arg2 => s.arg2
  | .result => s.result
  | .len => s.len.setWidth 32
  | .rng => s.rng
  | .val => s.val
  | .pos => s.pos
  | .endPos => s.endPos
  | .totalBits => s.totalBits
  | .window => s.window
  | .rawinfo => s.rawinfoWord
  | .fcmd => s.fcmd
  | .finfo => s.finfo

/-- Soft reset: every register as at power-on, BUF and TBL kept (70_reset_and_hazards.md R271, 10_state.md R44).
The model's own fields are no registers and stay (log 17). -/
def softReset (s : State) : State :=
  { State.powerOn s.params s.buf s.tbl s.program s.polls with replies := s.replies }

/-- A write of `v` to a register: read-only ones ignore it (20_memory.md R68), LEN takes bits [16:0] and discards
the decoder (10_state.md R24, 20_memory.md R82), CMD fills the latch (10_state.md R37), CTRL bit 0 resets (R34). -/
def writeReg (r : Reg) (v : Word) (s : State) : State :=
  match r with
  | .ctrl => if v.toNat % 2 = 1 then softReset s else s
  | .cmd => { s with pending := some v }
  | .arg0 => { s with arg0 := v }
  | .arg1 => { s with arg1 := v }
  | .arg2 => { s with arg2 := v }
  | .len => { s with len := v.setWidth 17, ready := false }
  | .id => s
  | .status => s
  | .result => s
  | .rng => s
  | .val => s
  | .pos => s
  | .endPos => s
  | .totalBits => s
  | .window => s
  | .rawinfo => s
  | .fcmd => s
  | .finfo => s

/-! ### Windows -/

/-- The capacity behind a window (00_scope.md R5, 20_memory.md R60). -/
def windowMax (s : State) : Window → Nat
  | .buf => s.params.bufMax
  | .tbl => s.params.tblMax

/-- One byte of a window as the host reads it; the reserved part reads 0 (20_memory.md R60, R68). -/
def windowByte (s : State) (w : Window) (i : Nat) : Byte :=
  if i < windowMax s w then
    match w with
    | .buf => s.buf.read i
    | .tbl => s.tbl.read i
  else 0

/-- A host write of one byte of a window: a BUF byte discards the decoder, a TBL byte does not, the reserved part
ignores it (20_memory.md R64, R68, R82). -/
def windowStore (w : Window) (i : Nat) (v : Byte) (s : State) : State :=
  if i < windowMax s w then
    match w with
    | .buf => { s with buf := s.buf.write i v, ready := false }
    | .tbl => { s with tbl := s.tbl.write i v }
  else s

/-- `n` lanes from index `i` on, little-endian (20_memory.md R66). -/
def windowRead (s : State) (w : Window) (i : Nat) : Nat → Nat
  | 0 => 0
  | n + 1 => (windowByte s w i).toNat + 256 * windowRead s w (i + 1) n

/-- The low `n` lanes of `data` to index `i` on, little-endian, byte by byte (20_memory.md R66). -/
def windowWrite (w : Window) (i : Nat) (data : Nat) : Nat → State → State
  | 0, s => s
  | n + 1, s => windowWrite w (i + 1) (data / 256) n (windowStore w i (BitVec.ofNat 8 data) s)

/-! ### Accesses -/

/-- The bytes an access moves (20_memory.md R65, R66). -/
def widthBytes : Width → Nat
  | .w8 => 1
  | .w16 => 2
  | .w32 => 4

/-- Where an offset lies (20_memory.md R60). -/
inductive Place where
  | page (offset : Nat)
  | window (w : Window) (index : Nat)
  | outside
deriving DecidableEq, Repr

/-- The region of an offset, and the index inside a window (20_memory.md R60). -/
def placeOf (offset : Nat) : Place :=
  if offset < 0x10000 then .page offset
  else if offset < 0x20000 then .window .buf (offset - 0x10000)
  else if offset < 0x30000 then .window .tbl (offset - 0x20000)
  else .outside

/-- The block's answer to a host access. -/
inductive Reply where
  /-- A read's data. -/
  | data (v : Word)
  /-- A write was performed (or ignored, as its rule says). -/
  | done
  /-- The access's error response (20_memory.md R67). -/
  | busError
  /-- The offset is not in the aperture (log 6). -/
  | outside
deriving DecidableEq, Repr

/-- The register page takes aligned 32-bit accesses only (20_memory.md R65). -/
def pageAccepts (w : Width) (offset : Nat) : Bool := w == .w32 && decide (offset % 4 = 0)

/-- A window takes naturally aligned accesses (20_memory.md R66). -/
def windowAccepts (w : Width) (index : Nat) : Bool := decide (index % widthBytes w = 0)

/-- A read: no side effect (20_memory.md R73). A reserved register reads 0 (R68). -/
def busRead (w : Width) (offset : Nat) (s : State) : Reply :=
  match placeOf offset with
  | .page o =>
    if pageAccepts w o then
      match regAt o with
      | some r => .data (readReg s r)
      | none => .data 0
    else .busError
  | .window win i =>
    if windowAccepts w i then .data (w32 (windowRead s win i (widthBytes w))) else .busError
  | .outside => .outside

/-- A write, with the state after it; a reserved register ignores it, a bus error changes nothing
(20_memory.md R67, R68). -/
def busWrite (w : Width) (offset : Nat) (v : Word) (s : State) : Reply × State :=
  match placeOf offset with
  | .page o =>
    if pageAccepts w o then
      match regAt o with
      | some r => (.done, writeReg r v s)
      | none => (.done, s)
    else (.busError, s)
  | .window win i =>
    if windowAccepts w i then (.done, windowWrite win i v.toNat (widthBytes w) s) else (.busError, s)
  | .outside => (.outside, s)

/-- One host access: the block's answer and the state after it. -/
def busAccess (a : Access) (s : State) : Reply × State :=
  match a with
  | .read w o => (busRead w o s, s)
  | .write w o v => busWrite w o v s

/-- A read of STATUS, the one access that does not wait while BUSY = 1 (70_reset_and_hazards.md R275, log 15). -/
def isStatusRead : HostOp → Bool
  | .access (.read w o) => w == .w32 && o == regOffset .status
  | .access (.write _ _ _) => false
  | .waitIdle => true

end Sys2Proof.Machine
end

