-- ==== Sys2Proof/Machine/Init.lean ====
section
/-! DEFINITION. INIT (40_init_normalize.md R120, R121). -/

namespace Sys2Proof.Machine

/-- The values INIT sets before its Normalize, with `b0` the first byte of the packet (40_init_normalize.md R121). -/
def initSeed (b0 : Nat) (s : State) : State :=
  { s with
    val := w32 (127 - b0 / 2)
    rng := w32 128
    rem := BitVec.ofNat 1 b0
    pos := w32 1
    totalBits := w32 9
    endPos := 0
    window := 0
    avail := 0 }

/-- INIT: it leaves the fault state, then constructs a decoder over BUF[0 .. LEN-1] (40_init_normalize.md R120).
The clears of its first line stand on LEN_RANGE. -/
def execInit (s : State) : Result :=
  let s0 := clearFault s
  if s.params.bufMax < s.len.toNat then
    .next (raiseFault (encode .init) .lenRange (w32 s.len.toNat) s0)
  else if s.len.toNat < 2 then
    .next (complete .bufferTooSmall 0 { s0 with ready := false })
  else
    .next (complete .ok 0 { normalizeRange (initSeed (s0.frontByte 0).toNat s0) with ready := true })

end Sys2Proof.Machine
end

