-- ==== Sys2Proof/Machine/Laplace.lean ====
section
/-! DEFINITION. LAPLACE (44_laplace.md R200, R201). The lines R201 marks [GK] are the spec's own, from general
knowledge (log 12). -/

namespace Sys2Proof.Machine

/-- The variables of R201's search: `fl`, `fsc` (the document's fs_current) and the magnitude `val`. -/
structure LaplaceVars where
  fl : Nat
  fsc : Nat
  mag : Nat
deriving DecidableEq, Repr

/-- The first step beyond zero: val 1, fl at fs, and fsc the step [GK] (44_laplace.md R201). -/
def laplaceStart (fs decay : Nat) : LaplaceVars :=
  let ft := satSub (satSub laplaceTotal (2 * laplaceMinp * laplaceNmin)) fs
  { fl := fs
    fsc := satMul ft (satSub 16384 decay) / 2 ^ 15 + laplaceMinp
    mag := 1 }

/-- One iteration of the loop: double, advance, decay [GK] (44_laplace.md R201). -/
def laplaceOnce (decay : Nat) (v : LaplaceVars) : LaplaceVars :=
  let twice := 2 * v.fsc
  { fl := v.fl + twice
    fsc := satMul (satSub twice (2 * laplaceMinp)) decay / 2 ^ 15 + laplaceMinp
    mag := v.mag + 1 }

/-- The search loop, at most `fuel` iterations (44_laplace.md R201). -/
def laplaceLoop (fm decay : Nat) : Nat → LaplaceVars → LaplaceVars
  | 0, v => v
  | fuel + 1, v =>
    if laplaceMinp < v.fsc ∧ v.fl + 2 * v.fsc ≤ fm then laplaceLoop fm decay fuel (laplaceOnce decay v) else v

/-- The linear interpolation once the step has collapsed to the minimum [GK] (44_laplace.md R201). -/
def laplaceCollapse (fm : Nat) (v : LaplaceVars) : LaplaceVars :=
  if v.fsc ≤ laplaceMinp then
    let di := (fm - v.fl) / 2 ^ (laplaceLogMinp + 1)
    { v with mag := v.mag + di, fl := v.fl + 2 * di * laplaceMinp }
  else v

/-- The sign: the lower half of the bucket is negative, the upper half moves fl up (44_laplace.md R201). -/
def laplaceSign (fm : Nat) (v : LaplaceVars) : Int × Nat × Nat :=
  if fm < v.fl + v.fsc then (-(v.mag : Int), v.fl, v.fsc) else ((v.mag : Int), v.fl + v.fsc, v.fsc)

/-- The value, `fl` and `fsc` that R201's search leaves for `fm`; its loop runs at most 8192 times
(44_laplace.md R201, 70_reset_and_hazards.md R279, log 8). -/
def laplaceSearch (fm fs decay : Nat) : Int × Nat × Nat :=
  if fs ≤ fm then laplaceSign fm (laplaceCollapse fm (laplaceLoop fm decay 8192 (laplaceStart fs decay)))
  else (0, 0, fs)

/-- LAPLACE's pseudocode; RESULT is the value in two's complement (44_laplace.md R200, R201). -/
def laplaceBody (s : State) : Except Abort State := do
  let fm ← decodeCore (2 ^ 15) s
  let (val, fl, fsc) := laplaceSearch fm s.opArg0 s.opArg1
  let t ← updateCore fl (min (fl + fsc) laplaceTotal) laplaceTotal s
  return complete .ok (BitVec.ofInt 32 val) t

/-- LAPLACE (44_laplace.md R200). -/
def execLaplace (s : State) : Result :=
  dispatch (encode .laplace) s (laplaceBody s)

end Sys2Proof.Machine
end

