-- ==== Sys2Proof/Machine/Raw.lean ====
section
/-! DEFINITION. BITS and UINT (43_raw_bits.md R180, R184). -/

namespace Sys2Proof.Machine

/-- BITS' pseudocode (43_raw_bits.md R180). -/
def bitsBody (n : Nat) (s : State) : Except Abort State :=
  if rawBitCeiling < n then .ok (complete .tooManyBits 0 s)
  else if n = 0 then .ok (complete .ok 0 s)
  else
    let (v, t) := rawBits n s
    .ok (complete .ok (w32 v) t)

/-- BITS (43_raw_bits.md R180). -/
def execBits (n : Nat) (s : State) : Result :=
  dispatch (encode (.bits n)) s (bitsBody n s)

/-- The end of UINT: CORRUPT_FRAME keeps every change and reports t (43_raw_bits.md R184). -/
def uintFinish (ft t : Nat) (s : State) : State :=
  if ft ≤ t then complete .corruptFrame (w32 t) s else complete .ok (w32 t) s

/-- UINT's direct path, ftb ≤ 8 (43_raw_bits.md R184). -/
def uintDirect (ft : Nat) (s : State) : Except Abort State := do
  let t ← decodeCore ft s
  let s1 ← updateCore t (t + 1) ft s
  return uintFinish ft t s1

/-- UINT's split path: the high part from the range coder, then `sh` raw bits (43_raw_bits.md R184). -/
def uintSplit (ft sh : Nat) (s : State) : Except Abort State := do
  let fth := (ft - 1) / 2 ^ sh + 1
  let th ← decodeCore fth s
  let s1 ← updateCore th (th + 1) fth s
  let (tl, s2) := rawBits sh s1
  return uintFinish ft (th * 2 ^ sh + tl) s2

/-- UINT's pseudocode (43_raw_bits.md R184). -/
def uintBody (s : State) : Except Abort State :=
  let ft := s.opArg0
  let ftb := ilog (ft - 1)
  if ft = 0 then .ok (complete .invalidArgument 0 s)
  else if ftb ≤ uintSplitBits then uintDirect ft s
  else uintSplit ft (ftb - uintSplitBits) s

/-- UINT (43_raw_bits.md R184). -/
def execUint (s : State) : Result :=
  dispatch (encode .uint) s (uintBody s)

end Sys2Proof.Machine
end

