-- ==== Sys2Proof/Machine/Symbol.lean ====
section
/-! DEFINITION. DECODE, DECODE_BIN and UPDATE (41_symbol_decode.md R140, R142, R143). -/

namespace Sys2Proof.Machine

/-- A symbol search that only reports: RESULT is fs, no decoder-core register changes (41_symbol_decode.md R140). -/
def decodeBody (ft : Nat) (s : State) : Except Abort State := do
  let fs ← decodeCore ft s
  return complete .ok (w32 fs) s

/-- DECODE (41_symbol_decode.md R140). -/
def execDecode (s : State) : Result :=
  dispatch (encode .decode) s (decodeBody s.opArg0 s)

/-- DECODE_BIN: DECODE over 1 << N (41_symbol_decode.md R142). -/
def execDecodeBin (n : Nat) (s : State) : Result :=
  dispatch (encode (.decodeBin n)) s (decodeBody (pow2 n) s)

/-- UPDATE's pseudocode (41_symbol_decode.md R143). -/
def updateBody (s : State) : Except Abort State := do
  let t ← updateCore s.opArg0 s.opArg1 s.opArg2 s
  return complete .ok 0 t

/-- UPDATE (41_symbol_decode.md R143). -/
def execUpdate (s : State) : Result :=
  dispatch (encode .update) s (updateBody s)

end Sys2Proof.Machine
end

