-- ==== Sys2Proof/Machine/Table.lean ====
section
/-! DEFINITION. BIT_LOGP, ICDF8 and ICDF16 (42_table_bit.md R160, R162, R164). -/

namespace Sys2Proof.Machine

/-- BIT_LOGP's pseudocode (42_table_bit.md R160). -/
def bitLogpBody (n : Nat) (s : State) : Except Abort State := do
  let ft := pow2 n
  let fs ← decodeCore ft s
  if fs < ft - 1 then
    let t ← updateCore 0 (ft - 1) ft s
    return complete .ok 0 t
  else
    let t ← updateCore (ft - 1) ft ft s
    return complete .ok 1 t

/-- BIT_LOGP (42_table_bit.md R160). -/
def execBitLogp (n : Nat) (s : State) : Result :=
  dispatch (encode (.bitLogp n)) s (bitLogpBody n s)

/-- The pseudocode of ICDF8 (w = 1) and ICDF16 (w = 2) (42_table_bit.md R162, R164). -/
def icdfBody (n w : Nat) (s : State) : Except Abort State := do
  let (k, t) ← icdfSearch n s.opArg0 s.opArg1 w s
  return complete .ok (w32 k) t

/-- ICDF8 (42_table_bit.md R162). -/
def execIcdf8 (n : Nat) (s : State) : Result :=
  dispatch (encode (.icdf8 n)) s (icdfBody n 1 s)

/-- ICDF16 (42_table_bit.md R164). -/
def execIcdf16 (n : Nat) (s : State) : Result :=
  dispatch (encode (.icdf16 n)) s (icdfBody n 2 s)

end Sys2Proof.Machine
end

