-- ==== Sys2Proof/Machine/Tell.lean ====
section
/-! DEFINITION. TELL and TELL_FRAC (45_accounting.md R220, R222). The lines R222 marks [GK] are the spec's own, from
general knowledge (log 12). -/

namespace Sys2Proof.Machine

/-- TELL's value (45_accounting.md R220). -/
def tellValue (s : State) : Nat := satSub s.totalBits.toNat (ilog s.rng.toNat)

/-- TELL (45_accounting.md R220). -/
def execTell (s : State) : Result :=
  dispatch (encode .tell) s (.ok (complete .ok (w32 (tellValue s)) s))

/-- One refinement of (lg, r): square, take one bit, renormalize [GK] (45_accounting.md R222). -/
def tellRefine (x : Nat × Nat) : Nat × Nat :=
  let r := x.2 * x.2 / 2 ^ 15
  let b := r / 2 ^ 16
  (x.1 * 2 + b, r / 2 ^ b)

/-- lg refined three times from ilog(RNG) and the normalized copy of RNG (45_accounting.md R222). -/
def tellFracLg (rng : Nat) : Nat :=
  (tellRefine (tellRefine (tellRefine (ilog rng, rng / 2 ^ (ilog rng - 16))))).1

/-- TELL_FRAC's value, clamped to 32 bits (45_accounting.md R222). -/
def tellFracValue (s : State) : Nat :=
  min (satSub (8 * s.totalBits.toNat) (tellFracLg s.rng.toNat)) maxU32

/-- TELL_FRAC's pseudocode. R222's shift by lg - 16 has a value for lg ≥ 16 only; lg is 24 to 32 while 10_state.md
R25 holds (log 9). -/
def tellFracBody (s : State) : Except Abort State :=
  if ilog s.rng.toNat < 16 then .error .broken
  else .ok (complete .ok (w32 (tellFracValue s)) s)

/-- TELL_FRAC (45_accounting.md R222). -/
def execTellFrac (s : State) : Result :=
  dispatch (encode .tellFrac) s (tellFracBody s)

end Sys2Proof.Machine
end

