-- ==== Sys2Proof/Machine/Dispatch.lean ====
section
/-! DEFINITION. One arm per command (60_exceptions.md R236: the command named by OP). -/

namespace Sys2Proof.Machine

def exec (i : Instr) (s : State) : Host.Outcome State Fault Refusal :=
  match i with
  | .init => Sys2Proof.Machine.execInit s
  | .decode => Sys2Proof.Machine.execDecode s
  | .decodeBin n => Sys2Proof.Machine.execDecodeBin n s
  | .update => Sys2Proof.Machine.execUpdate s
  | .bitLogp n => Sys2Proof.Machine.execBitLogp n s
  | .icdf8 n => Sys2Proof.Machine.execIcdf8 n s
  | .icdf16 n => Sys2Proof.Machine.execIcdf16 n s
  | .bits n => Sys2Proof.Machine.execBits n s
  | .uint => Sys2Proof.Machine.execUint s
  | .laplace => Sys2Proof.Machine.execLaplace s
  | .tell => Sys2Proof.Machine.execTell s
  | .tellFrac => Sys2Proof.Machine.execTellFrac s

end Sys2Proof.Machine
end

