-- ==== Sys2Proof/Machine/Agents.lean ====
section
/-! DEFINITION. The two agents of 00_scope.md R7 and which one moves: the block's step (10_state.md R38,
60_exceptions.md R236), the host's next access, and the interlock between them (70_reset_and_hazards.md R275). -/

namespace Sys2Proof.Machine

/-- Execute(w): the decoded command, or ILLEGAL_CMD outside the fault state (60_exceptions.md R236, R240, R241). -/
def execWord (w : Word) (s : State) : Result :=
  match decode w with
  | .ok i => exec i s
  | .error _ => .next (if s.fault then s else raiseFault w .illegalCmd 0 s)

/-- The end of the block's step: PENDING and BUSY clear (10_state.md R38), and the command's latency is used up
(log 4). -/
def endCommand (s : State) : State := { s with pending := none, polls := s.polls.tail }

/-- The block's step on the pending word `w`, atomic (10_state.md R38, 20_memory.md R74). -/
def blockStep (w : Word) (s : State) : Result :=
  match execWord w s with
  | .next t => .next (endCommand t)
  | .fault r => .fault r
  | .refused r => .refused r

/-- The host performs its next item, `rest` being what follows it (70_reset_and_hazards.md R280). A bus error ends
the run as the host's own fault (20_memory.md R67, log 5). WAITIDLE stays until BUSY reads 0 (30_encoding.md R98). -/
def hostStep (op : HostOp) (rest : List HostOp) (s : State) : Result :=
  match op with
  | .access a =>
    match busAccess a s with
    | (.data v, t) => .next { t with program := rest, replies := t.replies ++ [v] }
    | (.done, t) => .next { t with program := rest }
    | (.busError, _) => .fault .busError
    | (.outside, _) => .fault .outsideAperture
  | .waitIdle =>
    .next { s with
      program := if s.busy then s.program else rest
      replies := s.replies ++ [s.statusWord] }

/-- One of the pending command's covered STATUS reads is used up. -/
def tickPoll : List Nat → List Nat
  | (n + 1) :: rest => n :: rest
  | 0 :: rest => 0 :: rest
  | [] => []

/-- How many STATUS reads the pending command's latency still covers. -/
def pollsLeft : List Nat → Nat
  | n :: _ => n
  | [] => 0

/-- Whether the host moves while a command is pending: its next item reads STATUS, and the command's latency
covers that read (70_reset_and_hazards.md R275, R278). -/
def hostMovesWhileBusy (op : HostOp) (s : State) : Bool := isStatusRead op && decide (0 < pollsLeft s.polls)

/-- One event of the total order of 20_memory.md R75: the block's step, or the host's next access; an idle block
without a host access stays as it is (70_reset_and_hazards.md R274, log 7). -/
def nextEvent (s : State) : Result :=
  match s.pending with
  | none =>
    match s.program with
    | [] => .next s
    | op :: rest => hostStep op rest s
  | some w =>
    match s.program with
    | [] => blockStep w s
    | op :: rest =>
      if hostMovesWhileBusy op s then hostStep op rest { s with polls := tickPoll s.polls } else blockStep w s

/-- The state with `w` in the command latch and no latency, so that the next event is the block's step on `w`. -/
def State.latchWord (s : State) (w : Word) : State := { s with pending := some w, polls := 0 :: s.polls }

end Sys2Proof.Machine
end

