-- ==== Sys2Proof/Machine/Step.lean ====
section
/-! DEFINITION. One step of the machine, and where its next command word is placed. -/

namespace Sys2Proof.Machine

/-- One event (20_memory.md R75). -/
def step (s : State) : Host.Outcome State Fault Refusal := nextEvent s

/-- `s` with the word `w` of `nbits` bits in the command latch, as a host's CMD write puts it there
(10_state.md R37), its step being the very next event (log 3). -/
def State.withFetchWord (s : State) (nbits w : Nat) : State :=
  s.latchWord (BitVec.ofNat 32 (w % 2 ^ nbits))

end Sys2Proof.Machine
end

