-- ==== Sys2Proof/Machine/Program.lean ====
section
/-! DEFINITION. The host's statements (30_encoding.md R97) and pseudo-instructions (R98), as host programs. -/

namespace Sys2Proof.Machine

/-- `WR reg, imm32` (30_encoding.md R97). -/
def stWR (r : Reg) (v : Word) : HostOp := .access (.write .w32 (regOffset r) v)

/-- `RD reg` (30_encoding.md R97). -/
def stRD (r : Reg) : HostOp := .access (.read .w32 (regOffset r))

/-- The offset of a window's first byte (20_memory.md R60). -/
def windowBase : Window → Nat
  | .buf => 0x10000
  | .tbl => 0x20000

/-- `WRB BUF[i], imm8` and `WRB TBL[j], imm8` (30_encoding.md R97). DESIGN CHOICE: an index at or past the window's
0x10000 bytes, of which the spec says nothing, is added to the base all the same (log 21). -/
def stWRB (w : Window) (i : Nat) (v : Byte) : HostOp := .access (.write .w8 (windowBase w + i) (v.setWidth 32))

/-- `WRH TBL[j], imm16`, j even; refused otherwise (30_encoding.md R97). DESIGN CHOICE for an index past the window, as
`stWRB` (log 21). -/
def stWRH (j : Nat) (v : BitVec 16) : Option HostOp :=
  if j % 2 = 0 then some (.access (.write .w16 (windowBase .tbl + j) (v.setWidth 32))) else none

/-- `WRW BUF[i], imm32` and `WRW TBL[j], imm32`, the index a multiple of 4; refused otherwise (30_encoding.md R97).
DESIGN CHOICE for an index past the window, as `stWRB` (log 21). -/
def stWRW (w : Window) (i : Nat) (v : Word) : Option HostOp :=
  if i % 4 = 0 then some (.access (.write .w32 (windowBase w + i) v)) else none

/-- The CMD write of a command's word (10_state.md R37). -/
def cmdWrite (i : Instr) : HostOp := stWR .cmd (encode i)

/-- `CMD MNEMONIC [n]`: a write of the assembled word to CMD; refused with n above 31 (30_encoding.md R97,
93_implementation_defined.md I3). -/
def stCMD (i : Instr) : Option HostOp := if i.wf then some (cmdWrite i) else none

/-- `CMD MNEMONIC [n]` as text; refused where the assembler refuses (30_encoding.md R97). -/
def stCMDText (mnemonic : String) (n : Option Nat) : Option HostOp := (assemble mnemonic n).map (stWR .cmd)

/-- `DECODE ft` (30_encoding.md R98). -/
def psDecode (ft : Word) : List HostOp := [stWR .arg0 ft, cmdWrite .decode]

/-- `UPDATE fl, fh, ft` (30_encoding.md R98). -/
def psUpdate (fl fh ft : Word) : List HostOp := [stWR .arg0 fl, stWR .arg1 fh, stWR .arg2 ft, cmdWrite .update]

/-- `ICDF8 n, base, len`; refused where `CMD ICDF8 n` is (30_encoding.md R97, R98). -/
def psIcdf8 (n : Nat) (base len : Word) : Option (List HostOp) :=
  (stCMD (.icdf8 n)).map fun c => [stWR .arg0 base, stWR .arg1 len, c]

/-- `ICDF16 n, base, len`; refused where `CMD ICDF16 n` is (30_encoding.md R97, R98). -/
def psIcdf16 (n : Nat) (base len : Word) : Option (List HostOp) :=
  (stCMD (.icdf16 n)).map fun c => [stWR .arg0 base, stWR .arg1 len, c]

/-- `UINT ft` (30_encoding.md R98). -/
def psUint (ft : Word) : List HostOp := [stWR .arg0 ft, cmdWrite .uint]

/-- `LAPLACE fs, decay` (30_encoding.md R98). -/
def psLaplace (fs decay : Word) : List HostOp := [stWR .arg0 fs, stWR .arg1 decay, cmdWrite .laplace]

/-- `DECSYM ft`, with the `fl` and `fh` that the host picks (30_encoding.md R98, log 16). -/
def psDecsym (ft fl fh : Word) : List HostOp := psDecode ft ++ [stRD .result] ++ psUpdate fl fh ft

/-- The byte writes of LOADPKT from index `i` on; past index 0xFFFF they run on as `stWRB` does (logs 21, 22). -/
def loadBytes (i : Nat) : List Byte → List HostOp
  | [] => []
  | b :: bs => stWRB .buf i b :: loadBytes (i + 1) bs

/-- `LOADPKT b0, ..., b(m-1)` (30_encoding.md R98). DESIGN CHOICE: more than 65536 bytes, of which the spec says
nothing, expand in the same way: the byte writes run on into the TBL window, and LEN keeps the low 17 bits of m
(log 22). -/
def psLoadpkt (bs : List Byte) : List HostOp := loadBytes 0 bs ++ [stWR .len (w32 bs.length), cmdWrite .init]

/-- `WAITIDLE` (30_encoding.md R98). -/
def psWaitidle : List HostOp := [.waitIdle]

end Sys2Proof.Machine
end

