-- ==== Sys2Proof/Safety.lean ====
section
/-! DEFINITION. What counts as a sound state and a safe stop, in the terms the statements use: the invariants of
10_state.md R25 and R40, the canonical memories, the parts of State that a frame leaves alone. -/

namespace Sys2Proof.Machine

/-- 10_state.md R25: what the decoder core satisfies while READY = 1. -/
structure CoreInv (s : State) : Prop where
  rng_low : 2 ^ 23 < s.rng.toNat
  val_lt : s.val.toNat < s.rng.toNat
  avail_le : s.avail.toNat ≤ 7
  window_lt : s.window.toNat < 2 ^ s.avail.toNat
  total_ge : 33 ≤ s.totalBits.toNat
  pos_ge : 4 ≤ s.pos.toNat

/-- The packet of a constructed decoder fits BUF (40_init_normalize.md R120). -/
structure PacketInv (s : State) : Prop where
  two_le : 2 ≤ s.len.toNat
  le_max : s.len.toNat ≤ s.params.bufMax

/-- 10_state.md R40 and R41, 60_exceptions.md R231, R235, R254: how the fields of STATUS and the fault registers
hang together. -/
structure StatusInv (s : State) : Prop where
  fault_ready : s.fault = true → s.ready = false
  fault_fcode : s.fault = true → s.fcode ≠ 0
  fault_ecode : s.fault = true → s.ecode = 0
  clear_fcode : s.fault = false → s.fcode = 0
  clear_fcmd : s.fault = false → s.fcmd = 0
  clear_finfo : s.fault = false → s.finfo = 0
  err_seen : s.ecode ≠ 0 → s.errSeen = true
  ecode_le : s.ecode.toNat ≤ 4
  fcode_le : s.fcode.toNat ≤ 7

/-- BUF and TBL are in canonical form and within their capacities (20_memory.md R61, R63). -/
structure MemoryInv (s : State) : Prop where
  buf_wf : s.buf.wf = true
  tbl_wf : s.tbl.wf = true
  buf_below : s.buf.below s.params.bufMax = true
  tbl_below : s.tbl.below s.params.tblMax = true

/-- The invariant of every reachable state. -/
structure State.Inv (s : State) : Prop where
  params : s.params.legal = true
  memory : MemoryInv s
  status : StatusInv s
  core : s.ready = true → CoreInv s
  packet : s.ready = true → PacketInv s

/-- A command executes its own pseudocode: a decoder exists and the block is not in the fault state
(60_exceptions.md R236). -/
structure Accepting (s : State) : Prop where
  ready : s.ready = true
  no_fault : s.fault = false

/-- The eight decoder-core registers are as before (10_state.md R20). -/
structure SameCore (s t : State) : Prop where
  rng : t.rng = s.rng
  val : t.val = s.val
  pos : t.pos = s.pos
  endPos : t.endPos = s.endPos
  totalBits : t.totalBits = s.totalBits
  window : t.window = s.window
  avail : t.avail = s.avail
  rem : t.rem = s.rem

/-- Every byte of BUF and TBL reads as before. -/
def SameMemory (s t : State) : Prop :=
  ∀ i, t.buf.read i = s.buf.read i ∧ t.tbl.read i = s.tbl.read i

/-- The operand registers and LEN are as before (10_state.md R22, R24). -/
structure SameOperands (s t : State) : Prop where
  arg0 : t.arg0 = s.arg0
  arg1 : t.arg1 = s.arg1
  arg2 : t.arg2 = s.arg2
  len : t.len = s.len

/-- The fault registers, FAULT and READY are as before (10_state.md R36, R39, R40). -/
structure SameFaultState (s t : State) : Prop where
  ready : t.ready = s.ready
  fault : t.fault = s.fault
  fcode : t.fcode = s.fcode
  fcmd : t.fcmd = s.fcmd
  finfo : t.finfo = s.finfo

/-- What no command writes: PENDING (cleared by the block's step around it, 10_state.md R38), the parameters, and
the host's side. -/
structure SameSurroundings (s t : State) : Prop where
  pending : t.pending = s.pending
  params : t.params = s.params
  program : t.program = s.program
  replies : t.replies = s.replies
  polls : t.polls = s.polls

/-- The block moves next, on the pending word `w`: no STATUS read of the host's comes first (10_state.md R38,
70_reset_and_hazards.md R275, R278). -/
structure BlockTurn (s : State) (w : Word) : Prop where
  pending : s.pending = some w
  no_poll : ∀ op rest, s.program = op :: rest → isStatusRead op = true → pollsLeft s.polls = 0

/-- The host moves next: nothing is pending (70_reset_and_hazards.md R275). -/
structure HostTurn (s : State) (op : HostOp) (rest : List HostOp) : Prop where
  idle : s.pending = none
  program : s.program = op :: rest

/-- 30_encoding.md R94 in the word's own bit fields: OP is one of R93's, RSV is 0, and N is 0 when OP's form is C0. -/
def LegalFields (w : Word) : Prop :=
  1 ≤ (w.extractLsb' 0 8).toNat ∧ (w.extractLsb' 0 8).toNat ≤ 0x0C ∧ w.extractLsb' 13 19 = 0 ∧
    ((w.extractLsb' 0 8).toNat ∈ [0x01, 0x02, 0x04, 0x09, 0x0A, 0x0B, 0x0C] → w.extractLsb' 8 5 = 0)

end Sys2Proof.Machine
end

