-- ==== Sys2Proof/Certificates/Slice0/Obligations.lean ====
section
/-! DEFINITION. The statements for the provers. Registers are written with their own names; quantities are natural
numbers (`toNat`), and `BitVec.ofNat` narrows them back. -/

open Sys2Proof Sys2Proof.Machine

/-! ### Encoding (30_encoding.md) -/

/-- Sample words of every command, and one word of each kind of illegal word, decode as 30_encoding.md R93 and R95
say. -/
def Obligations.SampleWordsDecode : Prop :=
  decode 0x00000001 = .ok .init ∧ decode 0x00000002 = .ok .decode ∧
  decode 0x00000403 = .ok (.decodeBin 4) ∧ decode 0x00000004 = .ok .update ∧
  decode 0x00000105 = .ok (.bitLogp 1) ∧ decode 0x00000806 = .ok (.icdf8 8) ∧
  decode 0x00001007 = .ok (.icdf16 16) ∧ decode 0x00001908 = .ok (.bits 25) ∧
  decode 0x00000009 = .ok .uint ∧ decode 0x0000000A = .ok .laplace ∧
  decode 0x0000000B = .ok .tell ∧ decode 0x0000000C = .ok .tellFrac ∧
  decode 0x00000000 = .error .reservedOp ∧ decode 0x0000000D = .error .reservedOp ∧
  decode 0x00000101 = .error .immediateOnC0 ∧ decode 0x00002008 = .error .reservedBits ∧
  decode 0x80000005 = .error .reservedBits

/-- Decoding an encoded well-formed command gives it back, for every command and every N
(30_encoding.md R91, R93, R94). -/
def Obligations.DecodeInvertsEncode : Prop :=
  ∀ i : Instr, i.wf = true → decode (encode i) = .ok i

/-- Every word has at most one meaning: a word that decodes is the encoding of what it decodes to, which is
well-formed (30_encoding.md R93, R96). -/
def Obligations.EncodeInvertsDecode : Prop :=
  ∀ (w : Word) (i : Instr), decode w = .ok i → i.wf = true ∧ encode i = w

/-- 30_encoding.md R94's legality: OP is 0x01 to 0x0C, RSV is 0, and N is 0 unless OP is of form CN. -/
def Obligations.DecoderAcceptsExactlyLegalWords : Prop :=
  ∀ w : Word, (∃ i, decode w = .ok i) ↔ LegalFields w

/-- The assembler takes exactly `MNEMONIC` of form C0 and `MNEMONIC n` of form CN with n up to 31, and encodes them
as `OP` and `(n << 8) | OP`; it refuses a missing n, an n that is too large or does not belong, and every name outside
the twelve (30_encoding.md R97, 93_implementation_defined.md I3). -/
def Obligations.AssemblerEncodesOrRefuses : Prop :=
  (∀ p ∈ [("INIT", 0x01), ("DECODE", 0x02), ("UPDATE", 0x04), ("UINT", 0x09), ("LAPLACE", 0x0A), ("TELL", 0x0B),
      ("TELL_FRAC", 0x0C)],
    assemble p.1 none = some (BitVec.ofNat 32 p.2) ∧ ∀ n, assemble p.1 (some n) = none) ∧
  (∀ p ∈ [("DECODE_BIN", 0x03), ("BIT_LOGP", 0x05), ("ICDF8", 0x06), ("ICDF16", 0x07), ("BITS", 0x08)],
    assemble p.1 none = none ∧
    ∀ n, assemble p.1 (some n) = if n ≤ 31 then some (BitVec.ofNat 32 n <<< 8 ||| BitVec.ofNat 32 p.2) else none) ∧
  (∀ m, m ∉ ["INIT", "DECODE", "DECODE_BIN", "UPDATE", "BIT_LOGP", "ICDF8", "ICDF16", "BITS", "UINT", "LAPLACE",
      "TELL", "TELL_FRAC"] → ∀ n, assemble m n = none)

/-! ### The block's step and its dispatch (10_state.md R38, 60_exceptions.md R236 to R243) -/

/-- A step runs the decoded command: when the block moves on a word that decodes to `i`, the step is `exec i`, and
PENDING clears after it (10_state.md R38, 60_exceptions.md R236). -/
def Obligations.StepRunsDecodedCommand : Prop :=
  ∀ (s : State) (w : Word) (i : Instr), BlockTurn s w → decode w = .ok i →
    step s = match exec i s with
      | .next t => .next { t with pending := none, polls := t.polls.tail }
      | .fault r => .fault r
      | .refused r => .refused r

/-- Outside the fault state a word that is not legal (30_encoding.md R94) raises ILLEGAL_CMD with FINFO 0, whatever
READY is; PENDING clears, and no other register changes (60_exceptions.md R241, R237, 10_state.md R38). That the head of
`polls` is used up is the model's choice (log 4). -/
def Obligations.IllegalWordFaults : Prop :=
  ∀ (s : State) (w : Word), BlockTurn s w → ¬ LegalFields w → s.fault = false →
    step s = .next { s with
      fault := true, ready := false, fcode := 1, fcmd := w, finfo := 0, ecode := 0,
      pending := none, polls := s.polls.tail }

/-- In the fault state every word but INIT, legal or not, changes no register: PENDING clears
(60_exceptions.md R240, 10_state.md R38). That the head of `polls` is used up is the model's choice (log 4). -/
def Obligations.FaultStateIgnoresWords : Prop :=
  ∀ (s : State) (w : Word), BlockTurn s w → s.fault = true → w ≠ 0x00000001 →
    step s = .next { s with pending := none, polls := s.polls.tail }

/-- Without a decoder every legal word but INIT raises NOT_READY with FINFO 0; PENDING clears, no other register changes
(60_exceptions.md R239, R237, 10_state.md R38). That the head of `polls` is used up is the model's choice (log 4). -/
def Obligations.CommandWithoutDecoderFaults : Prop :=
  ∀ (s : State) (w : Word), BlockTurn s w → LegalFields w → w ≠ 0x00000001 → s.fault = false → s.ready = false →
    step s = .next { s with
      fault := true, ready := false, fcode := 2, fcmd := w, finfo := 0, ecode := 0,
      pending := none, polls := s.polls.tail }

/-- Fault entry by any command but INIT: FAULT, READY, FCODE, FCMD, FINFO and ECODE change, and nothing else: the
decoder core is exactly as before the command (60_exceptions.md R237). -/
def Obligations.FaultEntryIsPrecise : Prop :=
  ∀ (i : Instr) (s t : State), i ≠ .init → s.fault = false → exec i s = .next t → t.fault = true →
    t = { s with
      fault := true, ready := false, fcode := t.fcode, fcmd := encode i, finfo := t.finfo, ecode := 0 } ∧
    1 ≤ t.fcode.toNat ∧ t.fcode.toNat ≤ 6

/-- A command but INIT that completes keeps READY, FAULT and the fault registers, its ECODE is 0, 2, 3 or 4, and
ERR_SEEN is set by a nonzero ECODE and otherwise kept (60_exceptions.md R231 to R233). -/
def Obligations.CompletionKeepsDecoder : Prop :=
  ∀ (i : Instr) (s t : State), i ≠ .init → Accepting s → exec i s = .next t → t.fault = false →
    SameFaultState s t ∧ t.ecode ∈ [0, 2, 3, 4] ∧ t.errSeen = (s.errSeen || t.ecode != 0)

/-- The fault state is left only by INIT or by a soft reset (60_exceptions.md R234, R238). -/
def Obligations.FaultStateLeftOnlyByInitOrReset : Prop :=
  ∀ s t : State, s.fault = true → step s = .next t → t.fault = false →
    s.pending = some 0x00000001 ∨
    (s.pending = none ∧ ∃ v rest, v.getLsbD 0 = true ∧
      s.program = .access (.write .w32 0x004 v) :: rest)

/-! ### INIT and Normalize (40_init_normalize.md) -/

/-- INIT over a packet that fits completes, in any state: its Normalize runs exactly 3 iterations, and with `b k` the
packet's byte k, 0 past its end, VAL is the complement of the packet's first 31 bits (40_init_normalize.md R125). -/
def Obligations.InitConstructsDecoder : Prop :=
  ∀ s : State, 2 ≤ s.len.toNat → s.len.toNat ≤ s.params.bufMax →
    let b := fun k => if k < s.len.toNat then (s.buf.read k).toNat else 0
    let B := b 0 * 2 ^ 24 + b 1 * 2 ^ 16 + b 2 * 2 ^ 8 + b 3
    exec .init s = .next { s with
      fault := false, fcode := 0, fcmd := 0, finfo := 0, errSeen := false, ready := true, result := 0, ecode := 0,
      rng := 0x80000000, val := BitVec.ofNat 32 (0x7FFFFFFF - B / 2), pos := 4, totalBits := 33,
      rem := BitVec.ofNat 1 (b 3), endPos := 0, window := 0, avail := 0 } ∧
    (∀ j ≤ 3, (normalizeOnce^[j] (initSeed (b 0) s)).rng.toNat = 2 ^ (7 + 8 * j)) ∧
    normalizeRange (initSeed (b 0) s) = normalizeOnce^[3] (initSeed (b 0) s)

/-- INIT's errors: LEN above BUF_MAX raises LEN_RANGE, checked first; LEN below 2 completes with BUFFER_TOO_SMALL and
no decoder. ERR_SEEN, and the old fault, are cleared before either, and no decoder-core register changes
(40_init_normalize.md R120, 60_exceptions.md R243). -/
def Obligations.InitRejectsBadLengths : Prop :=
  ∀ s : State,
    (s.params.bufMax < s.len.toNat → exec .init s = .next { s with
      fault := true, ready := false, fcode := 7, fcmd := 0x00000001, finfo := s.len.setWidth 32,
      ecode := 0, errSeen := false }) ∧
    (s.len.toNat ≤ s.params.bufMax → s.len.toNat < 2 → exec .init s = .next { s with
      fault := false, ready := false, fcode := 0, fcmd := 0, finfo := 0,
      result := 0, ecode := 1, errSeen := true })

/-- Normalize entered with VAL < RNG is its first k iterations, k at most 3 and least with RNG above 2^23. Each keeps
VAL < RNG, is exact, takes one forward byte and adds 8 to TOTAL_BITS; RNG stays at most 2^31 if any ran
(40_init_normalize.md R123, R124). -/
def Obligations.NormalizeIsExactAndBounded : Prop :=
  ∀ s : State, s.val.toNat < s.rng.toNat →
    ∃ k ≤ 3, normalizeRange s = normalizeOnce^[k] s ∧
      (∀ j < k, ∀ t u : State, t = normalizeOnce^[j] s → u = normalizeOnce^[j + 1] s →
        t.rng.toNat ≤ 2 ^ 23 ∧ u.rng.toNat = t.rng.toNat * 256 ∧ u.rng.toNat ≤ 2 ^ 31 ∧
        u.val.toNat < u.rng.toNat ∧
        (∀ b, b = (if t.pos.toNat < s.len.toNat then (s.buf.read t.pos.toNat).toNat else 0) →
          u.val.toNat = t.val.toNat * 256 + (255 - (t.rem.toNat * 128 + b / 2)) ∧ u.rem.toNat = b % 2) ∧
        u.pos.toNat = min (t.pos.toNat + 1) (2 ^ 32 - 1) ∧
        u.totalBits.toNat = min (t.totalBits.toNat + 8) (2 ^ 32 - 1)) ∧
      2 ^ 23 < (normalizeRange s).rng.toNat ∧
      normalizeRange s = { s with
        rng := (normalizeRange s).rng, val := (normalizeRange s).val, pos := (normalizeRange s).pos,
        rem := (normalizeRange s).rem, totalBits := (normalizeRange s).totalBits }

/-! ### DECODE, DECODE_BIN, UPDATE (41_symbol_decode.md) -/

/-- DECODE: DIV_ZERO with FINFO = ft when ft = 0 or RNG / ft = 0; else it completes with the offset of the
document's formula, which is below ft, and changes no decoder-core register (41_symbol_decode.md R141). -/
def Obligations.DecodeReportsOffset : Prop :=
  ∀ s : State, Accepting s →
    let ft := s.arg0.toNat
    let fs := ft - min (s.val.toNat / (s.rng.toNat / ft) + 1) ft
    (ft = 0 ∨ s.rng.toNat / ft = 0 → exec .decode s = .next { s with
      fault := true, ready := false, fcode := 3, fcmd := 0x00000002, finfo := s.arg0, ecode := 0 }) ∧
    (ft ≠ 0 → s.rng.toNat / ft ≠ 0 →
      exec .decode s = .next { s with result := BitVec.ofNat 32 fs, ecode := 0 } ∧ fs < ft)

/-- DECODE_BIN is DECODE over 2^N, for every N of its encoding; while 10_state.md R25 holds, N up to 23 never faults
(41_symbol_decode.md R142). -/
def Obligations.DecodeBinReportsOffset : Prop :=
  ∀ (s : State) (n : Nat), Accepting s → n < 32 →
    let fs := 2 ^ n - min (s.val.toNat / (s.rng.toNat / 2 ^ n) + 1) (2 ^ n)
    (s.rng.toNat < 2 ^ n → exec (.decodeBin n) s = .next { s with
      fault := true, ready := false, fcode := 3, fcmd := BitVec.ofNat 32 (3 + n * 256),
      finfo := BitVec.ofNat 32 (2 ^ n), ecode := 0 }) ∧
    (2 ^ n ≤ s.rng.toNat →
      exec (.decodeBin n) s = .next { s with result := BitVec.ofNat 32 fs, ecode := 0 } ∧ fs < 2 ^ n) ∧
    (CoreInv s → n ≤ 23 → 2 ^ n ≤ s.rng.toNat)

/-- UPDATE: DIV_ZERO when ft = 0 or RNG / ft = 0; UPDATE_CONTRACT with FINFO = the new range when the new value is
not below it; else it completes, normalized, with the document's saturating formulas (41_symbol_decode.md R144). -/
def Obligations.UpdateNarrowsInterval : Prop :=
  ∀ s : State, Accepting s →
    let fl := s.arg0.toNat
    let fh := s.arg1.toNat
    let ft := s.arg2.toNat
    let q := s.rng.toNat / ft
    let v := s.val.toNat - min (q * (ft - fh)) (2 ^ 32 - 1)
    let r := if 0 < fl then min (q * (fh - fl)) (2 ^ 32 - 1) else s.rng.toNat - min (q * (ft - fh)) (2 ^ 32 - 1)
    (ft = 0 ∨ q = 0 → exec .update s = .next { s with
      fault := true, ready := false, fcode := 3, fcmd := 0x00000004, finfo := s.arg2, ecode := 0 }) ∧
    (ft ≠ 0 → q ≠ 0 → r ≤ v → exec .update s = .next { s with
      fault := true, ready := false, fcode := 4, fcmd := 0x00000004, finfo := BitVec.ofNat 32 r, ecode := 0 }) ∧
    (ft ≠ 0 → q ≠ 0 → v < r → exec .update s = .next
      { normalizeRange { s with val := BitVec.ofNat 32 v, rng := BitVec.ofNat 32 r } with result := 0, ecode := 0 })

/-- The caller contract: an interval of [0, ft) that holds DECODE's offset is taken without a fault and without
saturation, and 10_state.md R25 holds again (41_symbol_decode.md R145). -/
def Obligations.UpdateInContractIsExact : Prop :=
  ∀ s : State, Accepting s → CoreInv s →
    let fl := s.arg0.toNat
    let fh := s.arg1.toNat
    let ft := s.arg2.toNat
    let q := s.rng.toNat / ft
    let fs := ft - min (s.val.toNat / q + 1) ft
    fl < fh → fh ≤ ft → ft ≤ s.rng.toNat → fl ≤ fs → fs < fh →
    ∃ t : State, exec .update s = .next t ∧
      t = { normalizeRange { s with
        val := BitVec.ofNat 32 (s.val.toNat - q * (ft - fh))
        rng := BitVec.ofNat 32 (if 0 < fl then q * (fh - fl) else s.rng.toNat - q * (ft - fh)) } with
          result := 0, ecode := 0 } ∧
      q * (ft - fh) ≤ s.val.toNat ∧ q * (fh - fl) < 2 ^ 32 ∧ CoreInv t

/-- Every row of R146's table of operands outside the contract: DIV_ZERO when ft = 0 or ft > RNG; fh > ft with fl = 0
changes neither VAL nor RNG; fh > ft with fl > 0 sets RNG to the clamped product if VAL is below it, and raises
UPDATE_CONTRACT otherwise; fl ≥ fh with fl > 0 raises UPDATE_CONTRACT with FINFO 0; a DECODE offset outside [fl, fh)
completes, unclamped, if the new value is below the new range, and raises UPDATE_CONTRACT otherwise
(41_symbol_decode.md R146, which the spec derives from R144). -/
def Obligations.UpdateOutOfContractSaturates : Prop :=
  ∀ s : State, Accepting s → CoreInv s →
    let fl := s.arg0.toNat
    let fh := s.arg1.toNat
    let ft := s.arg2.toNat
    let q := s.rng.toNat / ft
    let fs := ft - min (s.val.toNat / q + 1) ft
    let p := min (q * (fh - fl)) (2 ^ 32 - 1)
    let v := s.val.toNat - q * (ft - fh)
    let r := if 0 < fl then q * (fh - fl) else s.rng.toNat - q * (ft - fh)
    let contract := fun info : Nat => { s with
      fault := true, ready := false, fcode := 4, fcmd := 0x00000004, finfo := BitVec.ofNat 32 info, ecode := 0 }
    (ft = 0 ∨ s.rng.toNat < ft → exec .update s = .next { s with
      fault := true, ready := false, fcode := 3, fcmd := 0x00000004, finfo := s.arg2, ecode := 0 }) ∧
    (ft ≠ 0 → ft ≤ s.rng.toNat →
      (ft < fh → fl = 0 → exec .update s = .next { s with result := 0, ecode := 0 }) ∧
      (ft < fh → 0 < fl → s.val.toNat < p → exec .update s = .next
        { normalizeRange { s with rng := BitVec.ofNat 32 p } with result := 0, ecode := 0 }) ∧
      (ft < fh → 0 < fl → p ≤ s.val.toNat → exec .update s = .next (contract p)) ∧
      (fh ≤ fl → 0 < fl → exec .update s = .next (contract 0)) ∧
      (fl ≤ fh → fh ≤ ft → ¬ (fl ≤ fs ∧ fs < fh) →
        (v < r → exec .update s = .next
          { normalizeRange { s with val := BitVec.ofNat 32 v, rng := BitVec.ofNat 32 r } with
            result := 0, ecode := 0 }) ∧
        (r ≤ v → exec .update s = .next (contract r))))

/-! ### BIT_LOGP, ICDF8, ICDF16 (42_table_bit.md) -/

/-- The closed form of BIT_LOGP: with q = RNG >> logp it faults when q = 0; else it returns 1 exactly when VAL < q, and
leaves q and VAL, or RNG - q and VAL - q, normalized (42_table_bit.md R161). -/
def Obligations.BitLogpClosedForm : Prop :=
  ∀ (s : State) (n : Nat), Accepting s → CoreInv s → n < 32 →
    let q := s.rng.toNat / 2 ^ n
    (q = 0 → exec (.bitLogp n) s = .next { s with
      fault := true, ready := false, fcode := 3, fcmd := BitVec.ofNat 32 (5 + n * 256),
      finfo := BitVec.ofNat 32 (2 ^ n), ecode := 0 }) ∧
    (q ≠ 0 → s.val.toNat < q → exec (.bitLogp n) s = .next
      { normalizeRange { s with rng := BitVec.ofNat 32 q } with result := 1, ecode := 0 }) ∧
    (q ≠ 0 → q ≤ s.val.toNat → exec (.bitLogp n) s = .next
      { normalizeRange { s with
          val := BitVec.ofNat 32 (s.val.toNat - q), rng := BitVec.ofNat 32 (s.rng.toNat - q) } with
        result := 0, ecode := 0 })

/-- ICDF8 completes with the first entry that stops the search: with p j the clamped product of entry j,
VAL < p j for every j < k and p k ≤ VAL, it returns k, and leaves VAL - p k and t - p k, normalized, t being the
product before it, or RNG (42_table_bit.md R162, R163, R165). -/
def Obligations.Icdf8FindsFirstStop : Prop :=
  ∀ (s : State) (n k : Nat), Accepting s → s.val.toNat < s.rng.toNat → n < 32 →
    let base := s.arg0.toNat
    let len := s.arg1.toNat
    let p := fun j => min (s.rng.toNat / 2 ^ n * (s.tbl.read (base + j)).toNat) (2 ^ 32 - 1)
    let t := if k = 0 then s.rng.toNat else p (k - 1)
    base + len ≤ s.params.tblMax → k < len → (∀ j < k, s.val.toNat < p j) → p k ≤ s.val.toNat →
    exec (.icdf8 n) s = .next
      { normalizeRange { s with
          val := BitVec.ofNat 32 (s.val.toNat - p k), rng := BitVec.ofNat 32 (t - p k) } with
        result := BitVec.ofNat 32 k, ecode := 0 } ∧
    s.val.toNat < t

/-- ICDF16 is the same search over little-endian 16-bit entries, base need not be even (42_table_bit.md R164,
20_memory.md R70). -/
def Obligations.Icdf16FindsFirstStop : Prop :=
  ∀ (s : State) (n k : Nat), Accepting s → s.val.toNat < s.rng.toNat → n < 32 →
    let base := s.arg0.toNat
    let len := s.arg1.toNat
    let e := fun j => (s.tbl.read (base + 2 * j)).toNat + (s.tbl.read (base + 2 * j + 1)).toNat * 256
    let p := fun j => min (s.rng.toNat / 2 ^ n * e j) (2 ^ 32 - 1)
    let t := if k = 0 then s.rng.toNat else p (k - 1)
    base + 2 * len ≤ s.params.tblMax → k < len → (∀ j < k, s.val.toNat < p j) → p k ≤ s.val.toNat →
    exec (.icdf16 n) s = .next
      { normalizeRange { s with
          val := BitVec.ofNat 32 (s.val.toNat - p k), rng := BitVec.ofNat 32 (t - p k) } with
        result := BitVec.ofNat 32 k, ecode := 0 } ∧
    s.val.toNat < t

/-- ICDF8 and ICDF16 fault: TABLE_BOUNDS (FINFO = base) when len = 0 or the table leaves TBL, checked before the search
and without a 32-bit wrap; ICDF_OVERRUN (FINFO = len) when no entry stops it (42_table_bit.md R162 to R164). -/
def Obligations.IcdfFaultsOnBadTables : Prop :=
  ∀ (s : State) (n : Nat), Accepting s → n < 32 →
    let base := s.arg0.toNat
    let len := s.arg1.toNat
    let e8 := fun j => (s.tbl.read (base + j)).toNat
    let e16 := fun j => (s.tbl.read (base + 2 * j)).toNat + (s.tbl.read (base + 2 * j + 1)).toNat * 256
    let p := fun x => min (s.rng.toNat / 2 ^ n * x) (2 ^ 32 - 1)
    (len = 0 ∨ s.params.tblMax < base + len → exec (.icdf8 n) s = .next { s with
      fault := true, ready := false, fcode := 5, fcmd := BitVec.ofNat 32 (6 + n * 256), finfo := s.arg0,
      ecode := 0 }) ∧
    (len = 0 ∨ s.params.tblMax < base + 2 * len → exec (.icdf16 n) s = .next { s with
      fault := true, ready := false, fcode := 5, fcmd := BitVec.ofNat 32 (7 + n * 256), finfo := s.arg0,
      ecode := 0 }) ∧
    (len ≠ 0 → base + len ≤ s.params.tblMax → (∀ j < len, s.val.toNat < p (e8 j)) →
      exec (.icdf8 n) s = .next { s with
        fault := true, ready := false, fcode := 6, fcmd := BitVec.ofNat 32 (6 + n * 256), finfo := s.arg1,
        ecode := 0 }) ∧
    (len ≠ 0 → base + 2 * len ≤ s.params.tblMax → (∀ j < len, s.val.toNat < p (e16 j)) →
      exec (.icdf16 n) s = .next { s with
        fault := true, ready := false, fcode := 6, fcmd := BitVec.ofNat 32 (7 + n * 256), finfo := s.arg1,
        ecode := 0 })

/-- Every ICDF8 or ICDF16 that completes returns an index below the table length (42_table_bit.md R166). -/
def Obligations.IcdfIndexBelowTableLength : Prop :=
  ∀ (s t : State) (n : Nat) (i : Instr), i = .icdf8 n ∨ i = .icdf16 n → Accepting s →
    exec i s = .next t → t.fault = false → t.result.toNat < s.arg1.toNat

/-! ### BITS, UINT (43_raw_bits.md) -/

/-- BITS n, 1 to 25: it fetches the f tail bytes that the window lacks, lays them above the window's AVAIL bits, a
byte fetched earlier below a later one, 0 past the packet's start, returns the low n bits and keeps the rest
(43_raw_bits.md R181, R182). -/
def Obligations.BitsTakesLowBits : Prop :=
  ∀ (s : State) (n : Nat), Accepting s → CoreInv s → 1 ≤ n → n ≤ 25 →
    let tail := fun k => if k < s.len.toNat then (s.buf.read (s.len.toNat - 1 - k)).toNat else 0
    let f := (n - s.avail.toNat + 7) / 8
    let full := s.window.toNat + 2 ^ s.avail.toNat *
      ∑ j ∈ Finset.range f, tail (s.endPos.toNat + j) * 256 ^ j
    exec (.bits n) s = .next { s with
      result := BitVec.ofNat 32 (full % 2 ^ n), ecode := 0,
      window := BitVec.ofNat 32 (full / 2 ^ n), avail := BitVec.ofNat 6 (s.avail.toNat + 8 * f - n),
      endPos := BitVec.ofNat 32 (min (s.endPos.toNat + f) (2 ^ 32 - 1)),
      totalBits := BitVec.ofNat 32 (min (s.totalBits.toNat + n) (2 ^ 32 - 1)) }

/-- BITS 0 returns 0 and changes nothing else; BITS 26 to 31 complete with TOO_MANY_BITS, RESULT 0, and change no
decoder-core register (43_raw_bits.md R180). -/
def Obligations.BitsZeroAndTooMany : Prop :=
  ∀ (s : State) (n : Nat), Accepting s →
    (n = 0 → exec (.bits n) s = .next { s with result := 0, ecode := 0 }) ∧
    (26 ≤ n → n ≤ 31 → exec (.bits n) s = .next { s with result := 0, ecode := 2, errSeen := true })

/-- UINT's direct path, ft 1 to 256: it completes with DECODE's offset, below ft, and the exact interval of that one
symbol, normalized (43_raw_bits.md R184, R185). -/
def Obligations.UintDirectPath : Prop :=
  ∀ s : State, Accepting s → CoreInv s →
    let ft := s.arg0.toNat
    let q := s.rng.toNat / ft
    let fs := ft - min (s.val.toNat / q + 1) ft
    1 ≤ ft → ft ≤ 256 →
    exec .uint s = .next
      { normalizeRange { s with
          val := BitVec.ofNat 32 (s.val.toNat - q * (ft - (fs + 1)))
          rng := BitVec.ofNat 32 (if 0 < fs then q else s.rng.toNat - q * (ft - 1)) } with
        result := BitVec.ofNat 32 fs, ecode := 0 } ∧
    fs < ft

/-- UINT's split path, ft above 256, with ftb the bit-length of ft - 1: the high part is a symbol of fth, 129 to 256,
the low part ftb - 8 raw bits read after it; the value t completes OK, or with CORRUPT_FRAME exactly when t ≥ ft, and
then every change stands (43_raw_bits.md R184, R185). -/
def Obligations.UintSplitPath : Prop :=
  ∀ (s : State) (ftb : Nat), Accepting s → CoreInv s →
    let ft := s.arg0.toNat
    let sh := ftb - 8
    let fth := (ft - 1) / 2 ^ sh + 1
    let q := s.rng.toNat / fth
    let th := fth - min (s.val.toNat / q + 1) fth
    let s1 := normalizeRange { s with
      val := BitVec.ofNat 32 (s.val.toNat - q * (fth - (th + 1)))
      rng := BitVec.ofNat 32 (if 0 < th then q else s.rng.toNat - q * (fth - 1)) }
    let tl := (rawBits sh s1).1
    let t := th * 2 ^ sh + tl
    256 < ft → 2 ^ (ftb - 1) ≤ ft - 1 → ft - 1 < 2 ^ ftb →
    exec .uint s = .next { (rawBits sh s1).2 with
      result := BitVec.ofNat 32 t
      ecode := if ft ≤ t then 4 else 0
      errSeen := s.errSeen || decide (ft ≤ t) } ∧
    129 ≤ fth ∧ fth ≤ 256 ∧ th < fth ∧ tl < 2 ^ sh ∧ t < 2 ^ 32 ∧
    (ft ≤ t ↔ th = fth - 1 ∧ (ft - 1) % 2 ^ sh < tl)

/-- UINT of 0 completes with INVALID_ARGUMENT, RESULT 0, and changes no decoder-core register; UINT of 1 returns 0 and
changes nothing else (43_raw_bits.md R184, R185). -/
def Obligations.UintOfZeroAndOne : Prop :=
  ∀ s : State, Accepting s →
    (s.arg0 = 0 → exec .uint s = .next { s with result := 0, ecode := 3, errSeen := true }) ∧
    (CoreInv s → s.arg0 = 1 → exec .uint s = .next { s with result := 0, ecode := 0 })

/-! ### LAPLACE (44_laplace.md) -/

/-- LAPLACE with fm below fs: the value is 0 and the interval [0, min(fs, 32768)) is taken (44_laplace.md R201). -/
def Obligations.LaplaceDecodesZero : Prop :=
  ∀ s : State, Accepting s → CoreInv s →
    let fs := s.arg0.toNat
    let q := s.rng.toNat / 32768
    let fm := 32768 - min (s.val.toNat / q + 1) 32768
    fm < fs →
    exec .laplace s = .next
      { normalizeRange { s with
          val := BitVec.ofNat 32 (s.val.toNat - q * (32768 - fs))
          rng := BitVec.ofNat 32 (s.rng.toNat - q * (32768 - fs)) } with
        result := 0, ecode := 0 } ∧
    (32768 ≤ fs → exec .laplace s = .next { s with result := 0, ecode := 0 })

/-- LAPLACE with fm at or above fs: R201's loop ends after k iterations, at most 8192, each entered with its test
true; then the interpolation when the step has collapsed, the sign, and the interval of that value, normalized
(44_laplace.md R201; its lines marked [GK] are the spec's own choice, log 12). A state of the loop is
(fl, fsc, val). -/
def Obligations.LaplaceDecodesNonzero : Prop :=
  ∀ s : State, Accepting s → CoreInv s →
    let fs := s.arg0.toNat
    let decay := s.arg1.toNat
    let q := s.rng.toNat / 32768
    let fm := 32768 - min (s.val.toNat / q + 1) 32768
    let start : Nat × Nat × Nat := (fs, min ((32736 - fs) * (16384 - decay)) (2 ^ 32 - 1) / 2 ^ 15 + 1, 1)
    let once := fun x : Nat × Nat × Nat =>
      (x.1 + 2 * x.2.1, min ((2 * x.2.1 - 2) * decay) (2 ^ 32 - 1) / 2 ^ 15 + 1, x.2.2 + 1)
    let more := fun x : Nat × Nat × Nat => 1 < x.2.1 ∧ x.1 + 2 * x.2.1 ≤ fm
    fs ≤ fm →
    ∃ k ≤ 8192, (∀ j < k, more (once^[j] start)) ∧ ¬ more (once^[k] start) ∧
      ∀ fl fsc mag : Nat, once^[k] start = (fl, fsc, mag) →
        let di := if fsc ≤ 1 then (fm - fl) / 2 else 0
        let low := fm < fl + 2 * di + fsc
        let lo := if low then fl + 2 * di else fl + 2 * di + fsc
        let hi := min (lo + fsc) 32768
        let val : Int := if low then -((mag + di : Nat) : Int) else ((mag + di : Nat) : Int)
        exec .laplace s = .next
          { normalizeRange { s with
              val := BitVec.ofNat 32 (s.val.toNat - q * (32768 - hi))
              rng := BitVec.ofNat 32 (if 0 < lo then q * (hi - lo) else s.rng.toNat - q * (32768 - hi)) } with
            result := BitVec.ofInt 32 val, ecode := 0 } ∧
        lo ≤ fm ∧ fm < hi ∧ val ≠ 0 ∧ val.natAbs ≤ 16384

/-- LAPLACE never faults: while 10_state.md R25 holds it completes OK for all operands, with a value of magnitude at
most 16384 and 10_state.md R25 holding again, and it does not touch the raw channel (44_laplace.md R202). -/
def Obligations.LaplaceNeverFaults : Prop :=
  ∀ s : State, Accepting s → CoreInv s →
    ∃ (t : State) (v : Int), exec .laplace s = .next t ∧ SameFaultState s t ∧ t.ecode = 0 ∧
      t.result = BitVec.ofInt 32 v ∧ v.natAbs ≤ 16384 ∧ CoreInv t ∧
      t.endPos = s.endPos ∧ t.window = s.window ∧ t.avail = s.avail

/-! ### TELL, TELL_FRAC (45_accounting.md) -/

/-- TELL completes with TOTAL_BITS - k, k being the bit-length of RNG, and changes nothing else; k is 24 to 32, the
subtraction never clamps and the result is at least 1 (45_accounting.md R220, R221). -/
def Obligations.TellReportsWholeBits : Prop :=
  ∀ (s : State) (k : Nat), Accepting s → CoreInv s → 2 ^ (k - 1) ≤ s.rng.toNat → s.rng.toNat < 2 ^ k →
    exec .tell s = .next { s with result := BitVec.ofNat 32 (s.totalBits.toNat - k), ecode := 0 } ∧
    24 ≤ k ∧ k ≤ 32 ∧ 1 ≤ s.totalBits.toNat - k

/-- TELL_FRAC completes with 8 * TOTAL_BITS - (8 * k + c), clamped to 32 bits, and changes nothing else; k is the
bit-length of RNG and c the three refinement bits of R222's squarings, so c is at most 7, and below TOTAL_BITS = 2^29
the result lies in 8 * TELL - 7 to 8 * TELL (45_accounting.md R222, R223; R222's lines marked [GK] are the spec's own
choice, log 12). -/
def Obligations.TellFracReportsEighthBits : Prop :=
  ∀ (s : State) (k : Nat), Accepting s → CoreInv s → 2 ^ (k - 1) ≤ s.rng.toNat → s.rng.toNat < 2 ^ k →
    let r0 := s.rng.toNat / 2 ^ (k - 16)
    let b1 := r0 * r0 / 2 ^ 15 / 2 ^ 16
    let r1 := r0 * r0 / 2 ^ 15 / 2 ^ b1
    let b2 := r1 * r1 / 2 ^ 15 / 2 ^ 16
    let r2 := r1 * r1 / 2 ^ 15 / 2 ^ b2
    let b3 := r2 * r2 / 2 ^ 15 / 2 ^ 16
    let c := 4 * b1 + 2 * b2 + b3
    let frac := min (8 * s.totalBits.toNat - (8 * k + c)) (2 ^ 32 - 1)
    exec .tellFrac s = .next { s with result := BitVec.ofNat 32 frac, ecode := 0 } ∧ c ≤ 7 ∧
    8 * k + c ≤ 8 * s.totalBits.toNat ∧
    (s.totalBits.toNat < 2 ^ 29 →
      8 * (s.totalBits.toNat - k) - 7 ≤ frac ∧ frac ≤ 8 * (s.totalBits.toNat - k))

/-- TELL does not fall: a completed BITS, BIT_LOGP, UINT or LAPLACE, an UPDATE in the contract of 41_symbol_decode.md
R145, and an ICDF8 or ICDF16 whose entries are at most 2^ftb, leave TOTAL_BITS - ilog(RNG) no smaller, short of
TOTAL_BITS saturating (45_accounting.md R221). -/
def Obligations.TellNeverFalls : Prop :=
  ∀ (s t : State) (i : Instr), Accepting s → CoreInv s → exec i s = .next t → t.fault = false →
    s.totalBits.toNat + 64 < 2 ^ 32 →
    (match i with
      | .init => False
      | .update =>
        let fs := s.arg2.toNat - min (s.val.toNat / (s.rng.toNat / s.arg2.toNat) + 1) s.arg2.toNat
        s.arg1.toNat ≤ s.arg2.toNat ∧ s.arg0.toNat ≤ fs ∧ fs < s.arg1.toNat
      | .icdf8 n => ∀ j < s.arg1.toNat, (s.tbl.read (s.arg0.toNat + j)).toNat ≤ 2 ^ n
      | .icdf16 n => ∀ j < s.arg1.toNat, (s.tbl.read (s.arg0.toNat + 2 * j)).toNat +
          (s.tbl.read (s.arg0.toNat + 2 * j + 1)).toNat * 256 ≤ 2 ^ n
      | .decode | .decodeBin _ | .bitLogp _ | .bits _ | .uint | .laplace | .tell | .tellFrac => True) →
    s.totalBits.toNat - ilog s.rng.toNat ≤ t.totalBits.toNat - ilog t.rng.toNat

/-! ### Frames -/

/-- The block never writes memory: after any command, and after the block's step on any word, every byte of BUF and
TBL reads as before (20_memory.md R72). -/
def Obligations.CommandsWriteNoMemory : Prop :=
  (∀ (i : Instr) (s t : State), exec i s = .next t → SameMemory s t) ∧
  (∀ (s t : State) (w : Word), BlockTurn s w → step s = .next t → SameMemory s t)

/-- No command writes ARG0 to ARG2, LEN, PENDING or the host's side (10_state.md R22, R24; 30_encoding.md R99). -/
def Obligations.CommandsKeepOperands : Prop :=
  ∀ (i : Instr) (s t : State), exec i s = .next t → SameOperands s t ∧ SameSurroundings s t

/-- UPDATE, BIT_LOGP, ICDF8, ICDF16 and LAPLACE change no register but RNG, VAL, POS, REM, TOTAL_BITS, RESULT and ECODE
when they complete; DECODE, DECODE_BIN, TELL and TELL_FRAC none but RESULT and ECODE
(43_raw_bits.md R183; 41_symbol_decode.md R140). -/
def Obligations.RangeCoderFrame : Prop :=
  ∀ (i : Instr) (s t : State), Accepting s → exec i s = .next t → t.fault = false →
    ((i = .update ∨ i = .laplace ∨ ∃ n, i = .bitLogp n ∨ i = .icdf8 n ∨ i = .icdf16 n) →
      t = { s with rng := t.rng, val := t.val, pos := t.pos, rem := t.rem, totalBits := t.totalBits,
                   result := t.result, ecode := 0 } ∧ SameMemory s t) ∧
    ((i = .decode ∨ i = .tell ∨ i = .tellFrac ∨ ∃ n, i = .decodeBin n) →
      t = { s with result := t.result, ecode := 0 } ∧ SameMemory s t)

/-- BITS changes no register but END_POS, WINDOW, AVAIL, TOTAL_BITS, RESULT, ECODE and ERR_SEEN, and UINT none but the
decoder core, RESULT, ECODE and ERR_SEEN, when they complete (43_raw_bits.md R180, R183, R184). -/
def Obligations.RawChannelFrame : Prop :=
  ∀ (i : Instr) (s t : State), Accepting s → exec i s = .next t → t.fault = false →
    ((∃ n, i = .bits n) →
      t = { s with endPos := t.endPos, window := t.window, avail := t.avail, totalBits := t.totalBits,
                   result := t.result, ecode := t.ecode, errSeen := t.errSeen } ∧ SameMemory s t) ∧
    (i = .uint →
      t = { s with rng := t.rng, val := t.val, pos := t.pos, rem := t.rem, totalBits := t.totalBits,
                   endPos := t.endPos, window := t.window, avail := t.avail,
                   result := t.result, ecode := t.ecode, errSeen := t.errSeen } ∧ SameMemory s t)

/-- The cursors and the bit count never move back under any command but INIT (10_state.md R28, R29, R31). -/
def Obligations.CursorsNeverMoveBack : Prop :=
  ∀ (i : Instr) (s t : State), i ≠ .init → exec i s = .next t →
    s.pos.toNat ≤ t.pos.toNat ∧ s.endPos.toNat ≤ t.endPos.toNat ∧ s.totalBits.toNat ≤ t.totalBits.toNat

/-- The raw channel does not influence the range coder: with any other END_POS, WINDOW and AVAIL, every command but
INIT, BITS and UINT does the same and leaves those three alone (43_raw_bits.md R183). -/
def Obligations.RangeCoderIgnoresRawChannel : Prop :=
  ∀ (i : Instr) (s t : State) (e w : Word) (a : BitVec 6), i ≠ .init → i ≠ .uint → (∀ n, i ≠ .bits n) →
    exec i s = .next t →
    exec i { s with endPos := e, window := w, avail := a } = .next { t with endPos := e, window := w, avail := a }

/-- The range coder does not influence the raw channel: with any other RNG, VAL, POS and REM, BITS does the same and
leaves those four alone (43_raw_bits.md R183). -/
def Obligations.RawChannelIgnoresRangeCoder : Prop :=
  ∀ (n : Nat) (s t : State) (r v p : Word) (b : BitVec 1), exec (.bits n) s = .next t →
    exec (.bits n) { s with rng := r, val := v, pos := p, rem := b } =
      .next { t with rng := r, val := v, pos := p, rem := b }

/-! ### The host's accesses (20_memory.md, 10_state.md) -/

/-- STATUS as the host reads it: BUSY is PENDING's valid bit, ERR is ECODE ≠ 0, each field at its place, the reserved
bits 0 (10_state.md R30, R38, R41). -/
def Obligations.StatusFieldsInPlace : Prop :=
  ∀ s : State,
    s.statusWord.getLsbD 0 = s.pending.isSome ∧ s.statusWord.getLsbD 1 = s.ready ∧
    s.statusWord.getLsbD 2 = s.fault ∧ s.statusWord.getLsbD 3 = (s.ecode != 0) ∧
    s.statusWord.getLsbD 4 = s.errSeen ∧ s.statusWord.extractLsb' 5 3 = 0 ∧
    s.statusWord.extractLsb' 8 4 = s.ecode ∧ s.statusWord.extractLsb' 12 4 = 0 ∧
    s.statusWord.extractLsb' 16 8 = s.fcode ∧ s.statusWord.extractLsb' 24 8 = 0

/-- What a 32-bit read of each register returns, at its offset, with no side effect; ID is 0x52444543, CTRL and CMD
read 0, RAWINFO holds AVAIL and REM, every reserved offset of the page reads 0 (20_memory.md R62, R68). -/
def Obligations.RegisterReads : Prop :=
  ∀ s : State,
    (∀ p ∈ [(0x000, (0x52444543 : Word)), (0x004, 0), (0x008, s.statusWord), (0x00C, 0), (0x010, s.arg0),
        (0x014, s.arg1), (0x018, s.arg2), (0x01C, s.result), (0x020, s.len.setWidth 32), (0x024, s.rng),
        (0x028, s.val), (0x02C, s.pos), (0x030, s.endPos), (0x034, s.totalBits), (0x038, s.window),
        (0x040, s.fcmd), (0x044, s.finfo)],
      busAccess (.read .w32 p.1) s = (.data p.2, s)) ∧
    (∃ v : Word, busAccess (.read .w32 0x03C) s = (.data v, s) ∧ v.extractLsb' 0 6 = s.avail ∧
      v.extractLsb' 6 2 = 0 ∧ v.extractLsb' 8 1 = s.rem ∧ v.extractLsb' 9 23 = 0) ∧
    (∀ o, 0x048 ≤ o → o ≤ 0xFFFC → o % 4 = 0 → busAccess (.read .w32 o) s = (.data 0, s))

/-- What a 32-bit write of each register does: ARG0 to ARG2 store, LEN stores bits [16:0] and discards the decoder, CMD
fills the latch, CTRL with bit 0 clear does nothing, read-only and reserved offsets ignore it
(20_memory.md R62, R68, R82; 10_state.md R22, R24, R34, R37). -/
def Obligations.RegisterWrites : Prop :=
  ∀ (s : State) (v : Word),
    busAccess (.write .w32 0x010 v) s = (.done, { s with arg0 := v }) ∧
    busAccess (.write .w32 0x014 v) s = (.done, { s with arg1 := v }) ∧
    busAccess (.write .w32 0x018 v) s = (.done, { s with arg2 := v }) ∧
    busAccess (.write .w32 0x020 v) s = (.done, { s with len := v.extractLsb' 0 17, ready := false }) ∧
    busAccess (.write .w32 0x00C v) s = (.done, { s with pending := some v }) ∧
    (v.getLsbD 0 = false → busAccess (.write .w32 0x004 v) s = (.done, s)) ∧
    (∀ o ∈ [0x000, 0x008, 0x01C, 0x024, 0x028, 0x02C, 0x030, 0x034, 0x038, 0x03C, 0x040, 0x044],
      busAccess (.write .w32 o v) s = (.done, s)) ∧
    (∀ o, 0x048 ≤ o → o ≤ 0xFFFC → o % 4 = 0 → busAccess (.write .w32 o v) s = (.done, s))

/-- The register page takes a 32-bit access at a 4-byte-aligned offset; any other width or a misaligned access is a
bus error (20_memory.md R65). -/
def Obligations.PageTakesAlignedWordsOnly : Prop :=
  ∀ (s : State) (w : Width) (o : Nat) (v : Word), o < 0x10000 →
    ((busAccess (.read w o) s).1 = .busError ↔ w ≠ .w32 ∨ o % 4 ≠ 0) ∧
    ((busAccess (.write w o v) s).1 = .busError ↔ w ≠ .w32 ∨ o % 4 ≠ 0)

/-- A bus error has no effect on any state, and it is the host's own fault: the run stops there with no RDEC fault
(20_memory.md R67, 60_exceptions.md R245; that the run stops is the model's choice, log 5). -/
def Obligations.BusErrorChangesNothing : Prop :=
  ∀ (s : State) (a : Access), (busAccess a s).1 = .busError →
    (busAccess a s).2 = s ∧ ∀ rest, HostTurn s (.access a) rest → step s = .fault .busError

/-- A naturally aligned access to the BUF or TBL window moves its lanes little-endian, byte by byte: a read is the sum
of the bytes, 0 past the capacity, and a write stores each byte below the capacity and changes no other byte
(20_memory.md R66, R68). The offset of index i is 0x10000 + i in BUF and 0x20000 + i in TBL. -/
def Obligations.WindowAccessesMoveLanes : Prop :=
  ∀ (s : State) (w : Width) (n i : Nat) (v : Word), MemoryInv s →
    (w = .w8 ∧ n = 1 ∨ w = .w16 ∧ n = 2 ∨ w = .w32 ∧ n = 4) → i < 0x10000 → i % n = 0 →
    let bufByte := fun j => if j < s.params.bufMax then (s.buf.read j).toNat else 0
    let tblByte := fun j => if j < s.params.tblMax then (s.tbl.read j).toNat else 0
    busAccess (.read w (0x10000 + i)) s =
      (.data (BitVec.ofNat 32 (∑ k ∈ Finset.range n, bufByte (i + k) * 256 ^ k)), s) ∧
    busAccess (.read w (0x20000 + i)) s =
      (.data (BitVec.ofNat 32 (∑ k ∈ Finset.range n, tblByte (i + k) * 256 ^ k)), s) ∧
    (busAccess (.write w (0x10000 + i) v) s).1 = .done ∧
    (busAccess (.write w (0x20000 + i) v) s).1 = .done ∧
    (∀ j, (busAccess (.write w (0x10000 + i) v) s).2.buf.read j =
        (if i ≤ j ∧ j < i + n ∧ j < s.params.bufMax then v.extractLsb' (8 * (j - i)) 8 else s.buf.read j) ∧
      (busAccess (.write w (0x10000 + i) v) s).2.tbl.read j = s.tbl.read j) ∧
    (∀ j, (busAccess (.write w (0x20000 + i) v) s).2.tbl.read j =
        (if i ≤ j ∧ j < i + n ∧ j < s.params.tblMax then v.extractLsb' (8 * (j - i)) 8 else s.tbl.read j) ∧
      (busAccess (.write w (0x20000 + i) v) s).2.buf.read j = s.buf.read j)

/-- A misaligned access to a window is a bus error (20_memory.md R66). -/
def Obligations.MisalignedWindowAccessErrs : Prop :=
  ∀ (s : State) (i : Nat) (v : Word) (base : Nat), base = 0x10000 ∨ base = 0x20000 → i < 0x10000 →
    (i % 2 ≠ 0 → (busAccess (.read .w16 (base + i)) s).1 = .busError ∧
      (busAccess (.write .w16 (base + i) v) s).1 = .busError) ∧
    (i % 4 ≠ 0 → (busAccess (.read .w32 (base + i)) s).1 = .busError ∧
      (busAccess (.write .w32 (base + i) v) s).1 = .busError)

/-- A host write to a BUF byte below BUF_MAX, or to LEN, clears READY and changes nothing else but what it stores;
a write that reaches no byte below BUF_MAX changes nothing; a TBL write changes nothing but TBL
(20_memory.md R64, R68, R82). -/
def Obligations.PacketWritesDiscardDecoder : Prop :=
  ∀ (s t : State) (w : Width) (o : Nat) (v : Word), busAccess (.write w o v) s = (.done, t) →
    (0x10000 ≤ o → o < 0x10000 + s.params.bufMax → o < 0x20000 → t = { s with buf := t.buf, ready := false }) ∧
    (0x10000 + s.params.bufMax ≤ o → 0x10000 ≤ o → o < 0x20000 → t = s) ∧
    (0x20000 ≤ o → t = { s with tbl := t.tbl }) ∧
    (o = 0x020 → t = { s with len := t.len, ready := false })

/-- Soft reset: a CTRL write with bit 0 set puts every register to 0 and keeps BUF and TBL, as one event; ID is
unchanged. The fields of the model's own, which are no registers, stay (70_reset_and_hazards.md R271, log 17). -/
def Obligations.SoftResetClearsRegisters : Prop :=
  ∀ (s : State) (v : Word), v.getLsbD 0 = true →
    busAccess (.write .w32 0x004 v) s =
      (.done, { State.powerOn s.params s.buf s.tbl s.program s.polls with replies := s.replies }) ∧
    ∀ r : Reg, readReg (softReset s) r = if r = .id then 0x52444543 else 0

/-- Power-on reset: whatever BUF and TBL hold, every register reads 0 but ID, and nothing is pending
(70_reset_and_hazards.md R270, 10_state.md R44). -/
def Obligations.PowerOnRegistersReadZero : Prop :=
  ∀ (p : Params) (buf tbl : Memory) (program : List HostOp) (polls : List Nat) (r : Reg),
    readReg (State.powerOn p buf tbl program polls) r = (if r = .id then 0x52444543 else 0) ∧
    (State.powerOn p buf tbl program polls).pending = none ∧
    (State.powerOn p buf tbl program polls).buf = buf ∧ (State.powerOn p buf tbl program polls).tbl = tbl

/-! ### Interlock, order and latency (70_reset_and_hazards.md R275, R278) -/

/-- With nothing pending the step is the host's next access: a read's data joins the replies, a write takes effect,
WAITIDLE reads STATUS once, with BUSY = 0, and ends, and the block stays as it is without one (20_memory.md R75,
70_reset_and_hazards.md R274, R280, 30_encoding.md R98; the program in State and the idle step are the model's form,
logs 3 and 7). -/
def Obligations.IdleStepPerformsHostAccess : Prop :=
  ∀ (s : State), s.pending = none →
    (s.program = [] → step s = .next s) ∧
    (∀ rest, s.program = .waitIdle :: rest →
      step s = .next { s with program := rest, replies := s.replies ++ [s.statusWord] } ∧
      s.statusWord.getLsbD 0 = false) ∧
    (∀ a rest, s.program = .access a :: rest →
      (∀ v t, busAccess a s = (.data v, t) → step s = .next { s with program := rest, replies := s.replies ++ [v] }) ∧
      (∀ t, busAccess a s = (.done, t) → step s = .next { t with program := rest }))

/-- The interlock: while a command is pending, an access other than a STATUS read is not performed until the
command's step has ended. A STATUS read that its latency covers is performed at once: it returns BUSY = 1 beside the
fields of the command before, and changes nothing of the block (70_reset_and_hazards.md R275, 10_state.md R46; the
latency is the model's input `polls`, log 4; that a malformed read at STATUS's offset waits is its choice, log 15). -/
def Obligations.InterlockHolds : Prop :=
  ∀ (s : State) (w : Word) (op : HostOp) (rest : List HostOp), s.pending = some w → s.program = op :: rest →
    (isStatusRead op = false → ∀ t, step s = .next t →
      t.program = s.program ∧ t.replies = s.replies ∧ t.pending = none ∧
      execWord w s = .next { t with pending := some w, polls := s.polls }) ∧
    (∀ n later, isStatusRead op = true → s.polls = (n + 1) :: later →
      step s = .next { s with
        program := if op = .waitIdle then s.program else rest
        replies := s.replies ++ [s.statusWord], polls := n :: later } ∧
      s.statusWord.getLsbD 0 = true)

/-- A pending command's step always happens in the end: after finitely many STATUS reads, as many at most as its latency
covers, the block moves on the same word, with every register and byte as before (70_reset_and_hazards.md R278). -/
def Obligations.PendingCommandAlwaysSteps : Prop :=
  ∀ (s : State) (w : Word), s.pending = some w →
    ∃ k ≤ pollsLeft s.polls, ∃ t, Sys2Proof.core.run k s = .next t ∧ BlockTurn t w ∧
      t = { s with program := t.program, replies := t.replies, polls := t.polls }

/-! ### Invariants -/

/-- Power-on reset with legal parameters and any canonical contents satisfies the invariant, and so does the reset
state. -/
def Obligations.PowerOnSatisfiesInvariant : Prop :=
  (∀ (p : Params) (buf tbl : Memory) (program : List HostOp) (polls : List Nat),
    p.legal = true → buf.wf = true → tbl.wf = true → buf.below p.bufMax = true → tbl.below p.tblMax = true →
    (State.powerOn p buf tbl program polls).Inv) ∧
  State.reset.Inv

/-- Every step keeps the invariant: legal parameters, canonical memories, 10_state.md R25 while READY = 1, a packet that
fits, and the fields of STATUS and the fault registers as R40, R41 and 60_exceptions.md R254 tie them. -/
def Obligations.StepKeepsInvariant : Prop :=
  ∀ s t : State, s.Inv → step s = .next t → t.Inv

/-- Every step keeps BUF and TBL canonical and within their capacities, in any state. -/
def Obligations.StepKeepsMemoryCanonical : Prop :=
  ∀ s t : State, MemoryInv s → step s = .next t → MemoryInv t

/-- Every command ends: from a state of the invariant a step answers a next state, but for an access of the host's own
making that is a bus error or outside the aperture, performed with nothing pending (70_reset_and_hazards.md R279). -/
def Obligations.StepOnlyStopsOnHostErrors : Prop :=
  ∀ s : State, s.Inv →
    (∃ t, step s = .next t) ∨
    (s.pending = none ∧ ∃ a rest, s.program = .access a :: rest ∧
      ((busAccess a s).1 = .busError ∧ step s = .fault .busError ∨
        (busAccess a s).1 = .outside ∧ step s = .fault .outsideAperture))
end

