-- ==== Sys2Proof/Laws/Arith.lean ====
section
/-! SUPPORT. Laws of the arithmetic primitives (00_scope.md R9, R10) and of narrowing to a register. -/

namespace Sys2Proof.Machine

@[simp] theorem w32_toNat (n : Nat) : (w32 n).toNat = n % 2 ^ 32 := BitVec.toNat_ofNat n 32

theorem w32_toNat_of_lt {n : Nat} (h : n < 2 ^ 32) : (w32 n).toNat = n := by
  rw [w32_toNat, Nat.mod_eq_of_lt h]

@[simp] theorem w32_of_toNat (w : Word) : w32 w.toNat = w := by
  apply BitVec.eq_of_toNat_eq; rw [w32_toNat, Nat.mod_eq_of_lt w.isLt]

theorem satMul_le (a b : Nat) : satMul a b ≤ a * b := Nat.min_le_left _ _

theorem satMul_lt (a b : Nat) : satMul a b < 2 ^ 32 := by
  have := Nat.min_le_right (a * b) maxU32
  simp only [satMul, maxU32] at *; omega

theorem satMul_eq {a b : Nat} (h : a * b < 2 ^ 32) : satMul a b = a * b := by
  apply Nat.min_eq_left; simp only [maxU32]; omega

@[simp] theorem satMul_zero (a : Nat) : satMul a 0 = 0 := by simp [satMul]

theorem satAdd_lt (a b : Nat) : satAdd a b < 2 ^ 32 := by
  have := Nat.min_le_right (a + b) maxU32
  simp only [satAdd, maxU32] at *; omega

theorem satAdd_le (a b : Nat) : satAdd a b ≤ a + b := Nat.min_le_left _ _

theorem le_satAdd {a : Nat} (b : Nat) (h : a < 2 ^ 32) : a ≤ satAdd a b := by
  simp only [satAdd, maxU32]; omega

@[simp] theorem satAdd_toNat (w : Word) (b : Nat) : (w32 (satAdd w.toNat b)).toNat = satAdd w.toNat b :=
  w32_toNat_of_lt (satAdd_lt _ _)

theorem satAdd_zero {a : Nat} (h : a < 2 ^ 32) : satAdd a 0 = a := by
  simp only [satAdd, maxU32]; omega

theorem satAdd_assoc (a b c : Nat) : satAdd (satAdd a b) c = satAdd a (b + c) := by
  simp only [satAdd, maxU32]; omega

theorem satInc_lt (a : Nat) : satInc a < 2 ^ 32 := satAdd_lt a 1

theorem ilog_pos {x : Nat} (h : x ≠ 0) : ilog x = Nat.log2 x + 1 := by simp [ilog, h]

theorem lt_two_pow_ilog (x : Nat) : x < 2 ^ ilog x := by
  by_cases h : x = 0
  · subst h; decide
  · rw [ilog_pos h]; exact (Nat.log2_lt h).mp (Nat.lt_succ_self _)

theorem two_pow_le_of_ilog {x : Nat} (h : x ≠ 0) : 2 ^ (ilog x - 1) ≤ x := by
  rw [ilog_pos h]; exact Nat.log2_self_le h

theorem ilog_le_iff {x k : Nat} : ilog x ≤ k ↔ x < 2 ^ k := by
  constructor
  · intro h; exact Nat.lt_of_lt_of_le (lt_two_pow_ilog x) (Nat.pow_le_pow_right (by omega) h)
  · intro h
    by_cases hx : x = 0
    · subst hx; simp [ilog]
    · by_contra hc
      have h1 := two_pow_le_of_ilog hx
      have h2 : 2 ^ k ≤ 2 ^ (ilog x - 1) := Nat.pow_le_pow_right (by omega) (by omega)
      omega

end Sys2Proof.Machine
end

