-- ==== Sys2Proof/Laws/State.lean ====
section
/-! SUPPORT. One lemma per field per update of State, true by rfl, so that no later proof unfolds a record
update. -/

namespace Sys2Proof.Machine

@[simp] theorem complete_buf (c : Completion) (r : Word) (s : State) : (complete c r s).buf = s.buf := rfl
@[simp] theorem complete_tbl (c : Completion) (r : Word) (s : State) : (complete c r s).tbl = s.tbl := rfl
@[simp] theorem complete_arg0 (c : Completion) (r : Word) (s : State) : (complete c r s).arg0 = s.arg0 := rfl
@[simp] theorem complete_arg1 (c : Completion) (r : Word) (s : State) : (complete c r s).arg1 = s.arg1 := rfl
@[simp] theorem complete_arg2 (c : Completion) (r : Word) (s : State) : (complete c r s).arg2 = s.arg2 := rfl
@[simp] theorem complete_result (c : Completion) (r : Word) (s : State) : (complete c r s).result = r := rfl
@[simp] theorem complete_len (c : Completion) (r : Word) (s : State) : (complete c r s).len = s.len := rfl
@[simp] theorem complete_rng (c : Completion) (r : Word) (s : State) : (complete c r s).rng = s.rng := rfl
@[simp] theorem complete_val (c : Completion) (r : Word) (s : State) : (complete c r s).val = s.val := rfl
@[simp] theorem complete_pos (c : Completion) (r : Word) (s : State) : (complete c r s).pos = s.pos := rfl
@[simp] theorem complete_endPos (c : Completion) (r : Word) (s : State) : (complete c r s).endPos = s.endPos := rfl
@[simp] theorem complete_totalBits (c : Completion) (r : Word) (s : State) : (complete c r s).totalBits = s.totalBits := rfl
@[simp] theorem complete_window (c : Completion) (r : Word) (s : State) : (complete c r s).window = s.window := rfl
@[simp] theorem complete_avail (c : Completion) (r : Word) (s : State) : (complete c r s).avail = s.avail := rfl
@[simp] theorem complete_rem (c : Completion) (r : Word) (s : State) : (complete c r s).rem = s.rem := rfl
@[simp] theorem complete_ready (c : Completion) (r : Word) (s : State) : (complete c r s).ready = s.ready := rfl
@[simp] theorem complete_fault (c : Completion) (r : Word) (s : State) : (complete c r s).fault = s.fault := rfl
@[simp] theorem complete_errSeen (c : Completion) (r : Word) (s : State) : (complete c r s).errSeen = (s.errSeen || (c != .ok)) := rfl
@[simp] theorem complete_ecode (c : Completion) (r : Word) (s : State) : (complete c r s).ecode = c.code := rfl
@[simp] theorem complete_fcode (c : Completion) (r : Word) (s : State) : (complete c r s).fcode = s.fcode := rfl
@[simp] theorem complete_fcmd (c : Completion) (r : Word) (s : State) : (complete c r s).fcmd = s.fcmd := rfl
@[simp] theorem complete_finfo (c : Completion) (r : Word) (s : State) : (complete c r s).finfo = s.finfo := rfl
@[simp] theorem complete_pending (c : Completion) (r : Word) (s : State) : (complete c r s).pending = s.pending := rfl
@[simp] theorem complete_params (c : Completion) (r : Word) (s : State) : (complete c r s).params = s.params := rfl
@[simp] theorem complete_program (c : Completion) (r : Word) (s : State) : (complete c r s).program = s.program := rfl
@[simp] theorem complete_replies (c : Completion) (r : Word) (s : State) : (complete c r s).replies = s.replies := rfl
@[simp] theorem complete_polls (c : Completion) (r : Word) (s : State) : (complete c r s).polls = s.polls := rfl

@[simp] theorem raiseFault_buf (w : Word) (f : RdecFault) (i : Word) (s : State) : (raiseFault w f i s).buf = s.buf := rfl
@[simp] theorem raiseFault_tbl (w : Word) (f : RdecFault) (i : Word) (s : State) : (raiseFault w f i s).tbl = s.tbl := rfl
@[simp] theorem raiseFault_arg0 (w : Word) (f : RdecFault) (i : Word) (s : State) : (raiseFault w f i s).arg0 = s.arg0 := rfl
@[simp] theorem raiseFault_arg1 (w : Word) (f : RdecFault) (i : Word) (s : State) : (raiseFault w f i s).arg1 = s.arg1 := rfl
@[simp] theorem raiseFault_arg2 (w : Word) (f : RdecFault) (i : Word) (s : State) : (raiseFault w f i s).arg2 = s.arg2 := rfl
@[simp] theorem raiseFault_result (w : Word) (f : RdecFault) (i : Word) (s : State) : (raiseFault w f i s).result = s.result := rfl
@[simp] theorem raiseFault_len (w : Word) (f : RdecFault) (i : Word) (s : State) : (raiseFault w f i s).len = s.len := rfl
@[simp] theorem raiseFault_rng (w : Word) (f : RdecFault) (i : Word) (s : State) : (raiseFault w f i s).rng = s.rng := rfl
@[simp] theorem raiseFault_val (w : Word) (f : RdecFault) (i : Word) (s : State) : (raiseFault w f i s).val = s.val := rfl
@[simp] theorem raiseFault_pos (w : Word) (f : RdecFault) (i : Word) (s : State) : (raiseFault w f i s).pos = s.pos := rfl
@[simp] theorem raiseFault_endPos (w : Word) (f : RdecFault) (i : Word) (s : State) : (raiseFault w f i s).endPos = s.endPos := rfl
@[simp] theorem raiseFault_totalBits (w : Word) (f : RdecFault) (i : Word) (s : State) : (raiseFault w f i s).totalBits = s.totalBits := rfl
@[simp] theorem raiseFault_window (w : Word) (f : RdecFault) (i : Word) (s : State) : (raiseFault w f i s).window = s.window := rfl
@[simp] theorem raiseFault_avail (w : Word) (f : RdecFault) (i : Word) (s : State) : (raiseFault w f i s).avail = s.avail := rfl
@[simp] theorem raiseFault_rem (w : Word) (f : RdecFault) (i : Word) (s : State) : (raiseFault w f i s).rem = s.rem := rfl
@[simp] theorem raiseFault_ready (w : Word) (f : RdecFault) (i : Word) (s : State) : (raiseFault w f i s).ready = false := rfl
@[simp] theorem raiseFault_fault (w : Word) (f : RdecFault) (i : Word) (s : State) : (raiseFault w f i s).fault = true := rfl
@[simp] theorem raiseFault_errSeen (w : Word) (f : RdecFault) (i : Word) (s : State) : (raiseFault w f i s).errSeen = s.errSeen := rfl
@[simp] theorem raiseFault_ecode (w : Word) (f : RdecFault) (i : Word) (s : State) : (raiseFault w f i s).ecode = 0 := rfl
@[simp] theorem raiseFault_fcode (w : Word) (f : RdecFault) (i : Word) (s : State) : (raiseFault w f i s).fcode = f.code := rfl
@[simp] theorem raiseFault_fcmd (w : Word) (f : RdecFault) (i : Word) (s : State) : (raiseFault w f i s).fcmd = w := rfl
@[simp] theorem raiseFault_finfo (w : Word) (f : RdecFault) (i : Word) (s : State) : (raiseFault w f i s).finfo = i := rfl
@[simp] theorem raiseFault_pending (w : Word) (f : RdecFault) (i : Word) (s : State) : (raiseFault w f i s).pending = s.pending := rfl
@[simp] theorem raiseFault_params (w : Word) (f : RdecFault) (i : Word) (s : State) : (raiseFault w f i s).params = s.params := rfl
@[simp] theorem raiseFault_program (w : Word) (f : RdecFault) (i : Word) (s : State) : (raiseFault w f i s).program = s.program := rfl
@[simp] theorem raiseFault_replies (w : Word) (f : RdecFault) (i : Word) (s : State) : (raiseFault w f i s).replies = s.replies := rfl
@[simp] theorem raiseFault_polls (w : Word) (f : RdecFault) (i : Word) (s : State) : (raiseFault w f i s).polls = s.polls := rfl

@[simp] theorem clearFault_buf (s : State) : (clearFault s).buf = s.buf := rfl
@[simp] theorem clearFault_tbl (s : State) : (clearFault s).tbl = s.tbl := rfl
@[simp] theorem clearFault_arg0 (s : State) : (clearFault s).arg0 = s.arg0 := rfl
@[simp] theorem clearFault_arg1 (s : State) : (clearFault s).arg1 = s.arg1 := rfl
@[simp] theorem clearFault_arg2 (s : State) : (clearFault s).arg2 = s.arg2 := rfl
@[simp] theorem clearFault_result (s : State) : (clearFault s).result = s.result := rfl
@[simp] theorem clearFault_len (s : State) : (clearFault s).len = s.len := rfl
@[simp] theorem clearFault_rng (s : State) : (clearFault s).rng = s.rng := rfl
@[simp] theorem clearFault_val (s : State) : (clearFault s).val = s.val := rfl
@[simp] theorem clearFault_pos (s : State) : (clearFault s).pos = s.pos := rfl
@[simp] theorem clearFault_endPos (s : State) : (clearFault s).endPos = s.endPos := rfl
@[simp] theorem clearFault_totalBits (s : State) : (clearFault s).totalBits = s.totalBits := rfl
@[simp] theorem clearFault_window (s : State) : (clearFault s).window = s.window := rfl
@[simp] theorem clearFault_avail (s : State) : (clearFault s).avail = s.avail := rfl
@[simp] theorem clearFault_rem (s : State) : (clearFault s).rem = s.rem := rfl
@[simp] theorem clearFault_ready (s : State) : (clearFault s).ready = s.ready := rfl
@[simp] theorem clearFault_fault (s : State) : (clearFault s).fault = false := rfl
@[simp] theorem clearFault_errSeen (s : State) : (clearFault s).errSeen = false := rfl
@[simp] theorem clearFault_ecode (s : State) : (clearFault s).ecode = s.ecode := rfl
@[simp] theorem clearFault_fcode (s : State) : (clearFault s).fcode = 0 := rfl
@[simp] theorem clearFault_fcmd (s : State) : (clearFault s).fcmd = 0 := rfl
@[simp] theorem clearFault_finfo (s : State) : (clearFault s).finfo = 0 := rfl
@[simp] theorem clearFault_pending (s : State) : (clearFault s).pending = s.pending := rfl
@[simp] theorem clearFault_params (s : State) : (clearFault s).params = s.params := rfl
@[simp] theorem clearFault_program (s : State) : (clearFault s).program = s.program := rfl
@[simp] theorem clearFault_replies (s : State) : (clearFault s).replies = s.replies := rfl
@[simp] theorem clearFault_polls (s : State) : (clearFault s).polls = s.polls := rfl

@[simp] theorem endCommand_buf (s : State) : (endCommand s).buf = s.buf := rfl
@[simp] theorem endCommand_tbl (s : State) : (endCommand s).tbl = s.tbl := rfl
@[simp] theorem endCommand_arg0 (s : State) : (endCommand s).arg0 = s.arg0 := rfl
@[simp] theorem endCommand_arg1 (s : State) : (endCommand s).arg1 = s.arg1 := rfl
@[simp] theorem endCommand_arg2 (s : State) : (endCommand s).arg2 = s.arg2 := rfl
@[simp] theorem endCommand_result (s : State) : (endCommand s).result = s.result := rfl
@[simp] theorem endCommand_len (s : State) : (endCommand s).len = s.len := rfl
@[simp] theorem endCommand_rng (s : State) : (endCommand s).rng = s.rng := rfl
@[simp] theorem endCommand_val (s : State) : (endCommand s).val = s.val := rfl
@[simp] theorem endCommand_pos (s : State) : (endCommand s).pos = s.pos := rfl
@[simp] theorem endCommand_endPos (s : State) : (endCommand s).endPos = s.endPos := rfl
@[simp] theorem endCommand_totalBits (s : State) : (endCommand s).totalBits = s.totalBits := rfl
@[simp] theorem endCommand_window (s : State) : (endCommand s).window = s.window := rfl
@[simp] theorem endCommand_avail (s : State) : (endCommand s).avail = s.avail := rfl
@[simp] theorem endCommand_rem (s : State) : (endCommand s).rem = s.rem := rfl
@[simp] theorem endCommand_ready (s : State) : (endCommand s).ready = s.ready := rfl
@[simp] theorem endCommand_fault (s : State) : (endCommand s).fault = s.fault := rfl
@[simp] theorem endCommand_errSeen (s : State) : (endCommand s).errSeen = s.errSeen := rfl
@[simp] theorem endCommand_ecode (s : State) : (endCommand s).ecode = s.ecode := rfl
@[simp] theorem endCommand_fcode (s : State) : (endCommand s).fcode = s.fcode := rfl
@[simp] theorem endCommand_fcmd (s : State) : (endCommand s).fcmd = s.fcmd := rfl
@[simp] theorem endCommand_finfo (s : State) : (endCommand s).finfo = s.finfo := rfl
@[simp] theorem endCommand_pending (s : State) : (endCommand s).pending = none := rfl
@[simp] theorem endCommand_params (s : State) : (endCommand s).params = s.params := rfl
@[simp] theorem endCommand_program (s : State) : (endCommand s).program = s.program := rfl
@[simp] theorem endCommand_replies (s : State) : (endCommand s).replies = s.replies := rfl
@[simp] theorem endCommand_polls (s : State) : (endCommand s).polls = s.polls.tail := rfl

@[simp] theorem normalizeOnce_buf (s : State) : (normalizeOnce s).buf = s.buf := rfl
@[simp] theorem normalizeOnce_tbl (s : State) : (normalizeOnce s).tbl = s.tbl := rfl
@[simp] theorem normalizeOnce_arg0 (s : State) : (normalizeOnce s).arg0 = s.arg0 := rfl
@[simp] theorem normalizeOnce_arg1 (s : State) : (normalizeOnce s).arg1 = s.arg1 := rfl
@[simp] theorem normalizeOnce_arg2 (s : State) : (normalizeOnce s).arg2 = s.arg2 := rfl
@[simp] theorem normalizeOnce_result (s : State) : (normalizeOnce s).result = s.result := rfl
@[simp] theorem normalizeOnce_len (s : State) : (normalizeOnce s).len = s.len := rfl
@[simp] theorem normalizeOnce_rng (s : State) : (normalizeOnce s).rng = w32 (s.rng.toNat * 2 ^ 8) := rfl
@[simp] theorem normalizeOnce_val (s : State) : (normalizeOnce s).val = w32 (s.val.toNat * 2 ^ 8 + (255 - (s.rem.toNat * 2 ^ 7 + (s.frontByte s.pos.toNat).toNat / 2))) := rfl
@[simp] theorem normalizeOnce_pos (s : State) : (normalizeOnce s).pos = w32 (satInc s.pos.toNat) := rfl
@[simp] theorem normalizeOnce_endPos (s : State) : (normalizeOnce s).endPos = s.endPos := rfl
@[simp] theorem normalizeOnce_totalBits (s : State) : (normalizeOnce s).totalBits = w32 (satAdd s.totalBits.toNat 8) := rfl
@[simp] theorem normalizeOnce_window (s : State) : (normalizeOnce s).window = s.window := rfl
@[simp] theorem normalizeOnce_avail (s : State) : (normalizeOnce s).avail = s.avail := rfl
@[simp] theorem normalizeOnce_rem (s : State) : (normalizeOnce s).rem = BitVec.ofNat 1 (s.frontByte s.pos.toNat).toNat := rfl
@[simp] theorem normalizeOnce_ready (s : State) : (normalizeOnce s).ready = s.ready := rfl
@[simp] theorem normalizeOnce_fault (s : State) : (normalizeOnce s).fault = s.fault := rfl
@[simp] theorem normalizeOnce_errSeen (s : State) : (normalizeOnce s).errSeen = s.errSeen := rfl
@[simp] theorem normalizeOnce_ecode (s : State) : (normalizeOnce s).ecode = s.ecode := rfl
@[simp] theorem normalizeOnce_fcode (s : State) : (normalizeOnce s).fcode = s.fcode := rfl
@[simp] theorem normalizeOnce_fcmd (s : State) : (normalizeOnce s).fcmd = s.fcmd := rfl
@[simp] theorem normalizeOnce_finfo (s : State) : (normalizeOnce s).finfo = s.finfo := rfl
@[simp] theorem normalizeOnce_pending (s : State) : (normalizeOnce s).pending = s.pending := rfl
@[simp] theorem normalizeOnce_params (s : State) : (normalizeOnce s).params = s.params := rfl
@[simp] theorem normalizeOnce_program (s : State) : (normalizeOnce s).program = s.program := rfl
@[simp] theorem normalizeOnce_replies (s : State) : (normalizeOnce s).replies = s.replies := rfl
@[simp] theorem normalizeOnce_polls (s : State) : (normalizeOnce s).polls = s.polls := rfl

@[simp] theorem rawFetch_buf (s : State) : (rawFetch s).buf = s.buf := rfl
@[simp] theorem rawFetch_tbl (s : State) : (rawFetch s).tbl = s.tbl := rfl
@[simp] theorem rawFetch_arg0 (s : State) : (rawFetch s).arg0 = s.arg0 := rfl
@[simp] theorem rawFetch_arg1 (s : State) : (rawFetch s).arg1 = s.arg1 := rfl
@[simp] theorem rawFetch_arg2 (s : State) : (rawFetch s).arg2 = s.arg2 := rfl
@[simp] theorem rawFetch_result (s : State) : (rawFetch s).result = s.result := rfl
@[simp] theorem rawFetch_len (s : State) : (rawFetch s).len = s.len := rfl
@[simp] theorem rawFetch_rng (s : State) : (rawFetch s).rng = s.rng := rfl
@[simp] theorem rawFetch_val (s : State) : (rawFetch s).val = s.val := rfl
@[simp] theorem rawFetch_pos (s : State) : (rawFetch s).pos = s.pos := rfl
@[simp] theorem rawFetch_endPos (s : State) : (rawFetch s).endPos = w32 (satInc s.endPos.toNat) := rfl
@[simp] theorem rawFetch_totalBits (s : State) : (rawFetch s).totalBits = s.totalBits := rfl
@[simp] theorem rawFetch_window (s : State) : (rawFetch s).window = w32 (s.window.toNat ||| (s.tailByte s.endPos.toNat).toNat * 2 ^ s.avail.toNat) := rfl
@[simp] theorem rawFetch_avail (s : State) : (rawFetch s).avail = BitVec.ofNat 6 (s.avail.toNat + 8) := rfl
@[simp] theorem rawFetch_rem (s : State) : (rawFetch s).rem = s.rem := rfl
@[simp] theorem rawFetch_ready (s : State) : (rawFetch s).ready = s.ready := rfl
@[simp] theorem rawFetch_fault (s : State) : (rawFetch s).fault = s.fault := rfl
@[simp] theorem rawFetch_errSeen (s : State) : (rawFetch s).errSeen = s.errSeen := rfl
@[simp] theorem rawFetch_ecode (s : State) : (rawFetch s).ecode = s.ecode := rfl
@[simp] theorem rawFetch_fcode (s : State) : (rawFetch s).fcode = s.fcode := rfl
@[simp] theorem rawFetch_fcmd (s : State) : (rawFetch s).fcmd = s.fcmd := rfl
@[simp] theorem rawFetch_finfo (s : State) : (rawFetch s).finfo = s.finfo := rfl
@[simp] theorem rawFetch_pending (s : State) : (rawFetch s).pending = s.pending := rfl
@[simp] theorem rawFetch_params (s : State) : (rawFetch s).params = s.params := rfl
@[simp] theorem rawFetch_program (s : State) : (rawFetch s).program = s.program := rfl
@[simp] theorem rawFetch_replies (s : State) : (rawFetch s).replies = s.replies := rfl
@[simp] theorem rawFetch_polls (s : State) : (rawFetch s).polls = s.polls := rfl

@[simp] theorem initSeed_buf (b : Nat) (s : State) : (initSeed b s).buf = s.buf := rfl
@[simp] theorem initSeed_tbl (b : Nat) (s : State) : (initSeed b s).tbl = s.tbl := rfl
@[simp] theorem initSeed_arg0 (b : Nat) (s : State) : (initSeed b s).arg0 = s.arg0 := rfl
@[simp] theorem initSeed_arg1 (b : Nat) (s : State) : (initSeed b s).arg1 = s.arg1 := rfl
@[simp] theorem initSeed_arg2 (b : Nat) (s : State) : (initSeed b s).arg2 = s.arg2 := rfl
@[simp] theorem initSeed_result (b : Nat) (s : State) : (initSeed b s).result = s.result := rfl
@[simp] theorem initSeed_len (b : Nat) (s : State) : (initSeed b s).len = s.len := rfl
@[simp] theorem initSeed_rng (b : Nat) (s : State) : (initSeed b s).rng = w32 128 := rfl
@[simp] theorem initSeed_val (b : Nat) (s : State) : (initSeed b s).val = w32 (127 - b / 2) := rfl
@[simp] theorem initSeed_pos (b : Nat) (s : State) : (initSeed b s).pos = w32 1 := rfl
@[simp] theorem initSeed_endPos (b : Nat) (s : State) : (initSeed b s).endPos = 0 := rfl
@[simp] theorem initSeed_totalBits (b : Nat) (s : State) : (initSeed b s).totalBits = w32 9 := rfl
@[simp] theorem initSeed_window (b : Nat) (s : State) : (initSeed b s).window = 0 := rfl
@[simp] theorem initSeed_avail (b : Nat) (s : State) : (initSeed b s).avail = 0 := rfl
@[simp] theorem initSeed_rem (b : Nat) (s : State) : (initSeed b s).rem = BitVec.ofNat 1 b := rfl
@[simp] theorem initSeed_ready (b : Nat) (s : State) : (initSeed b s).ready = s.ready := rfl
@[simp] theorem initSeed_fault (b : Nat) (s : State) : (initSeed b s).fault = s.fault := rfl
@[simp] theorem initSeed_errSeen (b : Nat) (s : State) : (initSeed b s).errSeen = s.errSeen := rfl
@[simp] theorem initSeed_ecode (b : Nat) (s : State) : (initSeed b s).ecode = s.ecode := rfl
@[simp] theorem initSeed_fcode (b : Nat) (s : State) : (initSeed b s).fcode = s.fcode := rfl
@[simp] theorem initSeed_fcmd (b : Nat) (s : State) : (initSeed b s).fcmd = s.fcmd := rfl
@[simp] theorem initSeed_finfo (b : Nat) (s : State) : (initSeed b s).finfo = s.finfo := rfl
@[simp] theorem initSeed_pending (b : Nat) (s : State) : (initSeed b s).pending = s.pending := rfl
@[simp] theorem initSeed_params (b : Nat) (s : State) : (initSeed b s).params = s.params := rfl
@[simp] theorem initSeed_program (b : Nat) (s : State) : (initSeed b s).program = s.program := rfl
@[simp] theorem initSeed_replies (b : Nat) (s : State) : (initSeed b s).replies = s.replies := rfl
@[simp] theorem initSeed_polls (b : Nat) (s : State) : (initSeed b s).polls = s.polls := rfl

@[simp] theorem rawTake_buf (n : Nat) (s : State) : ((rawTake n s).2).buf = s.buf := rfl
@[simp] theorem rawTake_tbl (n : Nat) (s : State) : ((rawTake n s).2).tbl = s.tbl := rfl
@[simp] theorem rawTake_arg0 (n : Nat) (s : State) : ((rawTake n s).2).arg0 = s.arg0 := rfl
@[simp] theorem rawTake_arg1 (n : Nat) (s : State) : ((rawTake n s).2).arg1 = s.arg1 := rfl
@[simp] theorem rawTake_arg2 (n : Nat) (s : State) : ((rawTake n s).2).arg2 = s.arg2 := rfl
@[simp] theorem rawTake_result (n : Nat) (s : State) : ((rawTake n s).2).result = s.result := rfl
@[simp] theorem rawTake_len (n : Nat) (s : State) : ((rawTake n s).2).len = s.len := rfl
@[simp] theorem rawTake_rng (n : Nat) (s : State) : ((rawTake n s).2).rng = s.rng := rfl
@[simp] theorem rawTake_val (n : Nat) (s : State) : ((rawTake n s).2).val = s.val := rfl
@[simp] theorem rawTake_pos (n : Nat) (s : State) : ((rawTake n s).2).pos = s.pos := rfl
@[simp] theorem rawTake_endPos (n : Nat) (s : State) : ((rawTake n s).2).endPos = s.endPos := rfl
@[simp] theorem rawTake_totalBits (n : Nat) (s : State) : ((rawTake n s).2).totalBits = w32 (satAdd s.totalBits.toNat n) := rfl
@[simp] theorem rawTake_window (n : Nat) (s : State) : ((rawTake n s).2).window = w32 (s.window.toNat / 2 ^ n) := rfl
@[simp] theorem rawTake_avail (n : Nat) (s : State) : ((rawTake n s).2).avail = BitVec.ofNat 6 (s.avail.toNat - n) := rfl
@[simp] theorem rawTake_rem (n : Nat) (s : State) : ((rawTake n s).2).rem = s.rem := rfl
@[simp] theorem rawTake_ready (n : Nat) (s : State) : ((rawTake n s).2).ready = s.ready := rfl
@[simp] theorem rawTake_fault (n : Nat) (s : State) : ((rawTake n s).2).fault = s.fault := rfl
@[simp] theorem rawTake_errSeen (n : Nat) (s : State) : ((rawTake n s).2).errSeen = s.errSeen := rfl
@[simp] theorem rawTake_ecode (n : Nat) (s : State) : ((rawTake n s).2).ecode = s.ecode := rfl
@[simp] theorem rawTake_fcode (n : Nat) (s : State) : ((rawTake n s).2).fcode = s.fcode := rfl
@[simp] theorem rawTake_fcmd (n : Nat) (s : State) : ((rawTake n s).2).fcmd = s.fcmd := rfl
@[simp] theorem rawTake_finfo (n : Nat) (s : State) : ((rawTake n s).2).finfo = s.finfo := rfl
@[simp] theorem rawTake_pending (n : Nat) (s : State) : ((rawTake n s).2).pending = s.pending := rfl
@[simp] theorem rawTake_params (n : Nat) (s : State) : ((rawTake n s).2).params = s.params := rfl
@[simp] theorem rawTake_program (n : Nat) (s : State) : ((rawTake n s).2).program = s.program := rfl
@[simp] theorem rawTake_replies (n : Nat) (s : State) : ((rawTake n s).2).replies = s.replies := rfl
@[simp] theorem rawTake_polls (n : Nat) (s : State) : ((rawTake n s).2).polls = s.polls := rfl

end Sys2Proof.Machine
end

