-- ==== Sys2Proof/Laws/Normalize.lean ====
section
/-! SUPPORT. Everything Normalize can do (40_init_normalize.md R122 to R124): what it leaves alone, and what it leaves
when entered with VAL < RNG. -/

namespace Sys2Proof.Machine

/-- A property of states that one iteration keeps, Normalize keeps. -/
theorem normalizeLoop_keeps {P : State → Prop} (h : ∀ s, P s → P (normalizeOnce s)) (n : Nat) (s : State)
    (hs : P s) : P (normalizeLoop n s) := by
  induction n generalizing s with
  | zero => exact hs
  | succ n ih =>
    simp only [normalizeLoop]
    split
    · exact ih _ (h s hs)
    · exact hs

@[simp] theorem normalizeRange_buf (s : State) : (normalizeRange s).buf = s.buf :=
  normalizeLoop_keeps (P := fun t => t.buf = s.buf) (fun _ h => h) 3 s rfl

@[simp] theorem normalizeRange_tbl (s : State) : (normalizeRange s).tbl = s.tbl :=
  normalizeLoop_keeps (P := fun t => t.tbl = s.tbl) (fun _ h => h) 3 s rfl

@[simp] theorem normalizeRange_arg0 (s : State) : (normalizeRange s).arg0 = s.arg0 :=
  normalizeLoop_keeps (P := fun t => t.arg0 = s.arg0) (fun _ h => h) 3 s rfl

@[simp] theorem normalizeRange_arg1 (s : State) : (normalizeRange s).arg1 = s.arg1 :=
  normalizeLoop_keeps (P := fun t => t.arg1 = s.arg1) (fun _ h => h) 3 s rfl

@[simp] theorem normalizeRange_arg2 (s : State) : (normalizeRange s).arg2 = s.arg2 :=
  normalizeLoop_keeps (P := fun t => t.arg2 = s.arg2) (fun _ h => h) 3 s rfl

@[simp] theorem normalizeRange_result (s : State) : (normalizeRange s).result = s.result :=
  normalizeLoop_keeps (P := fun t => t.result = s.result) (fun _ h => h) 3 s rfl

@[simp] theorem normalizeRange_len (s : State) : (normalizeRange s).len = s.len :=
  normalizeLoop_keeps (P := fun t => t.len = s.len) (fun _ h => h) 3 s rfl

@[simp] theorem normalizeRange_endPos (s : State) : (normalizeRange s).endPos = s.endPos :=
  normalizeLoop_keeps (P := fun t => t.endPos = s.endPos) (fun _ h => h) 3 s rfl

@[simp] theorem normalizeRange_window (s : State) : (normalizeRange s).window = s.window :=
  normalizeLoop_keeps (P := fun t => t.window = s.window) (fun _ h => h) 3 s rfl

@[simp] theorem normalizeRange_avail (s : State) : (normalizeRange s).avail = s.avail :=
  normalizeLoop_keeps (P := fun t => t.avail = s.avail) (fun _ h => h) 3 s rfl

@[simp] theorem normalizeRange_ready (s : State) : (normalizeRange s).ready = s.ready :=
  normalizeLoop_keeps (P := fun t => t.ready = s.ready) (fun _ h => h) 3 s rfl

@[simp] theorem normalizeRange_fault (s : State) : (normalizeRange s).fault = s.fault :=
  normalizeLoop_keeps (P := fun t => t.fault = s.fault) (fun _ h => h) 3 s rfl

@[simp] theorem normalizeRange_errSeen (s : State) : (normalizeRange s).errSeen = s.errSeen :=
  normalizeLoop_keeps (P := fun t => t.errSeen = s.errSeen) (fun _ h => h) 3 s rfl

@[simp] theorem normalizeRange_ecode (s : State) : (normalizeRange s).ecode = s.ecode :=
  normalizeLoop_keeps (P := fun t => t.ecode = s.ecode) (fun _ h => h) 3 s rfl

@[simp] theorem normalizeRange_fcode (s : State) : (normalizeRange s).fcode = s.fcode :=
  normalizeLoop_keeps (P := fun t => t.fcode = s.fcode) (fun _ h => h) 3 s rfl

@[simp] theorem normalizeRange_fcmd (s : State) : (normalizeRange s).fcmd = s.fcmd :=
  normalizeLoop_keeps (P := fun t => t.fcmd = s.fcmd) (fun _ h => h) 3 s rfl

@[simp] theorem normalizeRange_finfo (s : State) : (normalizeRange s).finfo = s.finfo :=
  normalizeLoop_keeps (P := fun t => t.finfo = s.finfo) (fun _ h => h) 3 s rfl

@[simp] theorem normalizeRange_pending (s : State) : (normalizeRange s).pending = s.pending :=
  normalizeLoop_keeps (P := fun t => t.pending = s.pending) (fun _ h => h) 3 s rfl

@[simp] theorem normalizeRange_params (s : State) : (normalizeRange s).params = s.params :=
  normalizeLoop_keeps (P := fun t => t.params = s.params) (fun _ h => h) 3 s rfl

@[simp] theorem normalizeRange_program (s : State) : (normalizeRange s).program = s.program :=
  normalizeLoop_keeps (P := fun t => t.program = s.program) (fun _ h => h) 3 s rfl

@[simp] theorem normalizeRange_replies (s : State) : (normalizeRange s).replies = s.replies :=
  normalizeLoop_keeps (P := fun t => t.replies = s.replies) (fun _ h => h) 3 s rfl

@[simp] theorem normalizeRange_polls (s : State) : (normalizeRange s).polls = s.polls :=
  normalizeLoop_keeps (P := fun t => t.polls = s.polls) (fun _ h => h) 3 s rfl

@[simp] theorem normalizeRange_frontByte (s : State) (i : Nat) : (normalizeRange s).frontByte i = s.frontByte i := by
  simp [State.frontByte]

@[simp] theorem normalizeOnce_frontByte (s : State) (i : Nat) :
    (normalizeOnce s).frontByte i = s.frontByte i := rfl

/-- The shifted-in byte of one iteration is a byte. -/
theorem normalizeOnce_sym_le (s : State) :
    s.rem.toNat * 2 ^ 7 + (s.frontByte s.pos.toNat).toNat / 2 ≤ 255 := by
  have h1 := s.rem.isLt
  have h2 := (s.frontByte s.pos.toNat).isLt
  omega

/-- One iteration entered with VAL < RNG ≤ 2^23: no overflow, and VAL < RNG again (40_init_normalize.md R124 items 1
and 2). -/
theorem normalizeOnce_spec {s : State} (hr : s.rng.toNat ≤ normThreshold) (hv : s.val.toNat < s.rng.toNat) :
    (normalizeOnce s).rng.toNat = s.rng.toNat * 2 ^ 8 ∧
    (normalizeOnce s).val.toNat =
      s.val.toNat * 2 ^ 8 + (255 - (s.rem.toNat * 2 ^ 7 + (s.frontByte s.pos.toNat).toNat / 2)) ∧
    (normalizeOnce s).val.toNat < (normalizeOnce s).rng.toNat ∧
    (normalizeOnce s).rng.toNat ≤ 2 ^ 31 := by
  have hs := normalizeOnce_sym_le s
  simp only [normThreshold] at hr
  have h1 : (normalizeOnce s).rng.toNat = s.rng.toNat * 2 ^ 8 := w32_toNat_of_lt (by omega)
  have h2 : (normalizeOnce s).val.toNat =
      s.val.toNat * 2 ^ 8 + (255 - (s.rem.toNat * 2 ^ 7 + (s.frontByte s.pos.toNat).toNat / 2)) :=
    w32_toNat_of_lt (by omega)
  refine ⟨h1, h2, ?_, ?_⟩
  · rw [h1, h2]; omega
  · rw [h1]; omega

/-- The loop is its first `k` iterations, for the least `k` at which RNG is above the threshold. -/
theorem normalizeLoop_iterate {n : Nat} {s : State} (hn : normThreshold < s.rng.toNat * 2 ^ (8 * n))
    (hv : s.val.toNat < s.rng.toNat) :
    ∃ k ≤ n, normalizeLoop n s = normalizeOnce^[k] s ∧
      (∀ j < k, (normalizeOnce^[j] s).rng.toNat ≤ normThreshold) ∧
      normThreshold < (normalizeOnce^[k] s).rng.toNat ∧
      (normalizeOnce^[k] s).rng.toNat = s.rng.toNat * 2 ^ (8 * k) ∧
      (normalizeOnce^[k] s).val.toNat < (normalizeOnce^[k] s).rng.toNat ∧
      (normalizeOnce^[k] s).pos.toNat = satAdd s.pos.toNat k ∧
      (normalizeOnce^[k] s).totalBits.toNat = satAdd s.totalBits.toNat (8 * k) ∧
      (0 < k → (normalizeOnce^[k] s).rng.toNat ≤ 2 ^ 31) := by
  induction n generalizing s with
  | zero =>
    refine ⟨0, le_rfl, rfl, by simp, by simpa using hn, by simp, by simpa using hv, ?_, ?_, by simp⟩
    · exact (satAdd_zero s.pos.isLt).symm
    · exact (satAdd_zero s.totalBits.isLt).symm
  | succ n ih =>
    by_cases hr : s.rng.toNat ≤ normThreshold
    · obtain ⟨h1, h2, h3, h4⟩ := normalizeOnce_spec hr hv
      have hn' : normThreshold < (normalizeOnce s).rng.toNat * 2 ^ (8 * n) := by
        rw [h1, Nat.mul_assoc, ← Nat.pow_add]
        have : 8 + 8 * n = 8 * (n + 1) := by omega
        rwa [this]
      obtain ⟨k, hk, e, below, above, hrng, hval, hpos, htot, hle⟩ := ih hn' h3
      refine ⟨k + 1, by omega, ?_, ?_, ?_, ?_, ?_, ?_, ?_, ?_⟩
      · simp only [normalizeLoop, hr, if_true, Function.iterate_succ_apply]; exact e
      · intro j hj
        cases j with
        | zero => exact hr
        | succ j => rw [Function.iterate_succ_apply]; exact below j (by omega)
      · rw [Function.iterate_succ_apply]; exact above
      · rw [Function.iterate_succ_apply, hrng, h1, Nat.mul_assoc, ← Nat.pow_add]
        congr 2; omega
      · rw [Function.iterate_succ_apply]; exact hval
      · rw [Function.iterate_succ_apply, hpos]
        simp only [normalizeOnce_pos, satInc, satAdd_toNat, satAdd_assoc]
        congr 1; omega
      · rw [Function.iterate_succ_apply, htot]
        simp only [normalizeOnce_totalBits, satAdd_toNat, satAdd_assoc]
        congr 1; omega
      · intro _
        rw [Function.iterate_succ_apply]
        cases k with
        | zero => exact h4
        | succ k => exact hle (by omega)
    · refine ⟨0, by omega, ?_, by simp, by simpa using hr, by simp, by simpa using hv, ?_, ?_, by simp⟩
      · simp [normalizeLoop, hr]
      · exact (satAdd_zero s.pos.isLt).symm
      · exact (satAdd_zero s.totalBits.isLt).symm

/-- Three iterations are enough whenever RNG ≥ 1 (40_init_normalize.md R124 item 3, log 8). -/
theorem three_iterations {r : Nat} (h : 1 ≤ r) : normThreshold < r * 2 ^ (8 * 3) := by
  simp only [normThreshold]; omega

/-- Above the threshold Normalize does nothing. -/
theorem normalizeRange_of_lt {s : State} (h : normThreshold < s.rng.toNat) : normalizeRange s = s := by
  have : ¬ s.rng.toNat ≤ normThreshold := by omega
  simp [normalizeRange, normalizeLoop, this]

/-- What Normalize leaves (40_init_normalize.md R124). -/
theorem normalizeRange_spec {s : State} (hv : s.val.toNat < s.rng.toNat) :
    2 ^ 23 < (normalizeRange s).rng.toNat ∧ (normalizeRange s).val.toNat < (normalizeRange s).rng.toNat ∧
    s.pos.toNat ≤ (normalizeRange s).pos.toNat ∧ s.totalBits.toNat ≤ (normalizeRange s).totalBits.toNat := by
  obtain ⟨k, -, e, -, above, -, hval, hpos, htot, -⟩ :=
    normalizeLoop_iterate (three_iterations (by omega : 1 ≤ s.rng.toNat)) hv
  rw [normalizeRange, e]
  refine ⟨by simpa [normThreshold] using above, hval, ?_, ?_⟩
  · rw [hpos]; exact le_satAdd _ s.pos.isLt
  · rw [htot]; exact le_satAdd _ s.totalBits.isLt

end Sys2Proof.Machine
end

