-- ==== Sys2Proof/Laws/Symbol.lean ====
section
/-! SUPPORT. DecodeCore, UpdateCore (41_symbol_decode.md R141, R144, R145) and the dispatch around every command
(60_exceptions.md R236): one lemma per outcome. -/

namespace Sys2Proof.Machine

/-! ### Dispatch -/

theorem dispatch_accepting {s : State} (h : Accepting s) (w : Word) (b : Except Abort State) :
    dispatch w s b = settle w s b := by
  simp [dispatch, h.ready, h.no_fault]

theorem dispatch_fault {s : State} (h : s.fault = true) (w : Word) (b : Except Abort State) :
    dispatch w s b = .next s := by
  simp [dispatch, h]

theorem dispatch_not_ready {s : State} (hf : s.fault = false) (hr : s.ready = false) (w : Word)
    (b : Except Abort State) : dispatch w s b = .next (raiseFault w .notReady 0 s) := by
  simp [dispatch, hf, hr]

/-- Everything the dispatch can answer as a next state. -/
theorem dispatch_next {w : Word} {s t : State} {b : Except Abort State} (h : dispatch w s b = .next t) :
    (s.fault = true ∧ t = s) ∨
    (s.fault = false ∧ s.ready = false ∧ t = raiseFault w .notReady 0 s) ∨
    (Accepting s ∧ ((b = .ok t) ∨ ∃ f i, b = .error (.raise f i) ∧ t = raiseFault w f i s)) := by
  unfold dispatch at h
  split at h
  · rename_i hf; exact .inl ⟨hf, (Host.Outcome.next.inj h).symm⟩
  · rename_i hf
    have hf : s.fault = false := by simpa using hf
    split at h
    · rename_i hr
      refine .inr (.inr ⟨⟨hr, hf⟩, ?_⟩)
      match b, h with
      | .ok u, h => exact .inl (by rw [Host.Outcome.next.inj h])
      | .error (.raise f i), h => exact .inr ⟨f, i, rfl, (Host.Outcome.next.inj h).symm⟩
    · rename_i hr
      exact .inr (.inl ⟨hf, by simpa using hr, (Host.Outcome.next.inj h).symm⟩)

/-! ### DecodeCore -/

theorem div_ne_zero_iff {a b : Nat} (hb : b ≠ 0) : a / b = 0 ↔ a < b := Nat.div_eq_zero_iff_lt (by omega)

theorem decodeCore_ok {ft : Nat} {s : State} (h0 : ft ≠ 0) (h : ft ≤ s.rng.toNat) :
    decodeCore ft s = .ok (ft - min (s.val.toNat / (s.rng.toNat / ft) + 1) ft) := by
  have : ¬ (ft = 0 ∨ s.rng.toNat / ft = 0) := by
    rw [div_ne_zero_iff h0]; omega
  rw [decodeCore, if_neg this]; rfl

theorem decodeCore_error {ft : Nat} {s : State} (h : ft = 0 ∨ s.rng.toNat < ft) :
    decodeCore ft s = .error (.raise .divZero (w32 ft)) := by
  have : ft = 0 ∨ s.rng.toNat / ft = 0 := by
    rcases h with h | h
    · exact .inl h
    · exact .inr (Nat.div_eq_of_lt h)
  rw [decodeCore, if_pos this]

/-- DecodeCore either raises DIV_ZERO or finds an offset below ft. -/
theorem decodeCore_cases (ft : Nat) (s : State) :
    ((ft = 0 ∨ s.rng.toNat < ft) ∧ decodeCore ft s = .error (.raise .divZero (w32 ft))) ∨
    (ft ≠ 0 ∧ ft ≤ s.rng.toNat ∧ ∃ fs < ft, decodeCore ft s = .ok fs ∧
      fs = ft - min (s.val.toNat / (s.rng.toNat / ft) + 1) ft) := by
  by_cases h : ft = 0 ∨ s.rng.toNat < ft
  · exact .inl ⟨h, decodeCore_error h⟩
  · have h0 : ft ≠ 0 := fun e => h (.inl e)
    have h1 : ft ≤ s.rng.toNat := Nat.le_of_not_lt fun e => h (.inr e)
    exact .inr ⟨h0, h1, _, Nat.sub_lt (by omega) (Nat.lt_min.mpr ⟨Nat.succ_pos _, by omega⟩), decodeCore_ok h0 h1, rfl⟩

/-! ### UpdateCore -/

theorem updateVal_le (fh ft : Nat) (s : State) : updateVal fh ft s ≤ s.val.toNat := Nat.sub_le _ _

theorem updateVal_lt (fh ft : Nat) (s : State) : updateVal fh ft s < 2 ^ 32 :=
  Nat.lt_of_le_of_lt (updateVal_le fh ft s) s.val.isLt

theorem updateRng_lt (fl fh ft : Nat) (s : State) : updateRng fl fh ft s < 2 ^ 32 := by
  unfold updateRng
  split
  · exact satMul_lt _ _
  · exact Nat.lt_of_le_of_lt (Nat.sub_le _ _) s.rng.isLt

/-- Everything UpdateCore can do. -/
theorem updateCore_cases (fl fh ft : Nat) (s : State) :
    ((ft = 0 ∨ s.rng.toNat < ft) ∧ updateCore fl fh ft s = .error (.raise .divZero (w32 ft))) ∨
    (ft ≠ 0 ∧ ft ≤ s.rng.toNat ∧ updateRng fl fh ft s ≤ updateVal fh ft s ∧
      updateCore fl fh ft s = .error (.raise .updateContract (w32 (updateRng fl fh ft s)))) ∨
    (ft ≠ 0 ∧ ft ≤ s.rng.toNat ∧ updateVal fh ft s < updateRng fl fh ft s ∧
      updateCore fl fh ft s =
        .ok (normalizeRange { s with val := w32 (updateVal fh ft s), rng := w32 (updateRng fl fh ft s) })) := by
  by_cases h : ft = 0 ∨ s.rng.toNat < ft
  · have : ft = 0 ∨ s.rng.toNat / ft = 0 := by
      rcases h with h | h
      · exact .inl h
      · exact .inr (Nat.div_eq_of_lt h)
    exact .inl ⟨h, by rw [updateCore, if_pos this]⟩
  · have h0 : ft ≠ 0 := fun e => h (.inl e)
    have h1 : ft ≤ s.rng.toNat := Nat.le_of_not_lt fun e => h (.inr e)
    have hn : ¬ (ft = 0 ∨ s.rng.toNat / ft = 0) := by rw [div_ne_zero_iff h0]; omega
    by_cases hc : updateRng fl fh ft s ≤ updateVal fh ft s
    · exact .inr (.inl ⟨h0, h1, hc, by rw [updateCore, if_neg hn]; exact if_pos hc⟩)
    · exact .inr (.inr ⟨h0, h1, by omega, by rw [updateCore, if_neg hn]; exact if_neg hc⟩)

/-- Below the end of the space no product of UpdateCore clamps (41_symbol_decode.md R145). -/
theorem updateVal_unclamped {fh ft : Nat} {s : State} :
    updateVal fh ft s = s.val.toNat - s.rng.toNat / ft * (ft - fh) := by
  have hmul : s.rng.toNat / ft * (ft - fh) ≤ s.rng.toNat :=
    le_trans (Nat.mul_le_mul_left _ (Nat.sub_le _ _)) (Nat.div_mul_le_self _ _)
  have := s.rng.isLt
  rw [updateVal, satSub, satSub, satMul_eq (by omega)]

theorem updateRng_unclamped {fl fh ft : Nat} {s : State} (h : fh ≤ ft) :
    updateRng fl fh ft s = (if 0 < fl then s.rng.toNat / ft * (fh - fl)
      else s.rng.toNat - s.rng.toNat / ft * (ft - fh)) := by
  have hmul : ∀ k ≤ ft, s.rng.toNat / ft * k ≤ s.rng.toNat := fun k hk =>
    le_trans (Nat.mul_le_mul_left _ hk) (Nat.div_mul_le_self _ _)
  have h1 := hmul (fh - fl) (by omega)
  have h2 := hmul (ft - fh) (by omega)
  have := s.rng.isLt
  simp only [updateRng, satSub, satMul_eq (show s.rng.toNat / ft * (fh - fl) < 2 ^ 32 by omega),
    satMul_eq (show s.rng.toNat / ft * (ft - fh) < 2 ^ 32 by omega)]

/-- What UpdateCore leaves when it completes: normalized, VAL < RNG, the cursors not moved back. -/
theorem updateCore_spec {fl fh ft : Nat} {s t : State} (h : updateCore fl fh ft s = .ok t) :
    ∃ v r : Word, v.toNat < r.toNat ∧ t = normalizeRange { s with val := v, rng := r } := by
  rcases updateCore_cases fl fh ft s with ⟨-, e⟩ | ⟨-, -, -, e⟩ | ⟨-, -, hlt, e⟩
  · rw [e] at h; cases h
  · rw [e] at h; cases h
  · rw [e] at h
    refine ⟨_, _, ?_, (Except.ok.inj h).symm⟩
    rw [w32_toNat_of_lt (updateVal_lt fh ft s), w32_toNat_of_lt (updateRng_lt fl fh ft s)]
    exact hlt

/-- The caller contract: an interval of `[0, ft)` that holds the decoded offset is taken exactly, without a fault
and without saturation (41_symbol_decode.md R145). -/
theorem updateCore_contract {fl fh ft fs : Nat} {s : State} (hv : s.val.toNat < s.rng.toNat)
    (hd : decodeCore ft s = .ok fs) (h1 : fl < fh) (h2 : fh ≤ ft) (h3 : fl ≤ fs) (h4 : fs < fh) :
    updateCore fl fh ft s = .ok (normalizeRange { s with
      val := w32 (s.val.toNat - s.rng.toNat / ft * (ft - fh))
      rng := w32 (if 0 < fl then s.rng.toNat / ft * (fh - fl)
        else s.rng.toNat - s.rng.toNat / ft * (ft - fh)) }) ∧
    s.rng.toNat / ft * (ft - fh) ≤ s.val.toNat ∧
    s.val.toNat - s.rng.toNat / ft * (ft - fh) < (if 0 < fl then s.rng.toNat / ft * (fh - fl)
        else s.rng.toNat - s.rng.toNat / ft * (ft - fh)) ∧
    (if 0 < fl then s.rng.toNat / ft * (fh - fl)
        else s.rng.toNat - s.rng.toNat / ft * (ft - fh)) ≤ s.rng.toNat := by
  rcases decodeCore_cases ft s with ⟨-, e⟩ | ⟨h0, hle, fs', -, e, hfs⟩
  · rw [e] at hd; cases hd
  rw [e] at hd
  obtain rfl : fs' = fs := Except.ok.inj hd
  have hn : s.rng.toNat / ft ≠ 0 := by rw [Ne, div_ne_zero_iff h0]; omega
  have hmul : s.rng.toNat / ft * ft ≤ s.rng.toNat := Nat.div_mul_le_self _ _
  have hrl := s.rng.isLt
  have hvl := s.val.isLt
  generalize hS : s.rng.toNat / ft = S at *
  have hq1 : S * (s.val.toNat / S) ≤ s.val.toNat := Nat.mul_div_le _ _
  have hq2 : s.val.toNat < S * (s.val.toNat / S + 1) := Nat.lt_mul_div_succ _ (by omega)
  generalize s.val.toNat / S = q at *
  have hsub : S * (ft - fh) ≤ S * q := Nat.mul_le_mul_left _ (by omega)
  have hfh : S * (ft - fh) + S * fh = S * ft := by rw [← Nat.mul_add]; congr 1; omega
  have hft : S * ft ≤ s.rng.toNat := hmul
  have hlt : s.val.toNat - S * (ft - fh) < (if 0 < fl then S * (fh - fl) else s.rng.toNat - S * (ft - fh)) := by
    split
    · have h5 : S * (q + 1) ≤ S * (ft - fl) := Nat.mul_le_mul_left _ (by omega)
      have h6 : S * (ft - fl) = S * (ft - fh) + S * (fh - fl) := by rw [← Nat.mul_add]; congr 1; omega
      omega
    · omega
  have hr : (if 0 < fl then S * (fh - fl) else s.rng.toNat - S * (ft - fh)) ≤ s.rng.toNat := by
    split
    · have : S * (fh - fl) ≤ S * fh := Nat.mul_le_mul_left _ (by omega)
      omega
    · omega
  have ev : updateVal fh ft s = s.val.toNat - S * (ft - fh) := by rw [updateVal_unclamped, hS]
  have er : updateRng fl fh ft s = (if 0 < fl then S * (fh - fl) else s.rng.toNat - S * (ft - fh)) := by
    rw [updateRng_unclamped h2, hS]
  refine ⟨?_, by omega, hlt, hr⟩
  rcases updateCore_cases fl fh ft s with ⟨h, -⟩ | ⟨-, -, h, -⟩ | ⟨-, -, -, h⟩
  · omega
  · rw [ev, er] at h; omega
  · rw [h, ev, er]

end Sys2Proof.Machine
end

