-- ==== Sys2Proof/Laws/Laplace.lean ====
section
/-! SUPPORT. Everything the Laplace search can do (44_laplace.md R201, R202). -/

namespace Sys2Proof.Machine

/-- What every iteration keeps: `fl` has not passed `fm`, the step is at least 1, and each unit of the magnitude moved
`fl` by at least 2 (44_laplace.md R202 items 2 and 6). -/
structure LaplaceInv (fm : Nat) (v : LaplaceVars) : Prop where
  fl_le : v.fl ≤ fm
  fsc_pos : 1 ≤ v.fsc
  mag_pos : 1 ≤ v.mag
  mag_le : 2 * v.mag ≤ v.fl + 2

theorem laplaceStart_inv {fm fs : Nat} (decay : Nat) (h : fs ≤ fm) : LaplaceInv fm (laplaceStart fs decay) := by
  constructor <;> simp [laplaceStart, laplaceMinp, h]

theorem laplaceOnce_inv {fm decay : Nat} {v : LaplaceVars} (h : LaplaceInv fm v)
    (hc : laplaceMinp < v.fsc ∧ v.fl + 2 * v.fsc ≤ fm) : LaplaceInv fm (laplaceOnce decay v) := by
  obtain ⟨h1, h2, h3, h4⟩ := h
  simp only [laplaceMinp] at hc
  constructor <;> simp only [laplaceOnce, laplaceMinp] <;> omega

/-- The loop keeps the invariant, and with enough fuel it ends at its own exit test: the fuel only has to cover the
room `fl` has left, 4 per iteration (44_laplace.md R202 item 5). -/
theorem laplaceLoop_spec {fm decay fuel : Nat} {v : LaplaceVars} (h : LaplaceInv fm v)
    (hf : fm < v.fl + 4 * fuel) :
    LaplaceInv fm (laplaceLoop fm decay fuel v) ∧
    ¬ (laplaceMinp < (laplaceLoop fm decay fuel v).fsc ∧
      (laplaceLoop fm decay fuel v).fl + 2 * (laplaceLoop fm decay fuel v).fsc ≤ fm) := by
  induction fuel generalizing v with
  | zero => have := h.fl_le; omega
  | succ fuel ih =>
    simp only [laplaceLoop]
    split
    · rename_i hc
      refine ih (laplaceOnce_inv h hc) ?_
      have : 1 < v.fsc := hc.1
      simp only [laplaceOnce]; omega
    · rename_i hc; exact ⟨h, hc⟩

/-- The loop is its first `k` iterations, each entered with its test true, and then the test is false. -/
theorem laplaceLoop_iterate {fm decay fuel : Nat} {v : LaplaceVars} (h : LaplaceInv fm v)
    (hf : fm < v.fl + 4 * fuel) :
    ∃ k ≤ fuel, laplaceLoop fm decay fuel v = (laplaceOnce decay)^[k] v ∧
      (∀ j < k, laplaceMinp < ((laplaceOnce decay)^[j] v).fsc ∧
        ((laplaceOnce decay)^[j] v).fl + 2 * ((laplaceOnce decay)^[j] v).fsc ≤ fm) ∧
      ¬ (laplaceMinp < ((laplaceOnce decay)^[k] v).fsc ∧
        ((laplaceOnce decay)^[k] v).fl + 2 * ((laplaceOnce decay)^[k] v).fsc ≤ fm) := by
  induction fuel generalizing v with
  | zero => have := h.fl_le; omega
  | succ fuel ih =>
    by_cases hc : laplaceMinp < v.fsc ∧ v.fl + 2 * v.fsc ≤ fm
    · have hroom : fm < (laplaceOnce decay v).fl + 4 * fuel := by
        have : 1 < v.fsc := hc.1
        simp only [laplaceOnce]; omega
      obtain ⟨k, hk, e, before, after⟩ := ih (laplaceOnce_inv h hc) hroom
      refine ⟨k + 1, by omega, ?_, ?_, ?_⟩
      · simp only [laplaceLoop, if_pos hc, Function.iterate_succ_apply]; exact e
      · intro j hj
        cases j with
        | zero => exact hc
        | succ j => rw [Function.iterate_succ_apply]; exact before j (by omega)
      · rw [Function.iterate_succ_apply]; exact after
    · exact ⟨0, by omega, by simp [laplaceLoop, hc], by simp, hc⟩

/-- The search leaves an interval that holds `fm`, and a magnitude of at most 16384 (44_laplace.md R202 items 2, 3
and 6). -/
theorem laplaceSearch_spec {fm fs decay : Nat} (h : fm < laplaceTotal) :
    (laplaceSearch fm fs decay).2.1 ≤ fm ∧
    fm < (laplaceSearch fm fs decay).2.1 + (laplaceSearch fm fs decay).2.2 ∧
    (laplaceSearch fm fs decay).1.natAbs ≤ 16384 ∧
    (fs ≤ fm ↔ (laplaceSearch fm fs decay).1 ≠ 0) := by
  simp only [laplaceTotal] at h
  by_cases hfs : fs ≤ fm
  · obtain ⟨hi, hx⟩ := laplaceLoop_spec (decay := decay) (fuel := 8192) (laplaceStart_inv decay hfs)
      (by simp only [laplaceStart]; omega)
    rw [laplaceSearch, if_pos hfs]
    generalize laplaceLoop fm decay 8192 (laplaceStart fs decay) = v at hi hx
    obtain ⟨h1, h2, h3, h4⟩ := hi
    simp only [laplaceMinp] at hx
    have hcol : (laplaceCollapse fm v).fl ≤ fm ∧ fm < (laplaceCollapse fm v).fl + 2 * (laplaceCollapse fm v).fsc ∧
        1 ≤ (laplaceCollapse fm v).mag ∧ 2 * (laplaceCollapse fm v).mag ≤ (laplaceCollapse fm v).fl + 2 := by
      by_cases hc : v.fsc ≤ 1 <;> simp only [laplaceCollapse, laplaceMinp, laplaceLogMinp, hc, if_true, if_false] <;> omega
    generalize laplaceCollapse fm v = u at hcol
    simp only [laplaceSign]
    split <;> simp <;> omega
  · rw [laplaceSearch, if_neg hfs]
    simp; omega

end Sys2Proof.Machine
end

