-- ==== Sys2Proof/Laws/Raw.lean ====
section
/-! SUPPORT. Everything RawBits can do (43_raw_bits.md R181, R182): the bits it takes are the window below the tail
bytes it fetches. -/

namespace Sys2Proof.Machine

/-- A cursor at or past 2^32 - 1 reads 0, as its saturated value does (20_memory.md R71, 10_state.md R29). -/
theorem tailByte_satAdd (s : State) (a b c : Nat) :
    s.tailByte (satAdd a b + c) = s.tailByte (a + b + c) := by
  have hl := s.len.isLt
  by_cases h : a + b ≤ maxU32
  · rw [satAdd, Nat.min_eq_left h]
  · have h1 : ¬ satAdd a b + c < s.len.toNat := by
      simp only [satAdd, maxU32] at *; omega
    have h2 : ¬ a + b + c < s.len.toNat := by
      simp only [maxU32] at *; omega
    simp [State.tailByte, h1, h2]

@[simp] theorem rawFetch_tailByte (s : State) (k : Nat) : (rawFetch s).tailByte k = s.tailByte k := rfl

/-- OR-ing bits at and above the window's width adds them. -/
theorem window_or {w a b : Nat} (h : w < 2 ^ a) : w ||| b * 2 ^ a = w + b * 2 ^ a := by
  rw [Nat.lor_comm, Nat.mul_comm, Nat.add_comm w, ← Nat.two_pow_add_eq_or_of_lt h]

/-- One fetch, entered with fewer than 25 bits available. -/
theorem rawFetch_spec {s : State} (ha : s.avail.toNat ≤ 24) (hw : s.window.toNat < 2 ^ s.avail.toNat) :
    (rawFetch s).avail.toNat = s.avail.toNat + 8 ∧
    (rawFetch s).window.toNat =
      s.window.toNat + (s.tailByte s.endPos.toNat).toNat * 2 ^ s.avail.toNat ∧
    (rawFetch s).window.toNat < 2 ^ (s.avail.toNat + 8) ∧
    (rawFetch s).endPos.toNat = satAdd s.endPos.toNat 1 := by
  have hb := (s.tailByte s.endPos.toNat).isLt
  have hlt : s.window.toNat + (s.tailByte s.endPos.toNat).toNat * 2 ^ s.avail.toNat < 2 ^ (s.avail.toNat + 8) := by
    have h1 : (s.tailByte s.endPos.toNat).toNat * 2 ^ s.avail.toNat ≤ 255 * 2 ^ s.avail.toNat :=
      Nat.mul_le_mul_right _ (by omega)
    rw [Nat.pow_add]; omega
  have h32 : 2 ^ (s.avail.toNat + 8) ≤ 2 ^ 32 := Nat.pow_le_pow_right (by omega) (by omega)
  have hwin : (rawFetch s).window.toNat =
      s.window.toNat + (s.tailByte s.endPos.toNat).toNat * 2 ^ s.avail.toNat := by
    rw [rawFetch_window, window_or hw, w32_toNat_of_lt (by omega)]
  refine ⟨?_, hwin, by rw [hwin]; exact hlt, ?_⟩
  · rw [rawFetch_avail, BitVec.toNat_ofNat, Nat.mod_eq_of_lt (by omega)]
  · rw [rawFetch_endPos, satInc, satAdd_toNat]

/-- The fetch loop: it fetches `f` bytes, the least number that makes `n` bits available, and lays them above the
window. -/
theorem rawFill_spec {n fuel : Nat} {s : State} (hn : n ≤ 25) (hf : n ≤ s.avail.toNat + 8 * fuel)
    (ha : s.avail.toNat ≤ 32) (hw : s.window.toNat < 2 ^ s.avail.toNat) :
    ∃ f ≤ fuel, rawFill n fuel s = rawFetch^[f] s ∧
      n ≤ s.avail.toNat + 8 * f ∧ (f = 0 ∨ s.avail.toNat + 8 * f < n + 8) ∧
      (rawFetch^[f] s).avail.toNat = s.avail.toNat + 8 * f ∧
      (rawFetch^[f] s).window.toNat = s.window.toNat +
        2 ^ s.avail.toNat * ∑ j ∈ Finset.range f, (s.tailByte (s.endPos.toNat + j)).toNat * 256 ^ j ∧
      (rawFetch^[f] s).window.toNat < 2 ^ (s.avail.toNat + 8 * f) ∧
      (rawFetch^[f] s).endPos.toNat = satAdd s.endPos.toNat f := by
  induction fuel generalizing s with
  | zero =>
    exact ⟨0, le_rfl, rfl, by simpa using hf, .inl rfl, rfl, by simp, by simpa using hw,
      (satAdd_zero s.endPos.isLt).symm⟩
  | succ fuel ih =>
    by_cases hlt : s.avail.toNat < n
    · obtain ⟨h1, h2, h3, h4⟩ := rawFetch_spec (by omega) hw
      obtain ⟨f, hff, e, e1, e2, e3, e4, e5, e6⟩ := ih (s := rawFetch s) (by omega) (by omega) (by rw [h1]; exact h3)
      rw [h1] at e1 e2 e3 e4 e5
      refine ⟨f + 1, by omega, ?_, by omega, .inr (by omega), ?_, ?_, ?_, ?_⟩
      · simp only [rawFill, hlt, if_true, Function.iterate_succ_apply]; exact e
      · rw [Function.iterate_succ_apply, e3]; omega
      · rw [Function.iterate_succ_apply, e4, h2, Finset.sum_range_succ']
        have hs : ∀ j, ((rawFetch s).tailByte ((rawFetch s).endPos.toNat + j)).toNat * 256 ^ j =
            (s.tailByte (s.endPos.toNat + (j + 1))).toNat * 256 ^ j := by
          intro j
          rw [rawFetch_tailByte, h4, tailByte_satAdd, Nat.add_assoc, Nat.add_comm 1 j]
        simp only [hs, Nat.pow_succ, ← Nat.mul_assoc, ← Finset.sum_mul]
        simp only [Nat.add_zero, Nat.pow_zero, Nat.mul_one, Nat.mul_add]
        ring
      · rw [Function.iterate_succ_apply]
        have : s.avail.toNat + 8 * (f + 1) = s.avail.toNat + 8 + 8 * f := by omega
        rw [this]; exact e5
      · rw [Function.iterate_succ_apply, e6, h4, satAdd_assoc, Nat.add_comm 1 f]
    · exact ⟨0, by omega, by simp [rawFill, hlt], by omega, .inl rfl, rfl, by simp, by simpa using hw,
        (satAdd_zero s.endPos.isLt).symm⟩

/-- A property of states that a fetch keeps, the fetch loop keeps. -/
theorem rawFill_keeps {P : State → Prop} (h : ∀ s, P s → P (rawFetch s)) (n fuel : Nat) (s : State) (hs : P s) :
    P (rawFill n fuel s) := by
  induction fuel generalizing s with
  | zero => exact hs
  | succ fuel ih =>
    simp only [rawFill]
    split
    · exact ih _ (h s hs)
    · exact hs

@[simp] theorem rawBits_buf (n : Nat) (s : State) : (rawBits n s).2.buf = s.buf :=
  rawFill_keeps (P := fun t => t.buf = s.buf) (fun _ h => h) n 4 s rfl

@[simp] theorem rawBits_tbl (n : Nat) (s : State) : (rawBits n s).2.tbl = s.tbl :=
  rawFill_keeps (P := fun t => t.tbl = s.tbl) (fun _ h => h) n 4 s rfl

@[simp] theorem rawBits_arg0 (n : Nat) (s : State) : (rawBits n s).2.arg0 = s.arg0 :=
  rawFill_keeps (P := fun t => t.arg0 = s.arg0) (fun _ h => h) n 4 s rfl

@[simp] theorem rawBits_arg1 (n : Nat) (s : State) : (rawBits n s).2.arg1 = s.arg1 :=
  rawFill_keeps (P := fun t => t.arg1 = s.arg1) (fun _ h => h) n 4 s rfl

@[simp] theorem rawBits_arg2 (n : Nat) (s : State) : (rawBits n s).2.arg2 = s.arg2 :=
  rawFill_keeps (P := fun t => t.arg2 = s.arg2) (fun _ h => h) n 4 s rfl

@[simp] theorem rawBits_result (n : Nat) (s : State) : (rawBits n s).2.result = s.result :=
  rawFill_keeps (P := fun t => t.result = s.result) (fun _ h => h) n 4 s rfl

@[simp] theorem rawBits_len (n : Nat) (s : State) : (rawBits n s).2.len = s.len :=
  rawFill_keeps (P := fun t => t.len = s.len) (fun _ h => h) n 4 s rfl

@[simp] theorem rawBits_rng (n : Nat) (s : State) : (rawBits n s).2.rng = s.rng :=
  rawFill_keeps (P := fun t => t.rng = s.rng) (fun _ h => h) n 4 s rfl

@[simp] theorem rawBits_val (n : Nat) (s : State) : (rawBits n s).2.val = s.val :=
  rawFill_keeps (P := fun t => t.val = s.val) (fun _ h => h) n 4 s rfl

@[simp] theorem rawBits_pos (n : Nat) (s : State) : (rawBits n s).2.pos = s.pos :=
  rawFill_keeps (P := fun t => t.pos = s.pos) (fun _ h => h) n 4 s rfl

@[simp] theorem rawBits_rem (n : Nat) (s : State) : (rawBits n s).2.rem = s.rem :=
  rawFill_keeps (P := fun t => t.rem = s.rem) (fun _ h => h) n 4 s rfl

@[simp] theorem rawBits_ready (n : Nat) (s : State) : (rawBits n s).2.ready = s.ready :=
  rawFill_keeps (P := fun t => t.ready = s.ready) (fun _ h => h) n 4 s rfl

@[simp] theorem rawBits_fault (n : Nat) (s : State) : (rawBits n s).2.fault = s.fault :=
  rawFill_keeps (P := fun t => t.fault = s.fault) (fun _ h => h) n 4 s rfl

@[simp] theorem rawBits_errSeen (n : Nat) (s : State) : (rawBits n s).2.errSeen = s.errSeen :=
  rawFill_keeps (P := fun t => t.errSeen = s.errSeen) (fun _ h => h) n 4 s rfl

@[simp] theorem rawBits_ecode (n : Nat) (s : State) : (rawBits n s).2.ecode = s.ecode :=
  rawFill_keeps (P := fun t => t.ecode = s.ecode) (fun _ h => h) n 4 s rfl

@[simp] theorem rawBits_fcode (n : Nat) (s : State) : (rawBits n s).2.fcode = s.fcode :=
  rawFill_keeps (P := fun t => t.fcode = s.fcode) (fun _ h => h) n 4 s rfl

@[simp] theorem rawBits_fcmd (n : Nat) (s : State) : (rawBits n s).2.fcmd = s.fcmd :=
  rawFill_keeps (P := fun t => t.fcmd = s.fcmd) (fun _ h => h) n 4 s rfl

@[simp] theorem rawBits_finfo (n : Nat) (s : State) : (rawBits n s).2.finfo = s.finfo :=
  rawFill_keeps (P := fun t => t.finfo = s.finfo) (fun _ h => h) n 4 s rfl

@[simp] theorem rawBits_pending (n : Nat) (s : State) : (rawBits n s).2.pending = s.pending :=
  rawFill_keeps (P := fun t => t.pending = s.pending) (fun _ h => h) n 4 s rfl

@[simp] theorem rawBits_params (n : Nat) (s : State) : (rawBits n s).2.params = s.params :=
  rawFill_keeps (P := fun t => t.params = s.params) (fun _ h => h) n 4 s rfl

@[simp] theorem rawBits_program (n : Nat) (s : State) : (rawBits n s).2.program = s.program :=
  rawFill_keeps (P := fun t => t.program = s.program) (fun _ h => h) n 4 s rfl

@[simp] theorem rawBits_replies (n : Nat) (s : State) : (rawBits n s).2.replies = s.replies :=
  rawFill_keeps (P := fun t => t.replies = s.replies) (fun _ h => h) n 4 s rfl

@[simp] theorem rawBits_polls (n : Nat) (s : State) : (rawBits n s).2.polls = s.polls :=
  rawFill_keeps (P := fun t => t.polls = s.polls) (fun _ h => h) n 4 s rfl

/-- RawBits(n) takes the low `n` bits of the window with `f` tail bytes laid above it, `f` being the least number of
fetches that makes `n` bits available (43_raw_bits.md R182). -/
theorem rawBits_spec {n : Nat} {s : State} (hn : n ≤ 25) (ha : s.avail.toNat ≤ 7)
    (hw : s.window.toNat < 2 ^ s.avail.toNat) :
    ∃ f full : Nat, n ≤ s.avail.toNat + 8 * f ∧ (f = 0 ∨ s.avail.toNat + 8 * f < n + 8) ∧
      full = s.window.toNat +
        2 ^ s.avail.toNat * ∑ j ∈ Finset.range f, (s.tailByte (s.endPos.toNat + j)).toNat * 256 ^ j ∧
      full < 2 ^ (s.avail.toNat + 8 * f) ∧
      (rawBits n s).1 = full % 2 ^ n ∧
      (rawBits n s).2.window.toNat = full / 2 ^ n ∧
      (rawBits n s).2.avail.toNat = s.avail.toNat + 8 * f - n ∧
      (rawBits n s).2.endPos.toNat = satAdd s.endPos.toNat f ∧
      (rawBits n s).2.totalBits.toNat = satAdd s.totalBits.toNat n := by
  obtain ⟨f, hf, e, e1, e2, e3, e4, e5, e6⟩ := rawFill_spec (fuel := 4) hn (by omega) (by omega) hw
  have ht : (rawFill n 4 s).totalBits = s.totalBits :=
    rawFill_keeps (P := fun t => t.totalBits = s.totalBits) (fun _ h => h) n 4 s rfl
  rw [e4] at e5
  refine ⟨f, _, e1, e2, rfl, e5, ?_, ?_, ?_, ?_, ?_⟩
  · simp only [rawBits, rawTake, e, e4]
  · have hlt : (rawFetch^[f] s).window.toNat / 2 ^ n < 2 ^ 32 :=
      Nat.lt_of_le_of_lt (Nat.div_le_self _ _) (rawFetch^[f] s).window.isLt
    simp only [rawBits, rawTake_window, e]
    rw [w32_toNat_of_lt hlt, e4]
  · simp only [rawBits, rawTake_avail, e, e3, BitVec.toNat_ofNat]
    rw [Nat.mod_eq_of_lt (by omega)]
  · simp only [rawBits, rawTake_endPos, e, e6]
  · simp only [rawBits, rawTake_totalBits, ht, satAdd_toNat]

/-- RawBits keeps the raw channel's invariants: at most 7 bits left, and none above them (10_state.md R25). -/
theorem rawBits_inv {n : Nat} {s : State} (hn : n ≤ 25) (ha : s.avail.toNat ≤ 7)
    (hw : s.window.toNat < 2 ^ s.avail.toNat) :
    (rawBits n s).2.avail.toNat ≤ 7 ∧ (rawBits n s).2.window.toNat < 2 ^ (rawBits n s).2.avail.toNat ∧
    (rawBits n s).1 < 2 ^ n ∧ s.totalBits.toNat ≤ (rawBits n s).2.totalBits.toNat := by
  obtain ⟨f, full, h1, h2, -, h4, h5, h6, h7, -, h9⟩ := rawBits_spec hn ha hw
  refine ⟨?_, ?_, ?_, ?_⟩
  · rw [h7]; rcases h2 with rfl | h2 <;> omega
  · rw [h6, h7, Nat.div_lt_iff_lt_mul (Nat.two_pow_pos n), ← Nat.pow_add]
    have : s.avail.toNat + 8 * f - n + n = s.avail.toNat + 8 * f := by omega
    rw [this]; exact h4
  · rw [h5]; exact Nat.mod_lt _ (Nat.two_pow_pos n)
  · rw [h9]; exact le_satAdd _ s.totalBits.isLt

end Sys2Proof.Machine
end

