-- ==== Sys2Proof/Laws/Memory.lean ====
section
/-! SUPPORT. Laws of the canonical memories: read after write, and that a write keeps the form (20_memory.md R61,
R63). -/

namespace Sys2Proof.Machine

/-- The form, one entry at a time. -/
theorem Memory.wf_cons {a : Nat} {v : Byte} {m : Memory} :
    Memory.wf ((a, v) :: m) = true ↔
      v ≠ Config.unlistedByte ∧ (∀ e ∈ m.head?, a < e.1) ∧ Memory.wf m = true := by
  cases m with
  | nil => simp [Memory.wf]
  | cons e m => obtain ⟨b, u⟩ := e; simp [Memory.wf, and_assoc]

/-- Below its first index a canonical memory lists nothing. -/
theorem Memory.read_below_head {m : Memory} (hm : Memory.wf m = true) {a : Nat} (h : ∀ e ∈ m.head?, a < e.1) :
    Memory.read m a = Config.unlistedByte := by
  induction m with
  | nil => rfl
  | cons e m ih =>
    obtain ⟨b, u⟩ := e
    have hb : a < b := h (b, u) rfl
    obtain ⟨-, hlt, hwf⟩ := Memory.wf_cons.mp hm
    have : a ≠ b := by omega
    simp only [Memory.read, this, if_false]
    exact ih hwf fun e he => Nat.lt_trans hb (hlt e he)

theorem Memory.read_write_other (m : Memory) {a c : Nat} (v : Byte) (h : c ≠ a) :
    Memory.read (Memory.write m a v) c = Memory.read m c := by
  induction m with
  | nil => by_cases hv : v = Config.unlistedByte <;> simp [Memory.write, Memory.read, hv, h]
  | cons e m ih =>
    obtain ⟨b, u⟩ := e
    simp only [Memory.write]
    split
    · split <;> simp [Memory.read, h]
    · split
      · rename_i hb; subst hb
        split <;> simp [Memory.read, h]
      · simp [Memory.read, ih]

theorem Memory.read_write_same {m : Memory} (hm : Memory.wf m = true) (a : Nat) (v : Byte) :
    Memory.read (Memory.write m a v) a = v := by
  induction m with
  | nil => by_cases hv : v = Config.unlistedByte <;> simp [Memory.write, Memory.read, hv]
  | cons e m ih =>
    obtain ⟨b, u⟩ := e
    obtain ⟨hu, hlt, hwf⟩ := Memory.wf_cons.mp hm
    simp only [Memory.write]
    split
    · rename_i hab
      split
      · rename_i hv; subst hv
        exact Memory.read_below_head hm (by simpa using hab)
      · simp [Memory.read]
    · split
      · rename_i hb; subst hb
        split
        · rename_i hv; subst hv; exact Memory.read_below_head hwf hlt
        · simp [Memory.read]
      · rename_i h1 h2
        simp [Memory.read, h2, ih hwf]

theorem Memory.read_write {m : Memory} (hm : Memory.wf m = true) (a c : Nat) (v : Byte) :
    Memory.read (Memory.write m a v) c = if c = a then v else Memory.read m c := by
  split
  · rename_i h; subst h; exact Memory.read_write_same hm _ v
  · rename_i h; exact Memory.read_write_other m v h

/-- A write starts no earlier than the old first index or the written one. -/
theorem Memory.head_write {m : Memory} {a : Nat} {v : Byte} {e : Host.Cell}
    (h : e ∈ (Memory.write m a v).head?) (hm : Memory.wf m = true) (lo : Nat) (ha : lo < a)
    (hlo : ∀ e ∈ m.head?, lo < e.1) : lo < e.1 := by
  cases m with
  | nil =>
    simp only [Memory.write] at h
    split at h
    · simp at h
    · obtain rfl : (a, v) = e := by simpa using h
      exact ha
  | cons e' m =>
    obtain ⟨b, u⟩ := e'
    have hb : lo < b := hlo (b, u) rfl
    obtain ⟨-, hlt, -⟩ := Memory.wf_cons.mp hm
    simp only [Memory.write] at h
    split at h
    · split at h
      · obtain rfl : (b, u) = e := by simpa using h
        exact hb
      · obtain rfl : (a, v) = e := by simpa using h
        exact ha
    · split at h
      · split at h
        · exact Nat.lt_trans hb (hlt e h)
        · obtain rfl : (a, v) = e := by simpa using h
          exact ha
      · obtain rfl : (b, u) = e := by simpa using h
        exact hb

theorem Memory.wf_write {m : Memory} (hm : Memory.wf m = true) (a : Nat) (v : Byte) :
    Memory.wf (Memory.write m a v) = true := by
  induction m with
  | nil =>
    by_cases hv : v = Config.unlistedByte
    · simp [Memory.write, Memory.wf, hv]
    · simp [Memory.write, Memory.wf, hv]
  | cons e m ih =>
    obtain ⟨b, u⟩ := e
    have hm' := hm
    obtain ⟨hu, hlt, hwf⟩ := Memory.wf_cons.mp hm
    simp only [Memory.write]
    split
    · rename_i hab
      split
      · exact hm'
      · rename_i hv
        exact Memory.wf_cons.mpr ⟨hv, by simpa using hab, hm'⟩
    · split
      · rename_i hb; subst hb
        split
        · exact hwf
        · rename_i hv; exact Memory.wf_cons.mpr ⟨hv, hlt, hwf⟩
      · rename_i h1 h2
        exact Memory.wf_cons.mpr ⟨hu, fun e he => Memory.head_write he hwf b (by omega) hlt, ih hwf⟩

theorem Memory.below_write {m : Memory} {n a : Nat} (hm : Memory.below n m = true) (ha : a < n) (v : Byte) :
    Memory.below n (Memory.write m a v) = true := by
  induction m with
  | nil => by_cases hv : v = Config.unlistedByte <;> simp [Memory.write, Memory.below, hv, ha]
  | cons e m ih =>
    obtain ⟨b, u⟩ := e
    have hm' : b < n ∧ Memory.below n m = true := by simpa [Memory.below] using hm
    simp only [Memory.write]
    split
    · split <;> simp [Memory.below, ha, hm']
    · split
      · split <;> simp [Memory.below, ha, hm']
      · simp [Memory.below, hm', ih hm'.2]

/-- Equal reads are equal memories: the form is canonical. -/
theorem Memory.ext {m k : Memory} (hm : Memory.wf m = true) (hk : Memory.wf k = true)
    (h : ∀ a, Memory.read m a = Memory.read k a) : m = k := by
  induction m generalizing k with
  | nil =>
    cases k with
    | nil => rfl
    | cons e k =>
      obtain ⟨b, u⟩ := e
      have := h b
      simp only [Memory.read, if_true] at this
      exact absurd this.symm (Memory.wf_cons.mp hk).1
  | cons e m ih =>
    obtain ⟨a, v⟩ := e
    obtain ⟨hv, hlt, hwf⟩ := Memory.wf_cons.mp hm
    cases k with
    | nil =>
      have := h a
      simp only [Memory.read, if_true] at this
      exact absurd this hv
    | cons e' k =>
      obtain ⟨b, u⟩ := e'
      obtain ⟨hu, hlt', hwf'⟩ := Memory.wf_cons.mp hk
      have hab : a = b := by
        rcases Nat.lt_trichotomy a b with hl | he | hl
        · have h1 := h a
          rw [Memory.read_below_head hk (by simpa using hl)] at h1
          simp only [Memory.read, if_true] at h1
          exact absurd h1 hv
        · exact he
        · have h1 := h b
          rw [Memory.read_below_head hm (by simpa using hl)] at h1
          simp only [Memory.read, if_true] at h1
          exact absurd h1.symm hu
      subst hab
      have huv : v = u := by simpa [Memory.read] using h a
      subst huv
      congr 1
      apply ih hwf hwf'
      intro c
      by_cases hc : c = a
      · subst hc
        rw [Memory.read_below_head hwf hlt, Memory.read_below_head hwf' hlt']
      · simpa [Memory.read, hc] using h c

theorem Memory.readLE_lt (m : Memory) (a n : Nat) : Memory.readLE m a n < 256 ^ n := by
  induction n generalizing a with
  | zero => simp [Memory.readLE]
  | succ n ih =>
    have h1 := ih (a + 1)
    have h2 := (Memory.read m a).isLt
    simp only [Memory.readLE, Nat.pow_succ]
    omega

theorem tblEntry_one (s : State) (base k : Nat) : s.tblEntry base k 1 = (s.tbl.read (base + k)).toNat := by
  simp [State.tblEntry, Memory.readLE]

theorem tblEntry_two (s : State) (base k : Nat) :
    s.tblEntry base k 2 = (s.tbl.read (base + 2 * k)).toNat + 256 * (s.tbl.read (base + 2 * k + 1)).toNat := by
  simp [State.tblEntry, Memory.readLE]

end Sys2Proof.Machine
end

