-- ==== Sys2Proof/Laws/Table.lean ====
section
/-! SUPPORT. Everything IcdfSearch can do (42_table_bit.md R163, R165). -/

namespace Sys2Proof.Machine

/-- The probe loop, from entry `k` on: where it stops, and that every earlier entry did not stop it. -/
theorem icdfLoop_some {s : State} {base w r d left k t k' t' p : Nat}
    (h : icdfLoop s base w r d left k t = some (k', t', p)) :
    k ≤ k' ∧ k' < k + left ∧ p = satMul r (s.tblEntry base k' w) ∧ p ≤ d ∧
    (∀ j, k ≤ j → j < k' → d < satMul r (s.tblEntry base j w)) ∧
    t' = (if k' = k then t else satMul r (s.tblEntry base (k' - 1) w)) := by
  induction left generalizing k t with
  | zero => cases h
  | succ left ih =>
    simp only [icdfLoop] at h
    split at h
    · rename_i hp
      obtain ⟨rfl, rfl, rfl⟩ : k = k' ∧ t = t' ∧ _ = p := by simpa using h
      exact ⟨le_rfl, by omega, rfl, hp, fun j h1 h2 => by omega, by simp⟩
    · rename_i hp
      obtain ⟨h1, h2, h3, h4, h5, h6⟩ := ih h
      refine ⟨by omega, by omega, h3, h4, fun j hj1 hj2 => ?_, ?_⟩
      · rcases Nat.eq_or_lt_of_le hj1 with rfl | hlt
        · omega
        · exact h5 j hlt hj2
      · rw [h6, if_neg (by omega : k' ≠ k)]
        split
        · rename_i e; rw [e]; rfl
        · rfl

/-- The probe loop overruns exactly when no entry stops it. -/
theorem icdfLoop_none {s : State} {base w r d left k t : Nat} :
    icdfLoop s base w r d left k t = none ↔
      ∀ j, k ≤ j → j < k + left → d < satMul r (s.tblEntry base j w) := by
  induction left generalizing k t with
  | zero => simp only [icdfLoop, true_iff]; intro j h1 h2; omega
  | succ left ih =>
    simp only [icdfLoop]
    split
    · rename_i hp
      simp only [reduceCtorEq, false_iff]
      intro h
      have := h k le_rfl (by omega)
      omega
    · rename_i hp
      rw [ih]
      constructor
      · intro h j h1 h2
        rcases Nat.eq_or_lt_of_le h1 with rfl | hlt
        · omega
        · exact h j hlt (by omega)
      · intro h j h1 h2
        exact h j (by omega) (by omega)

/-- The loop stops at the first entry that stops it. -/
theorem icdfLoop_first {s : State} {base w r d left t k' : Nat} (hk : k' < left)
    (before : ∀ j < k', d < satMul r (s.tblEntry base j w)) (at_k : satMul r (s.tblEntry base k' w) ≤ d) :
    icdfLoop s base w r d left 0 t =
      some (k', (if k' = 0 then t else satMul r (s.tblEntry base (k' - 1) w)), satMul r (s.tblEntry base k' w)) := by
  cases h : icdfLoop s base w r d left 0 t with
  | none =>
    have := icdfLoop_none.mp h k' (by omega) (by omega)
    omega
  | some x =>
    obtain ⟨k1, t1, p1⟩ := x
    obtain ⟨-, h2, h3, h4, h5, h6⟩ := icdfLoop_some h
    have e : k1 = k' := by
      rcases Nat.lt_trichotomy k1 k' with hl | he | hl
      · have := before k1 hl; omega
      · exact he
      · have := h5 k' (by omega) hl; omega
    subst e
    rw [h6, h3]

/-- Everything IcdfSearch can do while VAL < RNG: it raises TABLE_BOUNDS or ICDF_OVERRUN, or stops at a first entry
with `t > d ≥ s` (42_table_bit.md R165). -/
theorem icdfSearch_cases {ftb base len w : Nat} {s : State} (hv : s.val.toNat < s.rng.toNat) :
    ((len = 0 ∨ s.params.tblMax < base + w * len) ∧
      icdfSearch ftb base len w s = .error (.raise .tableBounds (w32 base))) ∨
    (len ≠ 0 ∧ base + w * len ≤ s.params.tblMax ∧
      (∀ j < len, s.val.toNat < satMul (s.rng.toNat / 2 ^ ftb) (s.tblEntry base j w)) ∧
      icdfSearch ftb base len w s = .error (.raise .icdfOverrun (w32 len))) ∨
    (len ≠ 0 ∧ base + w * len ≤ s.params.tblMax ∧ ∃ k < len, ∃ t p : Nat,
      p = satMul (s.rng.toNat / 2 ^ ftb) (s.tblEntry base k w) ∧
      t = (if k = 0 then s.rng.toNat else satMul (s.rng.toNat / 2 ^ ftb) (s.tblEntry base (k - 1) w)) ∧
      (∀ j < k, s.val.toNat < satMul (s.rng.toNat / 2 ^ ftb) (s.tblEntry base j w)) ∧
      p ≤ s.val.toNat ∧ s.val.toNat < t ∧ t < 2 ^ 32 ∧
      icdfSearch ftb base len w s =
        .ok (k, normalizeRange { s with val := w32 (s.val.toNat - p), rng := w32 (t - p) })) := by
  by_cases hb : len = 0 ∨ s.params.tblMax < base + w * len
  · exact .inl ⟨hb, by rw [icdfSearch, if_pos hb]⟩
  · have h0 : len ≠ 0 := fun e => hb (.inl e)
    have h1 : base + w * len ≤ s.params.tblMax := Nat.le_of_not_lt fun e => hb (.inr e)
    cases h : icdfLoop s base w (s.rng.toNat / 2 ^ ftb) s.val.toNat len 0 s.rng.toNat with
    | none =>
      refine .inr (.inl ⟨h0, h1, fun j hj => icdfLoop_none.mp h j (by omega) (by omega), ?_⟩)
      rw [icdfSearch, if_neg hb]; simp only [h]
    | some x =>
      obtain ⟨k, t, p⟩ := x
      obtain ⟨-, h2, h3, h4, h5, h6⟩ := icdfLoop_some h
      have ht : s.val.toNat < t := by
        rw [h6]
        split
        · exact hv
        · exact h5 (k - 1) (by omega) (by omega)
      have ht' : t < 2 ^ 32 := by
        rw [h6]
        split
        · exact s.rng.isLt
        · exact satMul_lt _ _
      refine .inr (.inr ⟨h0, h1, k, by omega, t, p, h3, h6, fun j hj => h5 j (by omega) hj, h4, ht, ht', ?_⟩)
      rw [icdfSearch, if_neg hb]
      simp only [h]
      rw [if_neg (by omega)]

end Sys2Proof.Machine
end

