-- ==== Sys2Proof/Laws/Commands.lean ====
section
/-! SUPPORT. Everything a command but INIT can do, said once: the dispatch around one body per command
(60_exceptions.md R236), and what each body leaves when it completes or raises. -/

namespace Sys2Proof.Machine

/-- The pseudocode of each command but INIT, which has no dispatch. -/
def body (i : Instr) (s : State) : Except Abort State :=
  match i with
  | .init => .error .broken
  | .decode => decodeBody s.opArg0 s
  | .decodeBin n => decodeBody (pow2 n) s
  | .update => updateBody s
  | .bitLogp n => bitLogpBody n s
  | .icdf8 n => icdfBody n 1 s
  | .icdf16 n => icdfBody n 2 s
  | .bits n => bitsBody n s
  | .uint => uintBody s
  | .laplace => laplaceBody s
  | .tell => .ok (complete .ok (w32 (tellValue s)) s)
  | .tellFrac => tellFracBody s

theorem exec_eq_dispatch {i : Instr} (hi : i ≠ .init) (s : State) : exec i s = dispatch (encode i) s (body i s) := by
  cases i <;> first | contradiction | rfl

theorem exec_fault {i : Instr} (hi : i ≠ .init) {s : State} (hf : s.fault = true) : exec i s = .next s := by
  rw [exec_eq_dispatch hi, dispatch_fault hf]

theorem exec_not_ready {i : Instr} (hi : i ≠ .init) {s : State} (hf : s.fault = false) (hr : s.ready = false) :
    exec i s = .next (raiseFault (encode i) .notReady 0 s) := by
  rw [exec_eq_dispatch hi, dispatch_not_ready hf hr]

theorem exec_accepting {i : Instr} (hi : i ≠ .init) {s : State} (h : Accepting s) :
    exec i s = settle (encode i) s (body i s) := by
  rw [exec_eq_dispatch hi, dispatch_accepting h]

/-! ### Inversion of the bodies' do blocks -/

theorem bind_eq_ok {α β : Type} {x : Except Abort α} {f : α → Except Abort β} {b : β} (h : x.bind f = .ok b) :
    ∃ a, x = .ok a ∧ f a = .ok b := by
  cases x with
  | error e => cases h
  | ok a => exact ⟨a, rfl, h⟩

theorem bind_eq_error {α β : Type} {x : Except Abort α} {f : α → Except Abort β} {e : Abort}
    (h : x.bind f = .error e) : x = .error e ∨ ∃ a, x = .ok a ∧ f a = .error e := by
  cases x with
  | error e' => exact .inl (by cases h; rfl)
  | ok a => exact .inr ⟨a, rfl, h⟩

/-! ### What a completed body leaves -/

/-- The states a command can leave when it completes: RESULT and the codes alone, or with the range coder narrowed
and normalized, or with raw bits taken, or both. -/
inductive Completes (s : State) : State → Prop
  | report (c : Completion) (r : Word) : Completes s (complete c r s)
  | narrow (c : Completion) (r v g : Word) (h : v.toNat < g.toNat) :
      Completes s (complete c r (normalizeRange { s with val := v, rng := g }))
  | raw (r : Word) (n : Nat) (h : n ≤ 25) : Completes s (complete .ok r (rawBits n s).2)
  | both (c : Completion) (r v g : Word) (h : v.toNat < g.toNat) (n : Nat) (hn : n ≤ 25) :
      Completes s (complete c r (rawBits n (normalizeRange { s with val := v, rng := g })).2)

theorem decodeBody_ok {ft : Nat} {s t : State} (h : decodeBody ft s = .ok t) : ∃ r, t = complete .ok r s := by
  obtain ⟨a, -, e⟩ := bind_eq_ok h
  cases e; exact ⟨_, rfl⟩

theorem updateBody_ok {s t : State} (h : updateBody s = .ok t) :
    ∃ v g : Word, v.toNat < g.toNat ∧ t = complete .ok 0 (normalizeRange { s with val := v, rng := g }) := by
  obtain ⟨a, h1, e⟩ := bind_eq_ok h
  cases e
  obtain ⟨v, g, hlt, rfl⟩ := updateCore_spec h1
  exact ⟨v, g, hlt, rfl⟩

theorem bitLogpBody_ok {n : Nat} {s t : State} (h : bitLogpBody n s = .ok t) :
    ∃ r v g : Word, v.toNat < g.toNat ∧ t = complete .ok r (normalizeRange { s with val := v, rng := g }) := by
  obtain ⟨fs, -, h1⟩ := bind_eq_ok h
  split at h1 <;>
    (obtain ⟨a, h2, e⟩ := bind_eq_ok h1; cases e
     obtain ⟨v, g, hlt, rfl⟩ := updateCore_spec h2
     exact ⟨_, v, g, hlt, rfl⟩)

theorem icdfSearch_ok {ftb base len w k : Nat} {s u : State} (h : icdfSearch ftb base len w s = .ok (k, u)) :
    k < len ∧ ∃ v g : Word, v.toNat < g.toNat ∧ u = normalizeRange { s with val := v, rng := g } := by
  unfold icdfSearch at h
  split at h
  · cases h
  · dsimp only at h
    split at h
    · cases h
    · rename_i k' t p hl
      obtain ⟨-, h2, h3, h4, -, h6⟩ := icdfLoop_some hl
      split at h
      · cases h
      · rename_i hd
        obtain ⟨rfl, rfl⟩ : k' = k ∧ _ = u := by simpa using h
        refine ⟨by omega, _, _, ?_, rfl⟩
        have hv := s.val.isLt
        have ht : t < 2 ^ 32 := by
          rw [h6]
          split
          · exact s.rng.isLt
          · exact satMul_lt _ _
        rw [w32_toNat_of_lt (by omega), w32_toNat_of_lt (by omega)]
        omega

theorem icdfBody_ok {n w : Nat} {s t : State} (h : icdfBody n w s = .ok t) :
    ∃ k < s.arg1.toNat, ∃ v g : Word, v.toNat < g.toNat ∧
      t = complete .ok (w32 k) (normalizeRange { s with val := v, rng := g }) := by
  obtain ⟨⟨k, u⟩, h1, e⟩ := bind_eq_ok h
  cases e
  obtain ⟨hk, v, g, hlt, rfl⟩ := icdfSearch_ok h1
  exact ⟨k, hk, v, g, hlt, rfl⟩

theorem bitsBody_cases (n : Nat) (s : State) :
    (25 < n ∧ bitsBody n s = .ok (complete .tooManyBits 0 s)) ∨
    (n = 0 ∧ bitsBody n s = .ok (complete .ok 0 s)) ∨
    (1 ≤ n ∧ n ≤ 25 ∧ bitsBody n s = .ok (complete .ok (w32 (rawBits n s).1) (rawBits n s).2)) := by
  unfold bitsBody rawBitCeiling
  by_cases h : 25 < n
  · exact .inl ⟨h, by rw [if_pos h]⟩
  · by_cases h0 : n = 0
    · exact .inr (.inl ⟨h0, by rw [if_neg h, if_pos h0]⟩)
    · exact .inr (.inr ⟨by omega, by omega, by rw [if_neg h, if_neg h0]⟩)

theorem uintFinish_eq (ft t : Nat) (s : State) :
    uintFinish ft t s = complete (if ft ≤ t then .corruptFrame else .ok) (w32 t) s := by
  unfold uintFinish; split <;> rfl

/-- The bit-length of ft - 1 for a 32-bit ft, so UINT's raw part is at most 24 bits (43_raw_bits.md R184). -/
theorem ilog_le_32 {x : Nat} (h : x < 2 ^ 32) : ilog x ≤ 32 := ilog_le_iff.mpr h

theorem uintBody_ok {s t : State} (h : uintBody s = .ok t) :
    t = complete .invalidArgument 0 s ∨
    ∃ (c : Completion) (r v g : Word), v.toNat < g.toNat ∧ (c = .ok ∨ c = .corruptFrame) ∧
      (t = complete c r (normalizeRange { s with val := v, rng := g }) ∨
        ∃ sh ≤ 24, t = complete c r (rawBits sh (normalizeRange { s with val := v, rng := g })).2) := by
  simp only [uintBody] at h
  split at h
  · exact .inl (Except.ok.inj h).symm
  · have hc : ∀ a b : Nat, (if a ≤ b then Completion.corruptFrame else .ok) = .ok ∨
        (if a ≤ b then Completion.corruptFrame else .ok) = .corruptFrame := by
      intro a b; split <;> simp
    have hsh : ilog (s.opArg0 - 1) - uintSplitBits ≤ 24 := by
      have h1 := s.arg0.isLt
      have h2 : ilog (s.opArg0 - 1) ≤ 32 := ilog_le_32 (by simp only [State.opArg0]; omega)
      simp only [uintSplitBits]; omega
    split at h
    · obtain ⟨a, -, h1⟩ := bind_eq_ok h
      obtain ⟨u, h2, e⟩ := bind_eq_ok h1
      cases e
      obtain ⟨v, g, hlt, rfl⟩ := updateCore_spec h2
      rw [uintFinish_eq]
      exact .inr ⟨_, _, v, g, hlt, hc _ _, .inl rfl⟩
    · obtain ⟨a, -, h1⟩ := bind_eq_ok h
      obtain ⟨u, h2, e⟩ := bind_eq_ok h1
      obtain rfl : _ = t := Except.ok.inj e
      obtain ⟨v, g, hlt, rfl⟩ := updateCore_spec h2
      refine .inr ⟨_, _, v, g, hlt, hc _ _, .inr ⟨_, hsh, uintFinish_eq _ _ _⟩⟩

theorem laplaceBody_ok {s t : State} (h : laplaceBody s = .ok t) :
    ∃ r v g : Word, v.toNat < g.toNat ∧ t = complete .ok r (normalizeRange { s with val := v, rng := g }) := by
  obtain ⟨fs, -, h1⟩ := bind_eq_ok h
  obtain ⟨a, h2, e⟩ := bind_eq_ok h1
  cases e
  obtain ⟨v, g, hlt, rfl⟩ := updateCore_spec h2
  exact ⟨_, v, g, hlt, rfl⟩

theorem tellFracBody_ok {s t : State} (h : tellFracBody s = .ok t) : ∃ r, t = complete .ok r s := by
  unfold tellFracBody at h
  split at h
  · cases h
  · exact ⟨_, (Except.ok.inj h).symm⟩

theorem body_ok {i : Instr} {s t : State} (h : body i s = .ok t) : Completes s t := by
  cases i with
  | init => cases h
  | decode => obtain ⟨r, rfl⟩ := decodeBody_ok h; exact .report _ _
  | decodeBin n => obtain ⟨r, rfl⟩ := decodeBody_ok h; exact .report _ _
  | update => obtain ⟨v, g, hlt, rfl⟩ := updateBody_ok h; exact .narrow _ _ _ _ hlt
  | bitLogp n => obtain ⟨r, v, g, hlt, rfl⟩ := bitLogpBody_ok h; exact .narrow _ _ _ _ hlt
  | icdf8 n => obtain ⟨k, -, v, g, hlt, rfl⟩ := icdfBody_ok h; exact .narrow _ _ _ _ hlt
  | icdf16 n => obtain ⟨k, -, v, g, hlt, rfl⟩ := icdfBody_ok h; exact .narrow _ _ _ _ hlt
  | bits n =>
    change bitsBody n s = .ok t at h
    rcases bitsBody_cases n s with ⟨-, e⟩ | ⟨-, e⟩ | ⟨-, h25, e⟩ <;> rw [e] at h <;> cases h
    · exact .report _ _
    · exact .report _ _
    · exact .raw _ n h25
  | uint =>
    rcases uintBody_ok h with rfl | ⟨c, r, v, g, hlt, -, rfl | ⟨sh, hsh, rfl⟩⟩
    · exact .report _ _
    · exact .narrow _ _ _ _ hlt
    · exact .both _ _ _ _ hlt sh (by omega)
  | laplace => obtain ⟨r, v, g, hlt, rfl⟩ := laplaceBody_ok h; exact .narrow _ _ _ _ hlt
  | tell => cases h; exact .report _ _
  | tellFrac => obtain ⟨r, rfl⟩ := tellFracBody_ok h; exact .report _ _

/-- What no completed command writes. -/
theorem Completes.frame {s t : State} (h : Completes s t) :
    t = { s with rng := t.rng, val := t.val, pos := t.pos, rem := t.rem, totalBits := t.totalBits,
                 endPos := t.endPos, window := t.window, avail := t.avail,
                 result := t.result, ecode := t.ecode, errSeen := t.errSeen } := by
  cases h <;> simp [State.ext_iff]

/-! ### What a body may raise -/

theorem decodeCore_raise {ft : Nat} {s : State} {e : Abort} (h : decodeCore ft s = .error e) :
    e = .raise .divZero (w32 ft) := by
  rcases decodeCore_cases ft s with ⟨-, h1⟩ | ⟨-, -, _, -, h1, -⟩ <;> rw [h1] at h <;> cases h; rfl

theorem updateCore_raise {fl fh ft : Nat} {s : State} {e : Abort} (h : updateCore fl fh ft s = .error e) :
    ∃ x, e = .raise .divZero x ∨ e = .raise .updateContract x := by
  rcases updateCore_cases fl fh ft s with ⟨-, h1⟩ | ⟨-, -, -, h1⟩ | ⟨-, -, -, h1⟩ <;> rw [h1] at h <;> cases h
  · exact ⟨_, .inl rfl⟩
  · exact ⟨_, .inr rfl⟩

/-- A body ends early by a raise of 60_exceptions.md R235's codes 3 to 6, or is broken. -/
theorem body_error {i : Instr} {s : State} {e : Abort} (h : body i s = .error e) :
    e = .broken ∨ ∃ f x, e = .raise f x ∧
      (f = .divZero ∨ f = .updateContract ∨ f = .tableBounds ∨ f = .icdfOverrun) := by
  have dc : ∀ {ft}, decodeCore ft s = .error e → e = .broken ∨ ∃ f x, e = .raise f x ∧
      (f = .divZero ∨ f = .updateContract ∨ f = .tableBounds ∨ f = .icdfOverrun) :=
    fun h => .inr ⟨_, _, decodeCore_raise h, .inl rfl⟩
  have uc : ∀ {fl fh ft}, updateCore fl fh ft s = .error e → e = .broken ∨ ∃ f x, e = .raise f x ∧
      (f = .divZero ∨ f = .updateContract ∨ f = .tableBounds ∨ f = .icdfOverrun) := by
    intro fl fh ft h
    obtain ⟨x, rfl | rfl⟩ := updateCore_raise h
    · exact .inr ⟨_, _, rfl, .inl rfl⟩
    · exact .inr ⟨_, _, rfl, .inr (.inl rfl)⟩
  have ic : ∀ {n w}, icdfBody n w s = .error e → e = .broken ∨ ∃ f x, e = .raise f x ∧
      (f = .divZero ∨ f = .updateContract ∨ f = .tableBounds ∨ f = .icdfOverrun) := by
    intro n w h
    rcases bind_eq_error h with h | ⟨⟨_, _⟩, -, h⟩
    · unfold icdfSearch at h
      split at h
      · cases h; simp
      · dsimp only at h
        split at h
        · cases h; simp
        · split at h <;> cases h
          simp
    · cases h
  cases i with
  | init => cases h; exact .inl rfl
  | decode => rcases bind_eq_error h with h | ⟨_, -, h⟩; exacts [dc h, by cases h]
  | decodeBin n => rcases bind_eq_error h with h | ⟨_, -, h⟩; exacts [dc h, by cases h]
  | update => rcases bind_eq_error h with h | ⟨_, -, h⟩; exacts [uc h, by cases h]
  | bitLogp n =>
    rcases bind_eq_error h with h | ⟨_, -, h⟩
    · exact dc h
    · split at h <;> (rcases bind_eq_error h with h | ⟨_, -, h⟩; exacts [uc h, by cases h])
  | icdf8 n => exact ic h
  | icdf16 n => exact ic h
  | bits n =>
    change bitsBody n s = .error e at h
    rcases bitsBody_cases n s with ⟨-, h1⟩ | ⟨-, h1⟩ | ⟨-, -, h1⟩ <;> rw [h1] at h <;> cases h
  | uint =>
    change uintBody s = .error e at h
    simp only [uintBody] at h
    split at h
    · cases h
    · split at h <;>
        (rcases bind_eq_error h with h | ⟨_, -, h⟩
         · exact dc h
         · rcases bind_eq_error h with h | ⟨_, -, h⟩
           · exact uc h
           · cases h)
  | laplace =>
    rcases bind_eq_error h with h | ⟨_, -, h⟩
    · exact dc h
    · rcases bind_eq_error h with h | ⟨_, -, h⟩
      · exact uc h
      · cases h
  | tell => cases h
  | tellFrac =>
    change tellFracBody s = .error e at h
    unfold tellFracBody at h
    split at h <;> cases h
    exact .inl rfl

/-- Everything a command but INIT can answer as a next state. -/
theorem exec_next {i : Instr} (hi : i ≠ .init) {s t : State} (h : exec i s = .next t) :
    (s.fault = true ∧ t = s) ∨
    (s.fault = false ∧ s.ready = false ∧ t = raiseFault (encode i) .notReady 0 s) ∨
    (Accepting s ∧ body i s = .ok t ∧ Completes s t) ∨
    (Accepting s ∧ ∃ f x, t = raiseFault (encode i) f x s ∧
      (f = .divZero ∨ f = .updateContract ∨ f = .tableBounds ∨ f = .icdfOverrun)) := by
  rw [exec_eq_dispatch hi] at h
  rcases dispatch_next h with h | h | ⟨ha, h | ⟨f, x, hb, rfl⟩⟩
  · exact .inl h
  · exact .inr (.inl h)
  · exact .inr (.inr (.inl ⟨ha, h, body_ok h⟩))
  · rcases body_error hb with h | ⟨f', x', h, hf⟩
    · cases h
    · cases h; exact .inr (.inr (.inr ⟨ha, _, _, rfl, hf⟩))

/-! ### INIT -/

/-- INIT leaves the fault state, then faults on LEN, completes without a decoder, or constructs one. -/
theorem exec_init_cases (s : State) :
    (s.params.bufMax < s.len.toNat ∧
      exec .init s = .next (raiseFault (encode .init) .lenRange (w32 s.len.toNat) (clearFault s))) ∨
    (s.len.toNat ≤ s.params.bufMax ∧ s.len.toNat < 2 ∧
      exec .init s = .next (complete .bufferTooSmall 0 { clearFault s with ready := false })) ∨
    (s.len.toNat ≤ s.params.bufMax ∧ 2 ≤ s.len.toNat ∧
      exec .init s = .next (complete .ok 0
        { normalizeRange (initSeed (s.frontByte 0).toNat (clearFault s)) with ready := true })) := by
  by_cases h1 : s.params.bufMax < s.len.toNat
  · exact .inl ⟨h1, by simp only [exec, execInit]; rw [if_pos h1]⟩
  · by_cases h2 : s.len.toNat < 2
    · exact .inr (.inl ⟨by omega, h2, by simp only [exec, execInit]; rw [if_neg h1, if_pos h2]⟩)
    · refine .inr (.inr ⟨by omega, by omega, ?_⟩)
      simp only [exec, execInit]; rw [if_neg h1, if_neg h2]; rfl

/-- The seeded decoder core, normalized, satisfies what 10_state.md R25 asks (40_init_normalize.md R125). -/
theorem initSeed_normalized (b0 : Nat) (s : State) :
    2 ^ 23 < (normalizeRange (initSeed b0 s)).rng.toNat ∧
    (normalizeRange (initSeed b0 s)).val.toNat < (normalizeRange (initSeed b0 s)).rng.toNat ∧
    (normalizeRange (initSeed b0 s)).pos.toNat = 4 ∧
    (normalizeRange (initSeed b0 s)).totalBits.toNat = 33 := by
  have hr : (initSeed b0 s).rng.toNat = 128 := rfl
  have hv : (initSeed b0 s).val.toNat < (initSeed b0 s).rng.toNat := by
    rw [hr, show (initSeed b0 s).val = w32 (127 - b0 / 2) from rfl, w32_toNat_of_lt (by omega)]; omega
  obtain ⟨k, hk, e, -, above, hrng, hval, hpos, htot, -⟩ := normalizeLoop_iterate (three_iterations (by omega)) hv
  rw [hr] at hrng
  have hk3 : k = 3 := by
    rw [hrng] at above
    interval_cases k <;> simp [normThreshold] at above ⊢
  subst hk3
  rw [normalizeRange, e]
  exact ⟨by simp, hval, hpos, htot⟩

/-! ### What no command writes -/

/-- No command writes memory, an operand, or anything of the model's own (20_memory.md R72). -/
theorem exec_frame {i : Instr} {s t : State} (h : exec i s = .next t) :
    t.buf = s.buf ∧ t.tbl = s.tbl ∧ SameOperands s t ∧ SameSurroundings s t := by
  by_cases hi : i = .init
  · subst hi
    rcases exec_init_cases s with ⟨-, e⟩ | ⟨-, -, e⟩ | ⟨-, -, e⟩ <;> rw [e] at h <;> rw [← Host.Outcome.next.inj h]
    · exact ⟨rfl, rfl, ⟨rfl, rfl, rfl, rfl⟩, ⟨rfl, rfl, rfl, rfl, rfl⟩⟩
    · exact ⟨rfl, rfl, ⟨rfl, rfl, rfl, rfl⟩, ⟨rfl, rfl, rfl, rfl, rfl⟩⟩
    · refine ⟨?_, ?_, ⟨?_, ?_, ?_, ?_⟩, ⟨?_, ?_, ?_, ?_, ?_⟩⟩ <;> simp [initSeed, clearFault]
  · rcases exec_next hi h with ⟨-, rfl⟩ | ⟨-, -, rfl⟩ | ⟨-, -, h⟩ | ⟨-, f, x, rfl, -⟩
    · exact ⟨rfl, rfl, ⟨rfl, rfl, rfl, rfl⟩, ⟨rfl, rfl, rfl, rfl, rfl⟩⟩
    · exact ⟨rfl, rfl, ⟨rfl, rfl, rfl, rfl⟩, ⟨rfl, rfl, rfl, rfl, rfl⟩⟩
    · rw [h.frame]; exact ⟨rfl, rfl, ⟨rfl, rfl, rfl, rfl⟩, ⟨rfl, rfl, rfl, rfl, rfl⟩⟩
    · exact ⟨rfl, rfl, ⟨rfl, rfl, rfl, rfl⟩, ⟨rfl, rfl, rfl, rfl, rfl⟩⟩

/-! ### The invariants of the decoder core -/

/-- Narrowing keeps 10_state.md R25. -/
theorem CoreInv.narrow {s : State} (hc : CoreInv s) {v g : Word} (h : v.toNat < g.toNat) :
    CoreInv (normalizeRange { s with val := v, rng := g }) := by
  obtain ⟨h1, h2, h3, h4⟩ := normalizeRange_spec (s := { s with val := v, rng := g }) h
  refine ⟨h1, h2, by simpa using hc.avail_le, by simpa using hc.window_lt, ?_, ?_⟩
  · exact Nat.le_trans hc.total_ge h4
  · exact Nat.le_trans hc.pos_ge h3

/-- Taking raw bits keeps 10_state.md R25. -/
theorem CoreInv.raw {s : State} (hc : CoreInv s) {n : Nat} (hn : n ≤ 25) : CoreInv (rawBits n s).2 := by
  obtain ⟨h1, h2, -, h4⟩ := rawBits_inv hn hc.avail_le hc.window_lt
  exact ⟨by simpa using hc.rng_low, by simpa using hc.val_lt, h1, h2, Nat.le_trans hc.total_ge h4,
    by simpa using hc.pos_ge⟩

/-- 10_state.md R25 is about the decoder core alone. -/
theorem CoreInv.of_same {s t : State} (hc : CoreInv s) (h : SameCore s t) : CoreInv t := by
  obtain ⟨h1, h2, h3, h4, h5, h6, h7, h8⟩ := h
  exact ⟨by rw [h1]; exact hc.rng_low, by rw [h1, h2]; exact hc.val_lt, by rw [h7]; exact hc.avail_le,
    by rw [h6, h7]; exact hc.window_lt, by rw [h5]; exact hc.total_ge, by rw [h3]; exact hc.pos_ge⟩

/-- Every completed command keeps 10_state.md R25. -/
theorem Completes.coreInv {s t : State} (h : Completes s t) (hc : CoreInv s) : CoreInv t := by
  cases h with
  | report c r => exact hc.of_same ⟨rfl, rfl, rfl, rfl, rfl, rfl, rfl, rfl⟩
  | narrow c r v g h => exact (hc.narrow h).of_same ⟨rfl, rfl, rfl, rfl, rfl, rfl, rfl, rfl⟩
  | raw r n h => exact (hc.raw h).of_same ⟨rfl, rfl, rfl, rfl, rfl, rfl, rfl, rfl⟩
  | both c r v g h n hn => exact ((hc.narrow h).raw hn).of_same ⟨rfl, rfl, rfl, rfl, rfl, rfl, rfl, rfl⟩

/-- No body is broken while 10_state.md R25 holds (log 9). -/
theorem body_not_broken {i : Instr} (hi : i ≠ .init) {s : State} (hc : CoreInv s) : body i s ≠ .error .broken := by
  intro h
  have dc : ∀ {ft}, decodeCore ft s ≠ .error .broken := fun h => by cases decodeCore_raise h
  have uc : ∀ {fl fh ft}, updateCore fl fh ft s ≠ .error .broken := by
    intro fl fh ft h
    obtain ⟨x, h | h⟩ := updateCore_raise h <;> cases h
  have ic : ∀ {n w}, icdfBody n w s ≠ .error .broken := by
    intro n w h
    rcases bind_eq_error h with h | ⟨⟨_, _⟩, -, h⟩
    · rcases icdfSearch_cases (ftb := n) (base := s.opArg0) (len := s.opArg1) (w := w) hc.val_lt with
        ⟨-, e⟩ | ⟨-, -, -, e⟩ | ⟨-, -, k, -, t, p, -, -, -, -, -, -, e⟩ <;> rw [e] at h <;> cases h
    · cases h
  cases i with
  | init => exact hi rfl
  | decode => rcases bind_eq_error h with h | ⟨_, -, h⟩; exacts [dc h, by cases h]
  | decodeBin n => rcases bind_eq_error h with h | ⟨_, -, h⟩; exacts [dc h, by cases h]
  | update => rcases bind_eq_error h with h | ⟨_, -, h⟩; exacts [uc h, by cases h]
  | bitLogp n =>
    rcases bind_eq_error h with h | ⟨_, -, h⟩
    · exact dc h
    · split at h <;> (rcases bind_eq_error h with h | ⟨_, -, h⟩; exacts [uc h, by cases h])
  | icdf8 n => exact ic h
  | icdf16 n => exact ic h
  | bits n =>
    change bitsBody n s = .error .broken at h
    rcases bitsBody_cases n s with ⟨-, h1⟩ | ⟨-, h1⟩ | ⟨-, -, h1⟩ <;> rw [h1] at h <;> cases h
  | uint =>
    change uintBody s = .error .broken at h
    simp only [uintBody] at h
    split at h
    · cases h
    · split at h <;>
        (rcases bind_eq_error h with h | ⟨_, -, h⟩
         · exact dc h
         · rcases bind_eq_error h with h | ⟨_, -, h⟩
           · exact uc h
           · cases h)
  | laplace =>
    rcases bind_eq_error h with h | ⟨_, -, h⟩
    · exact dc h
    · rcases bind_eq_error h with h | ⟨_, -, h⟩
      · exact uc h
      · cases h
  | tell => cases h
  | tellFrac =>
    change tellFracBody s = .error .broken at h
    unfold tellFracBody at h
    have := hc.rng_low
    have h24 : ¬ ilog s.rng.toNat < 16 := by
      intro hl
      have := ilog_le_iff.mp (Nat.le_of_lt hl)
      omega
    rw [if_neg h24] at h
    cases h

end Sys2Proof.Machine
end

