-- ==== Sys2Proof/Laws/Agents.lean ====
section
/-! SUPPORT. Which agent a step is, said once (10_state.md R38, 70_reset_and_hazards.md R275), and what an access can
change (20_memory.md R67, R68). -/

namespace Sys2Proof.Machine

theorem step_blockTurn {s : State} {w : Word} (h : BlockTurn s w) : step s = blockStep w s := by
  obtain ⟨hp, hn⟩ := h
  unfold step nextEvent
  rw [hp]
  cases e : s.program with
  | nil => rfl
  | cons op rest =>
    dsimp only
    split
    · rename_i hc
      simp only [hostMovesWhileBusy, Bool.and_eq_true, decide_eq_true_eq] at hc
      have := hn op rest e hc.1
      omega
    · rfl

theorem step_hostTurn {s : State} {op : HostOp} {rest : List HostOp} (h : HostTurn s op rest) :
    step s = hostStep op rest s := by
  simp only [step, nextEvent, h.idle, h.program]

/-- Every step is an idle step, a step of the host, a covered STATUS read, or a step of the block. -/
theorem step_cases (s : State) :
    (s.pending = none ∧ s.program = [] ∧ step s = .next s) ∨
    (∃ op rest, HostTurn s op rest ∧ step s = hostStep op rest s) ∨
    (∃ w op rest n later, s.pending = some w ∧ s.program = op :: rest ∧ isStatusRead op = true ∧
      s.polls = (n + 1) :: later ∧ step s = hostStep op rest { s with polls := n :: later }) ∨
    (∃ w, BlockTurn s w ∧ step s = blockStep w s) := by
  cases hp : s.pending with
  | none =>
    cases hg : s.program with
    | nil => exact .inl ⟨rfl, rfl, by simp only [step, nextEvent, hp, hg]⟩
    | cons op rest => exact .inr (.inl ⟨op, rest, ⟨hp, hg⟩, step_hostTurn ⟨hp, hg⟩⟩)
  | some w =>
    by_cases hb : BlockTurn s w
    · exact .inr (.inr (.inr ⟨w, hb, step_blockTurn hb⟩))
    · have : ∃ op rest, s.program = op :: rest ∧ isStatusRead op = true ∧ pollsLeft s.polls ≠ 0 := by
        by_contra hc
        refine hb ⟨hp, fun op rest h1 h2 => ?_⟩
        by_contra h3
        exact hc ⟨op, rest, h1, h2, h3⟩
      obtain ⟨op, rest, hg, hr, hl⟩ := this
      cases hq : s.polls with
      | nil => simp [hq, pollsLeft] at hl
      | cons n later =>
        cases n with
        | zero => simp [hq, pollsLeft] at hl
        | succ n =>
          refine .inr (.inr (.inl ⟨w, op, rest, n, later, rfl, hg, hr, rfl, ?_⟩))
          simp [step, nextEvent, hp, hg, hostMovesWhileBusy, hr, hq, pollsLeft, tickPoll]

/-- A STATUS read returns STATUS and changes nothing of the block. -/
theorem hostStep_statusRead {op : HostOp} (h : isStatusRead op = true) (rest : List HostOp) (s : State) :
    hostStep op rest s = .next { s with
      program := if op = .waitIdle ∧ s.busy = true then s.program else rest
      replies := s.replies ++ [s.statusWord] } := by
  match op, h with
  | .waitIdle, _ => simp [hostStep]
  | .access (.read w o), h =>
    have hw : w = .w32 ∧ o = 8 := by
      simpa [isStatusRead, regOffset] using h
    obtain ⟨rfl, rfl⟩ := hw
    simp [hostStep, busAccess, busRead, placeOf, pageAccepts, regAt, readReg]

/-- A state that a window write leaves: one window's bytes and READY. -/
theorem windowWrite_frame (w : Window) (i d n : Nat) (s : State) :
    windowWrite w i d n s = { s with
      buf := (windowWrite w i d n s).buf, tbl := (windowWrite w i d n s).tbl
      ready := (windowWrite w i d n s).ready } := by
  induction n generalizing i d s with
  | zero => rfl
  | succ n ih =>
    simp only [windowWrite]
    rw [ih]
    cases w <;> simp only [windowStore] <;> split <;> rfl

/-- A BUF write leaves TBL alone, and the other way round. -/
theorem windowWrite_buf (i d n : Nat) (s : State) :
    windowWrite .buf i d n s = { s with
      buf := (windowWrite .buf i d n s).buf, ready := (windowWrite .buf i d n s).ready } := by
  induction n generalizing i d s with
  | zero => rfl
  | succ n ih =>
    simp only [windowWrite]
    rw [ih]
    simp only [windowStore]; split <;> rfl

theorem windowWrite_tbl (i d n : Nat) (s : State) :
    windowWrite .tbl i d n s = { s with tbl := (windowWrite .tbl i d n s).tbl } := by
  induction n generalizing i d s with
  | zero => rfl
  | succ n ih =>
    simp only [windowWrite]
    rw [ih]
    simp only [windowStore]; split <;> rfl

/-- A window write keeps the canonical memories. -/
theorem windowWrite_memoryInv {s : State} (h : MemoryInv s) (w : Window) (i d n : Nat) :
    MemoryInv (windowWrite w i d n s) := by
  induction n generalizing i d s with
  | zero => exact h
  | succ n ih =>
    apply ih
    unfold windowStore
    split
    · rename_i hi
      cases w
      · exact ⟨Memory.wf_write h.buf_wf _ _, h.tbl_wf, Memory.below_write h.buf_below hi _, h.tbl_below⟩
      · exact ⟨h.buf_wf, Memory.wf_write h.tbl_wf _ _, h.buf_below, Memory.below_write h.tbl_below hi _⟩
    · exact h

/-- A register is found only at its own offset. -/
theorem regAt_eq_some {o : Nat} {r : Reg} (h : regAt o = some r) : o = regOffset r := by
  unfold regAt at h
  split at h <;> first | (cases h; rfl) | cases h

@[simp] theorem regAt_regOffset (r : Reg) : regAt (regOffset r) = some r := by cases r <;> rfl

theorem placeOf_page {o : Nat} (h : o < 0x10000) : placeOf o = .page o := by simp only [placeOf]; rw [if_pos h]

theorem placeOf_buf {i : Nat} (h : i < 0x10000) : placeOf (0x10000 + i) = .window .buf i := by
  simp only [placeOf]; rw [if_neg (by omega), if_pos (by omega), Nat.add_sub_cancel_left]

theorem placeOf_tbl {i : Nat} (h : i < 0x10000) : placeOf (0x20000 + i) = .window .tbl i := by
  simp only [placeOf]; rw [if_neg (by omega), if_neg (by omega), if_pos (by omega), Nat.add_sub_cancel_left]

theorem regOffset_page (r : Reg) : regOffset r < 0x10000 ∧ pageAccepts .w32 (regOffset r) = true := by
  cases r <;> decide

/-- A 32-bit access at a register's offset reads or writes that register (20_memory.md R62). -/
theorem busRead_reg (r : Reg) (s : State) : busRead .w32 (regOffset r) s = .data (readReg s r) := by
  simp only [busRead, placeOf_page (regOffset_page r).1, (regOffset_page r).2, regAt_regOffset, if_true]

theorem busWrite_reg (r : Reg) (v : Word) (s : State) :
    busWrite .w32 (regOffset r) v s = (.done, writeReg r v s) := by
  simp only [busWrite, placeOf_page (regOffset_page r).1, (regOffset_page r).2, regAt_regOffset, if_true]

/-- Everything the state after an access can be. -/
inductive Accesses (a : Access) (s : State) : State → Prop
  | nothing : Accesses a s s
  | register (r : Reg) (v : Word) (h : a = .write .w32 (regOffset r) v) : Accesses a s (writeReg r v s)
  | window (w : Width) (o : Nat) (v : Word) (win : Window) (i n : Nat) (h : a = .write w o v)
      (ho : placeOf o = .window win i) : Accesses a s (windowWrite win i v.toNat n s)

theorem busAccess_accesses (a : Access) (s : State) : Accesses a s (busAccess a s).2 := by
  cases a with
  | read w o => exact .nothing
  | write w o v =>
    simp only [busAccess, busWrite]
    have page : ∀ o', placeOf o = .page o' → o' = o := by
      intro o' h
      unfold placeOf at h
      split at h
      · exact (Place.page.inj h).symm
      · split at h
        · cases h
        · split at h <;> cases h
    split
    · rename_i o' ho
      split
      · rename_i hp
        split
        · rename_i r hr
          have e := page o' ho
          have hw : w = .w32 := by
            simp only [pageAccepts, Bool.and_eq_true, beq_iff_eq] at hp; exact hp.1
          subst hw
          exact .register r v (by rw [← e, regAt_eq_some hr])
        · exact .nothing
      · exact .nothing
    · rename_i win i ho
      split
      · exact .window w o v win i _ rfl ho
      · exact .nothing
    · exact .nothing

/-- An access that the block answers with an error changes nothing (20_memory.md R67). -/
theorem busAccess_error {a : Access} {s : State} (h : (busAccess a s).1 = .busError ∨ (busAccess a s).1 = .outside) :
    (busAccess a s).2 = s := by
  cases a with
  | read w o => rfl
  | write w o v =>
    simp only [busAccess, busWrite] at *
    split at h <;> (try rfl)
    · split at h
      · split at h <;> simp at h
      · rename_i hp; rw [if_neg hp]
    · split at h
      · simp at h
      · rename_i hp; rw [if_neg hp]

/-- A host step is the access's error, an access and its data, or WAITIDLE's STATUS read. -/
theorem hostStep_next {op : HostOp} {rest : List HostOp} {s t : State} (h : hostStep op rest s = .next t) :
    (op = .waitIdle ∧ t = { s with
      program := if s.busy then s.program else rest, replies := s.replies ++ [s.statusWord] }) ∨
    ∃ a u data, op = .access a ∧ Accesses a s u ∧ t = { u with program := rest, replies := u.replies ++ data } := by
  cases op with
  | waitIdle => exact .inl ⟨rfl, (Host.Outcome.next.inj h).symm⟩
  | access a =>
    have ha := busAccess_accesses a s
    refine .inr ?_
    simp only [hostStep] at h
    split at h
    · rename_i v u e
      rw [e] at ha
      exact ⟨a, u, [v], rfl, ha, (Host.Outcome.next.inj h).symm⟩
    · rename_i u e
      rw [e] at ha
      exact ⟨a, u, [], rfl, ha, by rw [← Host.Outcome.next.inj h]; simp⟩
    · cases h
    · cases h

end Sys2Proof.Machine
end

