-- ==== Sys2Proof/Laws/PerInstr.lean ====
section
/-! SUPPORT. Per-command lemmas: the encoding of a well-formed command is a legal word of 30_encoding.md R94, with OP and
N in their fields. -/

namespace Sys2Proof.Laws.EncodeLegal

/-- `encode i` has RSV 0, OP and N of `i` in place, and is legal (30_encoding.md R90, R93, R94). -/
def Statement (i : Instr) : Prop :=
  i.wf = true → opField (encode i) = i.opcode ∧ nField (encode i) = i.imm ∧ legalWord (encode i) = true

/-- The fields of a word built as the encoder builds it. -/
theorem fields {op n : Nat} (ho : op < 256) (hn : n < 32) :
    opField (BitVec.ofNat 32 (op + n * 0x100)) = op ∧ nField (BitVec.ofNat 32 (op + n * 0x100)) = n ∧
    rsvField (BitVec.ofNat 32 (op + n * 0x100)) = 0 := by
  have h : (BitVec.ofNat 32 (op + n * 0x100)).toNat = op + n * 0x100 := by
    rw [BitVec.toNat_ofNat, Nat.mod_eq_of_lt (by omega)]
  simp only [opField, nField, rsvField, h]
  omega

/-- The form CN case: any N is legal. -/
theorem legal_cn {op n : Nat} (ho : op < 256) (hn : n < 32) (hc : opTakesN op = true) (h : 1 ≤ op ∧ op ≤ 0x0C) :
    opField (BitVec.ofNat 32 (op + n * 0x100)) = op ∧ nField (BitVec.ofNat 32 (op + n * 0x100)) = n ∧
    legalWord (BitVec.ofNat 32 (op + n * 0x100)) = true := by
  obtain ⟨h1, h2, h3⟩ := fields ho hn
  refine ⟨h1, h2, ?_⟩
  rw [legalWord, h1, h2, h3, hc]
  simp [h]

theorem init : Statement .init := fun _ => by decide

theorem decode : Statement .decode := fun _ => by decide

theorem decodeBin (n : Nat) : Statement (.decodeBin n) := fun h =>
  legal_cn (op := 3) (n := n) (by decide) (by simpa [Instr.wf] using h) rfl (by decide)

theorem update : Statement .update := fun _ => by decide

theorem bitLogp (n : Nat) : Statement (.bitLogp n) := fun h =>
  legal_cn (op := 5) (n := n) (by decide) (by simpa [Instr.wf] using h) rfl (by decide)

theorem icdf8 (n : Nat) : Statement (.icdf8 n) := fun h =>
  legal_cn (op := 6) (n := n) (by decide) (by simpa [Instr.wf] using h) rfl (by decide)

theorem icdf16 (n : Nat) : Statement (.icdf16 n) := fun h =>
  legal_cn (op := 7) (n := n) (by decide) (by simpa [Instr.wf] using h) rfl (by decide)

theorem bits (n : Nat) : Statement (.bits n) := fun h =>
  legal_cn (op := 8) (n := n) (by decide) (by simpa [Instr.wf] using h) rfl (by decide)

theorem uint : Statement .uint := fun _ => by decide

theorem laplace : Statement .laplace := fun _ => by decide

theorem tell : Statement .tell := fun _ => by decide

theorem tellFrac : Statement .tellFrac := fun _ => by decide

end Sys2Proof.Laws.EncodeLegal
end

