-- ==== Sys2Proof/Tests/Slice0.lean ====
section
/-! SUPPORT. The model's own tests: which commands are well-formed, words decoded as the spec writes them out, one step
of each command with the values of 95_test_vectors.md (named beside each test), and for every obligation that has
hypotheses a theorem witness_<its name> that meets them. -/

namespace Sys2Proof.Tests
open Sys2Proof Sys2Proof.Machine

/-! ### Helpers -/

/-- Whether an outcome is a next state that `p` accepts. -/
def after (r : Result) (p : State → Bool) : Bool :=
  match r with
  | .next t => p t
  | .fault _ => false
  | .refused _ => false

theorem after_next {r : Result} {p : State → Bool} (h : after r p = true) : ∃ t, r = .next t ∧ p t = true := by
  match r, h with
  | .next t, h => exact ⟨t, rfl, h⟩

/-- A machine with `bytes` in BUF, LEN = `n` and no decoder. -/
def loaded (bytes : Memory) (n : Nat) : State :=
  { State.powerOn Params.default bytes [] [] [] with len := BitVec.ofNat 17 n }

/-- A constructed decoder over `bytes`, as 40_init_normalize.md R125 leaves it. -/
def constructed (bytes : Memory) (n : Nat) (val : Word) (rem : BitVec 1) : State :=
  { loaded bytes n with rng := 0x80000000, val := val, pos := 4, totalBits := 33, rem := rem, ready := true }

/-- The packet B of 95_test_vectors.md. -/
def packetB : Memory := [(0, 0x12), (1, 0x34), (2, 0x56), (3, 0x78)]

/-- The packet 0xFF, 8 bytes, of 95_test_vectors.md V2. -/
def packetF : Memory :=
  [(0, 0xFF), (1, 0xFF), (2, 0xFF), (3, 0xFF), (4, 0xFF), (5, 0xFF), (6, 0xFF), (7, 0xFF)]

/-- The packet 0xAA, 8 bytes, of 95_test_vectors.md V3. -/
def packetA : Memory :=
  [(0, 0xAA), (1, 0xAA), (2, 0xAA), (3, 0xAA), (4, 0xAA), (5, 0xAA), (6, 0xAA), (7, 0xAA)]

/-- The state after INIT on B (95_test_vectors.md, conventions). -/
def readyB : State := constructed packetB 4 0x76E5D4C3 0

/-- The state after INIT on 0xFF, 8 bytes (95_test_vectors.md V2). -/
def readyF : State := constructed packetF 8 0 1

/-- The state after INIT on zeros, 8 bytes (95_test_vectors.md V2). -/
def readyZ : State := constructed [] 8 0x7FFFFFFF 0

/-- The state after INIT on 0xAA, 8 bytes, with the table of 95_test_vectors.md V3. -/
def readyA : State := { constructed packetA 8 0x2AAAAAAA 0 with tbl := [(0, 252), (1, 200), (2, 100)] }

/-- A state in the fault state, as a DIV_ZERO of DECODE leaves it. -/
def faulted : State := { loaded packetB 4 with fault := true, fcode := 3, fcmd := 0x00000002, finfo := 0 }

/-- `s` with a command word latched. -/
def latched (s : State) (w : Word) : State := { s with pending := some w }

theorem blockTurn_latched (s : State) (w : Word) (h : s.program = []) : BlockTurn (latched s w) w :=
  ⟨rfl, fun op rest e => by simp [latched, h] at e⟩

theorem accepting_B : Accepting readyB := ⟨rfl, rfl⟩

theorem coreInv_B : CoreInv readyB :=
  ⟨by decide, by decide, by decide, by decide, by decide, by decide⟩

/-! ### WellFormed -/

theorem test_wf_refuses_32 :
    (Instr.decodeBin 32).wf = false ∧ (Instr.bitLogp 32).wf = false ∧ (Instr.icdf8 32).wf = false ∧
    (Instr.icdf16 32).wf = false ∧ (Instr.bits 32).wf = false := by decide

theorem test_wf_takes_31 :
    (Instr.decodeBin 31).wf = true ∧ (Instr.bitLogp 31).wf = true ∧ (Instr.icdf8 31).wf = true ∧
    (Instr.icdf16 31).wf = true ∧ (Instr.bits 31).wf = true := by decide

/-! ### Decode: RSV, N and OP written out bit by bit (30_encoding.md R90, R93) -/

theorem test_decode_init : decode 0b0000000000000000000_00000_00000001 = .ok .init := by decide
theorem test_decode_decode : decode 0b0000000000000000000_00000_00000010 = .ok .decode := by decide
theorem test_decode_decodeBin : decode 0b0000000000000000000_00100_00000011 = .ok (.decodeBin 4) := by decide
theorem test_decode_update : decode 0b0000000000000000000_00000_00000100 = .ok .update := by decide
theorem test_decode_bitLogp : decode 0b0000000000000000000_00001_00000101 = .ok (.bitLogp 1) := by decide
theorem test_decode_icdf8 : decode 0b0000000000000000000_01000_00000110 = .ok (.icdf8 8) := by decide
theorem test_decode_icdf16 : decode 0b0000000000000000000_10000_00000111 = .ok (.icdf16 16) := by decide
theorem test_decode_bits : decode 0b0000000000000000000_11001_00001000 = .ok (.bits 25) := by decide
theorem test_decode_uint : decode 0b0000000000000000000_00000_00001001 = .ok .uint := by decide
theorem test_decode_laplace : decode 0b0000000000000000000_00000_00001010 = .ok .laplace := by decide
theorem test_decode_tell : decode 0b0000000000000000000_00000_00001011 = .ok .tell := by decide
theorem test_decode_tellFrac : decode 0b0000000000000000000_00000_00001100 = .ok .tellFrac := by decide

/-- 30_encoding.md R95: a reserved OP, a nonzero RSV, a nonzero N in form C0. -/
theorem test_decode_illegal :
    decode 0b0000000000000000000_00000_00000000 = .error .reservedOp ∧
    decode 0b0000000000000000000_00000_00001101 = .error .reservedOp ∧
    decode 0b1000000000000000000_00000_00000001 = .error .reservedBits ∧
    decode 0b0000000000000000001_00000_00001000 = .error .reservedBits ∧
    decode 0b0000000000000000000_00001_00001001 = .error .immediateOnC0 := by decide

theorem test_decodeTableWord :
    decodeTableWord 32 0x00001908 = some (.bits 25) ∧ decodeTableWord 16 0x1908 = some (.bits 25) ∧
    decodeTableWord 32 0x00000000 = none := by decide

/-- 30_encoding.md R97. -/
theorem test_assemble :
    assemble "BITS" (some 25) = some 0x00001908 ∧ assemble "TELL_FRAC" none = some 0x0000000C ∧
    assemble "BITS" (some 32) = none ∧ assemble "BITS" none = none ∧ assemble "INIT" (some 0) = none := by decide

/-! ### One step of each command -/

/-- V8, and the state after INIT on B. -/
theorem test_init : after (exec .init (loaded packetB 4)) (fun t => t == readyB) = true := by decide

theorem test_init_short : after (exec .init (loaded [(0, 0x12)] 1)) (fun t =>
    t.statusWord == 0x00000118 && t.rng == 0) = true := by decide

/-- V10. -/
theorem test_decode : after (exec .decode { readyB with arg0 := 10 }) (fun t => t.result == 0) = true := by decide

theorem test_decode_zero : after (exec .decode { readyB with arg0 := 0 }) (fun t =>
    t.fcode == 3 && t.fcmd == 0x00000002 && t.val == 0x76E5D4C3) = true := by decide

/-- V11. -/
theorem test_decodeBin : after (exec (.decodeBin 4) readyB) (fun t => t.result == 1 && t.ecode == 0) = true := by decide

/-- V12. -/
theorem test_update : after (exec .update { readyB with arg0 := 0, arg1 := 1, arg2 := 10 }) (fun t =>
    t.rng == 0x0CCCCCD4 && t.val == 0x03B2A197 && t.pos == 4) = true := by decide

/-- 41_symbol_decode.md R146: fl ≥ fh with fl > 0. -/
theorem test_update_contract : after (exec .update { readyB with arg0 := 3, arg1 := 3, arg2 := 10 }) (fun t =>
    t.fcode == 4 && t.finfo == 0 && t.rng == 0x80000000) = true := by decide

/-- V20. -/
theorem test_bitLogp_false : after (exec (.bitLogp 1) readyB) (fun t =>
    t.result == 0 && t.rng == 0x40000000 && t.val == 0x36E5D4C3) = true := by decide

/-- V2: a Normalize iteration. -/
theorem test_bitLogp_true : after (exec (.bitLogp 8) readyF) (fun t =>
    t.result == 1 && t.rng == 0x80000000 && t.pos == 5 && t.totalBits == 41) = true := by decide

/-- V3. -/
theorem test_icdf8 : after (exec (.icdf8 8) { readyA with arg1 := 4 }) (fun t =>
    t.result == 3 && t.rng == 0x32000000 && t.val == 0x2AAAAAAA) = true := by decide

/-- 42_table_bit.md R166: no entry stops the search. -/
theorem test_icdf8_overrun : after (exec (.icdf8 8) { readyA with arg1 := 3 }) (fun t =>
    t.fcode == 6 && t.finfo == 3 && t.ready == false) = true := by decide

/-- V24: a little-endian table of halfwords. -/
theorem test_icdf16 : after (exec (.icdf16 16) { readyB with
      tbl := [(0x100, 0x60), (0x101, 0xEA), (0x102, 0x40), (0x103, 0x9C), (0x104, 0x20), (0x105, 0x4E)],
      arg0 := 0x100, arg1 := 4 }) (fun t =>
    t.result == 0 && t.rng == 0x0AD00000 && t.val == 0x01B5D4C3) = true := by decide

/-- 42_table_bit.md R164: one entry past TBL_MAX. -/
theorem test_icdf16_bounds : after (exec (.icdf16 16) { readyB with arg0 := 4095, arg1 := 1 }) (fun t =>
    t.fcode == 5 && t.finfo == 4095) = true := by decide

/-- V5, first row. -/
theorem test_bits : after (exec (.bits 1) (constructed [(3, 0xAA)] 4 0x7FFFFFAA 0)) (fun t =>
    t.result == 0 && t.endPos == 1 && t.window == 0x55 && t.avail == 7 && t.totalBits == 34) = true := by decide

theorem test_bits_too_many : after (exec (.bits 26) readyB) (fun t =>
    t.statusWord == 0x0000021A && t.totalBits == 33) = true := by decide

/-- V7: UINT 256 on 0xFF takes the direct path. -/
theorem test_uint_direct : after (exec .uint { readyF with arg0 := 256 }) (fun t =>
    t.result == 255 && t.rng == 0x80000000 && t.totalBits == 41) = true := by decide

/-- V7: UINT 10000 on 0xFF is a corrupt frame that keeps its changes. -/
theorem test_uint_corrupt : after (exec .uint { readyF with arg0 := 10000 }) (fun t =>
    t.result == 0x273F && t.statusWord == 0x0000041A && t.rng == 0x00D0B69F && t.endPos == 1) = true := by decide

/-- V6. -/
theorem test_laplace_zero : after (exec .laplace { readyZ with arg0 := 16384, arg1 := 6000 }) (fun t =>
    t.result == 0 && t.rng == 0x40000000 && t.val == 0x3FFFFFFF) = true := by decide

/-- 44_laplace.md R203's example fs = 0, decay = 16384 on B (fm = 2330, by hand): an immediate collapse, di = 1165,
fl = 2330, fm < fl + 1, so -1166. -/
theorem test_laplace_collapse : after (exec .laplace { readyB with arg0 := 0, arg1 := 16384 }) (fun t =>
    t.result == 0xFFFFFB72) = true := by decide

/-- V50. -/
theorem test_tell : after (exec .tell readyB) (fun t => t.result == 1 && t.totalBits == 33) = true := by decide

/-- V51. -/
theorem test_tellFrac : after (exec .tellFrac { readyB with rng := 0x0CCCCCD4, val := 0x03B2A197 }) (fun t =>
    t.result == 35) = true := by decide

/-! ### Reset, and how a command comes to run -/

theorem test_reset_memory_wf : State.reset.buf.wf = true ∧ State.reset.tbl.wf = true := by decide

theorem test_reset_status : State.reset.statusWord = 0 ∧ readReg State.reset .id = 0x52444543 := by decide

/-- From reset, TELL finds no decoder (60_exceptions.md R239). -/
theorem test_withFetchWord : after (step (State.reset.withFetchWord 32 0x0000000B)) (fun t =>
    t.fcode == 2 && t.fcmd == 0x0000000B && t.pending == none) = true := by decide

/-- From reset, a loaded program's first command runs: a CMD write, then the block's step (log 3). -/
theorem test_program_runs_from_reset :
    after (step { State.reset with program := [cmdWrite .init] }) (fun t =>
      t.pending == some 0x00000001 && after (step t) (fun u => u.ecode == 1 && u.pending == none)) = true := by decide

/-- A 16-bit write moves two lanes, the low one first (20_memory.md R66). -/
theorem test_memory_write : (busAccess (.write .w16 0x20002 0xABCD) readyB).2.tbl = [(2, 0xCD), (3, 0xAB)] := by decide

/-- A zero byte written to a canonical memory leaves no entry. -/
theorem test_memory_canonical : Memory.write packetB 1 0 = [(0, 0x12), (2, 0x56), (3, 0x78)] := by decide

/-! ### Witnesses: the hypotheses of each obligation, met together -/

theorem witness_DecodeInvertsEncode : (Instr.bits 31).wf = true ∧ (Instr.icdf16 0).wf = true := by decide

theorem witness_EncodeInvertsDecode : decode 0x00001F08 = .ok (.bits 31) := by decide

/-- A name outside the twelve, and n at both ends of its range. -/
theorem witness_AssemblerEncodesOrRefuses :
    "ICDF" ∉ ["INIT", "DECODE", "DECODE_BIN", "UPDATE", "BIT_LOGP", "ICDF8", "ICDF16", "BITS", "UINT", "LAPLACE",
      "TELL", "TELL_FRAC"] ∧ (31 ≤ 31 ∧ ¬ 32 ≤ 31) := by decide

theorem witness_StepRunsDecodedCommand :
    BlockTurn (latched readyB 0x0000000B) 0x0000000B ∧ decode 0x0000000B = .ok .tell :=
  ⟨blockTurn_latched _ _ rfl, by decide⟩

theorem not_legal_0 : ¬ LegalFields 0x00000000 := fun h => absurd h.1 (by decide)
theorem not_legal_0D : ¬ LegalFields 0x0000000D := fun h => absurd h.2.1 (by decide)
theorem not_legal_rsv : ¬ LegalFields 0x80000001 := fun h => absurd h.2.2.1 (by decide)
theorem not_legal_n : ¬ LegalFields 0x00000101 := fun h => absurd (h.2.2.2 (by decide)) (by decide)

/-- One witness for each kind of illegal word of 30_encoding.md R95, with and without a decoder. -/
theorem witness_IllegalWordFaults :
    (BlockTurn (latched readyB 0x00000000) 0x00000000 ∧ ¬ LegalFields 0x00000000 ∧ readyB.fault = false) ∧
    (BlockTurn (latched State.reset 0x0000000D) 0x0000000D ∧ ¬ LegalFields 0x0000000D ∧ State.reset.fault = false) ∧
    (BlockTurn (latched readyB 0x80000001) 0x80000001 ∧ ¬ LegalFields 0x80000001) ∧
    (BlockTurn (latched readyB 0x00000101) 0x00000101 ∧ ¬ LegalFields 0x00000101) :=
  ⟨⟨blockTurn_latched _ _ rfl, not_legal_0, rfl⟩, ⟨blockTurn_latched _ _ rfl, not_legal_0D, rfl⟩,
    ⟨blockTurn_latched _ _ rfl, not_legal_rsv⟩, ⟨blockTurn_latched _ _ rfl, not_legal_n⟩⟩

theorem witness_FaultStateIgnoresWords :
    BlockTurn (latched faulted 0x00000000) 0x00000000 ∧ (latched faulted 0x00000000).fault = true ∧
    (0x00000000 : Word) ≠ 0x00000001 ∧ BlockTurn (latched faulted 0x0000000B) 0x0000000B :=
  ⟨blockTurn_latched _ _ rfl, rfl, by decide, blockTurn_latched _ _ rfl⟩

theorem witness_CommandWithoutDecoderFaults :
    BlockTurn (latched State.reset 0x0000000C) 0x0000000C ∧ LegalFields 0x0000000C ∧
    (0x0000000C : Word) ≠ 0x00000001 ∧ State.reset.fault = false ∧ State.reset.ready = false :=
  ⟨blockTurn_latched _ _ rfl, ⟨by decide, by decide, by decide, fun _ => by decide⟩, by decide, rfl, rfl⟩

theorem witness_FaultEntryIsPrecise :
    ∃ t, exec .decode readyB = .next t ∧ (t.fault && !readyB.fault) = true := after_next (by decide)

theorem witness_CompletionKeepsDecoder :
    Accepting readyB ∧ ∃ t, exec (.bits 26) readyB = .next t ∧ (!t.fault && t.ecode == 2) = true :=
  ⟨accepting_B, after_next (by decide)⟩

/-- The fault state left by INIT, and by a soft reset. -/
theorem witness_FaultStateLeftOnlyByInitOrReset :
    faulted.fault = true ∧
    (∃ t, step (latched faulted 0x00000001) = .next t ∧ (!t.fault) = true) ∧
    (∃ t, step { faulted with program := [.access (.write .w32 0x004 1)] } = .next t ∧ (!t.fault) = true) :=
  ⟨rfl, after_next (by decide), after_next (by decide)⟩

/-- LEN at both ends of its range. -/
theorem witness_InitConstructsDecoder :
    (2 ≤ (loaded packetB 2).len.toNat ∧ (loaded packetB 2).len.toNat ≤ 2048) ∧
    (2 ≤ (loaded packetB 2048).len.toNat ∧ (loaded packetB 2048).len.toNat ≤ (loaded packetB 2048).params.bufMax) := by
  decide

theorem witness_InitRejectsBadLengths :
    (loaded packetB 2049).params.bufMax < (loaded packetB 2049).len.toNat ∧
    ((loaded packetB 1).len.toNat ≤ (loaded packetB 1).params.bufMax ∧ (loaded packetB 1).len.toNat < 2) ∧
    (loaded packetB 0).len.toNat < 2 := by decide

/-- No iteration, one (RNG = 2^23) and three (RNG = 1). -/
theorem witness_NormalizeIsExactAndBounded :
    readyB.val.toNat < readyB.rng.toNat ∧
    ({ readyB with val := 0x7FFFFF, rng := 0x800000 }).val.toNat <
      ({ readyB with val := 0x7FFFFF, rng := 0x800000 }).rng.toNat ∧
    (normalizeRange { readyB with val := 0x7FFFFF, rng := 0x800000 }).rng = 0x80000000 ∧
    (normalizeRange { readyB with val := 0, rng := 1 }).rng = 0x01000000 := by decide

/-- ft = 0, ft = RNG + 1, ft = RNG. -/
theorem witness_DecodeReportsOffset :
    Accepting readyB ∧ ({ readyB with arg0 := 0 }).arg0.toNat = 0 ∧
    readyB.rng.toNat / (0x80000001 : Word).toNat = 0 ∧
    (readyB.rng.toNat / (0x80000000 : Word).toNat ≠ 0 ∧ (0x80000000 : Word).toNat ≠ 0) :=
  ⟨accepting_B, by decide, by decide, by decide⟩

/-- N = 31 on either side of RNG = 2^31, and N = 23. -/
theorem witness_DecodeBinReportsOffset :
    Accepting readyB ∧ CoreInv readyB ∧ 2 ^ 31 ≤ readyB.rng.toNat ∧
    ({ readyB with rng := 0x7FFFFFFF }).rng.toNat < 2 ^ 31 ∧ 2 ^ 23 ≤ readyB.rng.toNat :=
  ⟨accepting_B, coreInv_B, by decide, by decide, by decide⟩

/-- ft = 0; an empty interval; the interval [0, 1) of 10. -/
theorem witness_UpdateNarrowsInterval :
    Accepting readyB ∧
    after (exec .update readyB) (fun t => t.fcode == 3) = true ∧
    after (exec .update { readyB with arg0 := 3, arg1 := 3, arg2 := 10 }) (fun t => t.fcode == 4) = true ∧
    after (exec .update { readyB with arg0 := 0, arg1 := 1, arg2 := 10 }) (fun t => t.ready) = true :=
  ⟨accepting_B, by decide, by decide, by decide⟩

/-- fl = 0 and fl > 0, each holding the offset 2 of ft = 32, DECODE's answer on B. -/
theorem witness_UpdateInContractIsExact :
    Accepting readyB ∧ CoreInv readyB ∧
    (let fs := 32 - min (readyB.val.toNat / (readyB.rng.toNat / 32) + 1) 32
     (0 < 3 ∧ 3 ≤ 32 ∧ 32 ≤ readyB.rng.toNat ∧ 0 ≤ fs ∧ fs < 3) ∧ (2 < 3 ∧ 2 ≤ fs ∧ fs < 3)) :=
  ⟨accepting_B, coreInv_B, by decide⟩

/-- On B, whose offset of ft = 10 is 0: ft = 0; ft > RNG; fh > ft with fl = 0, and with fl > 0 and VAL below the product
(fl = 1, fh = 12) and at or above it (fl = 10, fh = 11); fl = fh > 0; the offset below the interval [1, 2), where
r ≤ v, and at or above [0, 0) of ft = 3, where v < r. -/
theorem witness_UpdateOutOfContractSaturates :
    Accepting readyB ∧ CoreInv readyB ∧
    readyB.rng.toNat < (0x80000001 : Word).toNat ∧ ((10 : Nat) ≠ 0 ∧ 10 ≤ readyB.rng.toNat) ∧ ((10 : Nat) < 11) ∧
    readyB.val.toNat < min (readyB.rng.toNat / 10 * (12 - 1)) (2 ^ 32 - 1) ∧
    min (readyB.rng.toNat / 10 * (11 - 10)) (2 ^ 32 - 1) ≤ readyB.val.toNat ∧ ((3 : Nat) ≤ 3 ∧ 0 < 3) ∧
    (let q := readyB.rng.toNat / 10
     let fs := 10 - min (readyB.val.toNat / q + 1) 10
     ¬ (1 ≤ fs ∧ fs < 2) ∧ q * (2 - 1) ≤ readyB.val.toNat - q * (10 - 2)) ∧
    (let q := readyB.rng.toNat / 3
     let fs := 3 - min (readyB.val.toNat / q + 1) 3
     ¬ (0 ≤ fs ∧ fs < 0) ∧ readyB.val.toNat - q * (3 - 0) < readyB.rng.toNat - q * (3 - 0)) :=
  ⟨accepting_B, coreInv_B, by decide, by decide, by decide, by decide, by decide, by decide, by decide, by decide⟩

/-- q = 0; VAL < q with q = 1 as its bound; q ≤ VAL. -/
theorem witness_BitLogpClosedForm :
    (Accepting { readyB with rng := 0x7FFFFFFF } ∧ CoreInv { readyB with rng := 0x7FFFFFFF } ∧
      ({ readyB with rng := 0x7FFFFFFF }).rng.toNat / 2 ^ 31 = 0) ∧
    (Accepting readyF ∧ CoreInv readyF ∧ readyF.rng.toNat / 2 ^ 31 ≠ 0 ∧
      readyF.val.toNat < readyF.rng.toNat / 2 ^ 31) ∧
    (Accepting readyB ∧ CoreInv readyB ∧ readyB.rng.toNat / 2 ^ 1 ≤ readyB.val.toNat) :=
  ⟨⟨⟨rfl, rfl⟩, ⟨by decide, by decide, by decide, by decide, by decide, by decide⟩, by decide⟩,
    ⟨⟨rfl, rfl⟩, ⟨by decide, by decide, by decide, by decide, by decide, by decide⟩, by decide, by decide⟩,
    accepting_B, coreInv_B, by decide⟩

/-- V3 stops at k = 3 of 4 entries; V24 stops at k = 0. -/
theorem witness_Icdf8FindsFirstStop :
    Accepting readyA ∧ readyA.val.toNat < readyA.rng.toNat ∧ 0 + 4 ≤ readyA.params.tblMax ∧
    (∀ j < 3, readyA.val.toNat < min (readyA.rng.toNat / 2 ^ 8 * (readyA.tbl.read (0 + j)).toNat) (2 ^ 32 - 1)) ∧
    min (readyA.rng.toNat / 2 ^ 8 * (readyA.tbl.read (0 + 3)).toNat) (2 ^ 32 - 1) ≤ readyA.val.toNat :=
  ⟨⟨rfl, rfl⟩, by decide, by decide, by decide, by decide⟩

theorem witness_Icdf16FindsFirstStop :
    Accepting { readyB with tbl := [(0x100, 0x60), (0x101, 0xEA)] } ∧ readyB.val.toNat < readyB.rng.toNat ∧
    0x100 + 2 * 4 ≤ readyB.params.tblMax ∧
    min (readyB.rng.toNat / 2 ^ 16 * (0x60 + 0xEA * 256)) (2 ^ 32 - 1) ≤ readyB.val.toNat :=
  ⟨⟨rfl, rfl⟩, by decide, by decide, by decide⟩

/-- len = 0; one entry past TBL_MAX; no entry that stops. -/
theorem witness_IcdfFaultsOnBadTables :
    Accepting readyA ∧ readyA.arg1.toNat = 0 ∧ readyA.params.tblMax < 4096 + 1 ∧ readyA.params.tblMax < 4095 + 2 * 1 ∧
    (∀ j < 3, readyA.val.toNat < min (readyA.rng.toNat / 2 ^ 8 * (readyA.tbl.read (0 + j)).toNat) (2 ^ 32 - 1)) ∧
    (∀ j < 1, readyA.val.toNat < min (readyA.rng.toNat / 2 ^ 8 *
      ((readyA.tbl.read (0 + 2 * j)).toNat + (readyA.tbl.read (0 + 2 * j + 1)).toNat * 256)) (2 ^ 32 - 1)) :=
  ⟨⟨rfl, rfl⟩, by decide, by decide, by decide, by decide, by decide⟩

theorem witness_IcdfIndexBelowTableLength :
    Accepting { readyA with arg1 := 4 } ∧
    ∃ t, exec (.icdf8 8) { readyA with arg1 := 4 } = .next t ∧ (!t.fault) = true :=
  ⟨⟨rfl, rfl⟩, after_next (by decide)⟩

theorem witness_BitsTakesLowBits :
    Accepting readyB ∧ CoreInv readyB ∧ (1 ≤ 1 ∧ 1 ≤ 25) ∧ (1 ≤ 25 ∧ 25 ≤ 25) :=
  ⟨accepting_B, coreInv_B, by decide, by decide⟩

theorem witness_BitsZeroAndTooMany : Accepting readyB ∧ (26 ≤ 26 ∧ 26 ≤ 31) ∧ (26 ≤ 31 ∧ 31 ≤ 31) :=
  ⟨accepting_B, by decide, by decide⟩

/-- ft = 1 and ft = 256. -/
theorem witness_UintDirectPath :
    (Accepting { readyB with arg0 := 1 } ∧ CoreInv { readyB with arg0 := 1 } ∧ 1 ≤ (1 : Word).toNat) ∧
    (Accepting { readyB with arg0 := 256 } ∧ CoreInv { readyB with arg0 := 256 } ∧ (256 : Word).toNat ≤ 256) :=
  ⟨⟨⟨rfl, rfl⟩, ⟨by decide, by decide, by decide, by decide, by decide, by decide⟩, by decide⟩,
    ⟨rfl, rfl⟩, ⟨by decide, by decide, by decide, by decide, by decide, by decide⟩, by decide⟩

/-- ft = 257 with ftb = 9, and ft = 2^32 - 1 with ftb = 32. -/
theorem witness_UintSplitPath :
    Accepting { readyB with arg0 := 257 } ∧ CoreInv { readyB with arg0 := 257 } ∧
    (256 < (257 : Word).toNat ∧ 2 ^ (9 - 1) ≤ (257 : Word).toNat - 1 ∧ (257 : Word).toNat - 1 < 2 ^ 9) ∧
    (256 < (0xFFFFFFFF : Word).toNat ∧ 2 ^ (32 - 1) ≤ (0xFFFFFFFF : Word).toNat - 1 ∧
      (0xFFFFFFFF : Word).toNat - 1 < 2 ^ 32) :=
  ⟨⟨rfl, rfl⟩, ⟨by decide, by decide, by decide, by decide, by decide, by decide⟩, by decide, by decide⟩

theorem witness_UintOfZeroAndOne :
    (Accepting { readyB with arg0 := 0 } ∧ ({ readyB with arg0 := 0 }).arg0 = 0) ∧
    (CoreInv { readyB with arg0 := 1 } ∧ ({ readyB with arg0 := 1 }).arg0 = 1) :=
  ⟨⟨⟨rfl, rfl⟩, rfl⟩, ⟨by decide, by decide, by decide, by decide, by decide, by decide⟩, rfl⟩

/-- fm = 0 below fs = 1 on zeros (V6's fm), and fs = 32768. -/
theorem witness_LaplaceDecodesZero :
    Accepting { readyZ with arg0 := 1 } ∧ CoreInv { readyZ with arg0 := 1 } ∧
    32768 - min (readyZ.val.toNat / (readyZ.rng.toNat / 32768) + 1) 32768 < 1 ∧ 32768 ≤ (0x8000 : Word).toNat :=
  ⟨⟨rfl, rfl⟩, ⟨by decide, by decide, by decide, by decide, by decide, by decide⟩, by decide, by decide⟩

/-- fs = 0, and fs = fm = 2330 on B. -/
theorem witness_LaplaceDecodesNonzero :
    Accepting readyB ∧ CoreInv readyB ∧
    (let fm := 32768 - min (readyB.val.toNat / (readyB.rng.toNat / 32768) + 1) 32768
     0 ≤ fm ∧ 2330 ≤ fm) :=
  ⟨accepting_B, coreInv_B, by decide⟩

theorem witness_LaplaceNeverFaults : Accepting readyB ∧ CoreInv readyB := ⟨accepting_B, coreInv_B⟩

/-- k = 32 at RNG = 2^31, and k = 24 at RNG = 2^23 + 1. -/
theorem witness_TellReportsWholeBits :
    (Accepting readyB ∧ CoreInv readyB ∧ 2 ^ (32 - 1) ≤ readyB.rng.toNat ∧ readyB.rng.toNat < 2 ^ 32) ∧
    (CoreInv { readyB with rng := 0x800001, val := 0 } ∧ 2 ^ (24 - 1) ≤ (0x800001 : Word).toNat ∧
      (0x800001 : Word).toNat < 2 ^ 24) :=
  ⟨⟨accepting_B, coreInv_B, by decide, by decide⟩,
    ⟨by decide, by decide, by decide, by decide, by decide, by decide⟩, by decide, by decide⟩

theorem witness_TellFracReportsEighthBits :
    Accepting readyB ∧ CoreInv readyB ∧ 2 ^ (32 - 1) ≤ readyB.rng.toNat ∧ readyB.rng.toNat < 2 ^ 32 ∧
    readyB.totalBits.toNat < 2 ^ 29 :=
  ⟨accepting_B, coreInv_B, by decide, by decide, by decide⟩

/-- BITS 25; UPDATE 0, 1, 10, which holds DECODE's offset 0; ICDF8 over V3's table. -/
theorem witness_TellNeverFalls :
    Accepting readyB ∧ CoreInv readyB ∧ readyB.totalBits.toNat + 64 < 2 ^ 32 ∧
    (∃ t, exec (.bits 25) readyB = .next t ∧ (!t.fault) = true) ∧
    (∃ t, exec .update { readyB with arg0 := 0, arg1 := 1, arg2 := 10 } = .next t ∧ (!t.fault) = true) ∧
    (1 ≤ 10 ∧ 0 ≤ 10 - min (readyB.val.toNat / (readyB.rng.toNat / 10) + 1) 10 ∧
      10 - min (readyB.val.toNat / (readyB.rng.toNat / 10) + 1) 10 < 1) ∧
    (∀ j < 4, (readyA.tbl.read (0 + j)).toNat ≤ 2 ^ 8) :=
  ⟨accepting_B, coreInv_B, by decide, after_next (by decide), after_next (by decide), by decide, by decide⟩

theorem witness_CommandsWriteNoMemory :
    (∃ t, exec .init (loaded packetB 4) = .next t ∧ t.ready = true) ∧
    BlockTurn (latched readyB 0x00001908) 0x00001908 ∧
    (∃ t, step (latched readyB 0x00001908) = .next t ∧ t.ready = true) :=
  ⟨after_next (by decide), blockTurn_latched _ _ rfl, after_next (by decide)⟩

theorem witness_CommandsKeepOperands : ∃ t, exec .uint { readyB with arg0 := 10000 } = .next t ∧ t.ready = true :=
  after_next (by decide)

theorem witness_RangeCoderFrame :
    Accepting readyB ∧ (∃ t, exec (.bitLogp 1) readyB = .next t ∧ (!t.fault) = true) ∧
    (∃ t, exec .tellFrac readyB = .next t ∧ (!t.fault) = true) :=
  ⟨accepting_B, after_next (by decide), after_next (by decide)⟩

theorem witness_RawChannelFrame :
    Accepting readyB ∧ (∃ t, exec (.bits 25) readyB = .next t ∧ (!t.fault) = true) ∧
    (∃ t, exec .uint { readyB with arg0 := 10000 } = .next t ∧ (!t.fault) = true) :=
  ⟨accepting_B, after_next (by decide), after_next (by decide)⟩

theorem witness_CursorsNeverMoveBack : ∃ t, exec .uint { readyB with arg0 := 10000 } = .next t ∧
    (t.endPos == 1) = true := after_next (by decide)

theorem witness_RangeCoderIgnoresRawChannel : ∃ t, exec (.bitLogp 1) readyB = .next t ∧ (t.rng == 0x40000000) = true :=
  after_next (by decide)

theorem witness_RawChannelIgnoresRangeCoder : ∃ t, exec (.bits 25) readyB = .next t ∧ (t.endPos == 4) = true :=
  after_next (by decide)

/-- Reserved offsets at both ends of their range, and a CTRL word with bit 0 clear. -/
theorem witness_RegisterReads :
    (0x048 ≤ 0x048 ∧ 0x048 ≤ 0xFFFC ∧ 0x048 % 4 = 0) ∧ (0x048 ≤ 0xFFFC ∧ 0xFFFC ≤ 0xFFFC ∧ 0xFFFC % 4 = 0) := by decide

theorem witness_RegisterWrites :
    (0xFFFFFFFE : Word).getLsbD 0 = false ∧ (0x048 ≤ 0x048 ∧ 0x048 ≤ 0xFFFC ∧ 0x048 % 4 = 0) ∧
    (0x048 ≤ 0xFFFC ∧ 0xFFFC ≤ 0xFFFC ∧ 0xFFFC % 4 = 0) := by decide

/-- The last aligned offset of the page, and its last byte. -/
theorem witness_PageTakesAlignedWordsOnly :
    0xFFFC < 0x10000 ∧ (busAccess (.read .w32 0xFFFC) readyB).1 = .data 0 ∧
    0xFFFF < 0x10000 ∧ (busAccess (.read .w8 0xFFFF) readyB).1 = .busError ∧
    (busAccess (.write .w32 0x0011 0) readyB).1 = .busError := by decide

theorem witness_BusErrorChangesNothing :
    (busAccess (.write .w8 0x010 1) readyB).1 = .busError ∧
    HostTurn { readyB with program := [.access (.write .w8 0x010 1)] } (.access (.write .w8 0x010 1)) [] :=
  ⟨by decide, rfl, rfl⟩

theorem memoryInv_B : MemoryInv readyB := ⟨by decide, by decide, by decide, by decide⟩

/-- The last word of a window, and the last byte and first byte past the capacity. -/
theorem witness_WindowAccessesMoveLanes :
    MemoryInv readyB ∧ (65532 < 0x10000 ∧ 65532 % 4 = 0) ∧ (2046 < 0x10000 ∧ 2046 % 2 = 0) ∧ 2048 < 0x10000 ∧
    readyB.params.bufMax = 2048 :=
  ⟨memoryInv_B, by decide, by decide, by decide, rfl⟩

theorem witness_MisalignedWindowAccessErrs : 65535 < 0x10000 ∧ 65535 % 2 ≠ 0 ∧ 65534 % 4 ≠ 0 := by decide

/-- The last BUF byte; the first byte past it; a TBL byte; LEN. -/
theorem witness_PacketWritesDiscardDecoder :
    (busAccess (.write .w8 0x107FF 1) readyB).1 = .done ∧ (busAccess (.write .w8 0x10800 1) readyB).1 = .done ∧
    (busAccess (.write .w8 0x20000 1) readyB).1 = .done ∧ (busAccess (.write .w32 0x020 4) readyB).1 = .done ∧
    0x107FF < 0x10000 + readyB.params.bufMax ∧ 0x10000 + readyB.params.bufMax ≤ 0x10800 := by decide

theorem witness_SoftResetClearsRegisters : (0xFFFFFFFF : Word).getLsbD 0 = true := by decide

/-- No program item; WAITIDLE; a read; a write. -/
theorem witness_IdleStepPerformsHostAccess :
    readyB.pending = none ∧ readyB.program = [] ∧
    ({ readyB with program := psWaitidle }).program = .waitIdle :: [] ∧
    busAccess (.read .w32 0x024) readyB = (.data 0x80000000, readyB) ∧
    (busAccess (.write .w32 0x010 7) readyB).1 = .done := by decide

/-- `ICDF8 8, 0, 4` expands as R98 shows; `ICDF8 32` and `ICDF16 32` are refused (30_encoding.md R97, R98). -/
theorem test_icdf_pseudo :
    psIcdf8 8 0 4 = some [.access (.write .w32 0x010 0), .access (.write .w32 0x014 4),
      .access (.write .w32 0x00C 0x00000806)] ∧
    psIcdf8 32 0 4 = none ∧ psIcdf16 32 0 4 = none := by decide

/-- A waiting RESULT read, a waiting 8-bit read at STATUS's offset, and a STATUS read inside the command's latency. -/
theorem witness_InterlockHolds :
    ((latched readyB 0x0000000B).pending = some 0x0000000B ∧ isStatusRead (.access (.read .w32 0x01C)) = false ∧
      isStatusRead (.access (.read .w8 0x008)) = false ∧
      ∃ t, step { latched readyB 0x0000000B with program := [.access (.read .w32 0x01C)] } = .next t ∧
        (t.pending == none && t.result == 1) = true) ∧
    (isStatusRead (.access (.read .w32 0x008)) = true ∧
      ({ latched readyB 0x0000000B with polls := [1] }).polls = (0 + 1) :: []) :=
  ⟨⟨rfl, by decide, by decide, after_next (by decide)⟩, by decide, rfl⟩

theorem witness_PendingCommandAlwaysSteps : (latched readyB 0x0000000B).pending = some 0x0000000B := rfl

theorem witness_PowerOnSatisfiesInvariant :
    ({ bufMax := 2, tblMax := 65536 } : Params).legal = true ∧ Memory.wf [(0, 1), (1, 2)] = true ∧
    Memory.below 2 [(0, 1), (1, 2)] = true ∧ Memory.wf [] = true := by decide

theorem inv_B : readyB.Inv :=
  ⟨by decide, memoryInv_B,
    ⟨by decide, by decide, by decide, by decide, by decide, by decide, by decide, by decide, by decide⟩,
    fun _ => coreInv_B, fun _ => ⟨by decide, by decide⟩⟩

/-- The invariant at a state with a decoder and a pending command, whose step answers. -/
theorem witness_StepKeepsInvariant :
    (latched readyB 0x00000405).Inv ∧ ∃ t, step (latched readyB 0x00000405) = .next t ∧ t.ready = true :=
  ⟨⟨by decide, ⟨by decide, by decide, by decide, by decide⟩,
    ⟨by decide, by decide, by decide, by decide, by decide, by decide, by decide, by decide, by decide⟩,
    fun _ => ⟨by decide, by decide, by decide, by decide, by decide, by decide⟩, fun _ => ⟨by decide, by decide⟩⟩,
    after_next (by decide)⟩

theorem witness_StepKeepsMemoryCanonical :
    MemoryInv { readyB with program := [stWRB .buf 1 0] } ∧
    ∃ t, step { readyB with program := [stWRB .buf 1 0] } = .next t ∧
      (t.buf == [(0, 0x12), (2, 0x56), (3, 0x78)]) = true :=
  ⟨⟨by decide, by decide, by decide, by decide⟩, after_next (by decide)⟩

theorem witness_StepOnlyStopsOnHostErrors : readyB.Inv := inv_B

end Sys2Proof.Tests
end

section
/-! PROOFS of the statements of 10_state.md: the step lemma of the invariant, what no command writes, the cursors,
the step on a decoded word, and STATUS. -/

namespace Sys2Proof.Machine

/-! ### The invariant, one clause at a time -/

/-- Fault entry establishes what 10_state.md R40 and R41 ask, from any state. -/
theorem statusInv_raiseFault (w : Word) (f : RdecFault) (x : Word) (s : State) : StatusInv (raiseFault w f x s) where
  fault_ready _ := rfl
  fault_fcode _ := by cases f <;> simp [RdecFault.code]
  fault_ecode _ := rfl
  clear_fcode h := by simp at h
  clear_fcmd h := by simp at h
  clear_finfo h := by simp at h
  err_seen h := absurd rfl h
  ecode_le := Nat.zero_le _
  fcode_le := by cases f <;> simp [RdecFault.code]

/-- STATUS is consistent at power-on (10_state.md R44). -/
theorem statusInv_powerOn (p : Params) (buf tbl : Memory) (program : List HostOp) (polls : List Nat) :
    StatusInv (State.powerOn p buf tbl program polls) where
  fault_ready _ := rfl
  fault_fcode h := by cases h
  fault_ecode _ := rfl
  clear_fcode _ := rfl
  clear_fcmd _ := rfl
  clear_finfo _ := rfl
  err_seen h := absurd rfl h
  ecode_le := Nat.zero_le _
  fcode_le := Nat.zero_le _

/-- A completion outside the fault state establishes what 10_state.md R40 and R41 ask. -/
theorem statusInv_complete (c : Completion) (r : Word) {s : State} (hf : s.fault = false) (h1 : s.fcode = 0)
    (h2 : s.fcmd = 0) (h3 : s.finfo = 0) : StatusInv (complete c r s) where
  fault_ready h := by simp [hf] at h
  fault_fcode h := by simp [hf] at h
  fault_ecode h := by simp [hf] at h
  clear_fcode _ := h1
  clear_fcmd _ := h2
  clear_finfo _ := h3
  err_seen h := by cases c <;> simp [Completion.code] at h ⊢
  ecode_le := by cases c <;> simp [Completion.code]
  fcode_le := by simp [h1]

/-- A completed command keeps the consistency of STATUS. -/
theorem Completes.statusInv {s t : State} (h : Completes s t) (hs : StatusInv s) (hf : s.fault = false) :
    StatusInv t := by
  have h1 := hs.clear_fcode hf
  have h2 := hs.clear_fcmd hf
  have h3 := hs.clear_finfo hf
  cases h with
  | report c r => exact statusInv_complete c r hf h1 h2 h3
  | narrow c r v g h => apply statusInv_complete <;> simpa
  | raw r n h => apply statusInv_complete <;> simpa
  | both c r v g h n hn => apply statusInv_complete <;> simpa

/-- The consistency of STATUS is about STATUS and the fault registers, and losing READY does not break it. -/
theorem StatusInv.of_same {s t : State} (h : StatusInv s) (hr : t.ready = true → s.ready = true)
    (hf : t.fault = s.fault) (hfcode : t.fcode = s.fcode) (hfcmd : t.fcmd = s.fcmd) (hfinfo : t.finfo = s.finfo)
    (hecode : t.ecode = s.ecode) (hseen : t.errSeen = s.errSeen) : StatusInv t where
  fault_ready hft := by
    have hs : s.ready = false := h.fault_ready (by rw [← hf, hft])
    simpa [hs] using hr
  fault_fcode := by rw [hf, hfcode]; exact h.fault_fcode
  fault_ecode := by rw [hf, hecode]; exact h.fault_ecode
  clear_fcode := by rw [hf, hfcode]; exact h.clear_fcode
  clear_fcmd := by rw [hf, hfcmd]; exact h.clear_fcmd
  clear_finfo := by rw [hf, hfinfo]; exact h.clear_finfo
  err_seen := by rw [hecode, hseen]; exact h.err_seen
  ecode_le := by rw [hecode]; exact h.ecode_le
  fcode_le := by rw [hfcode]; exact h.fcode_le

/-- The memories' invariant is about BUF, TBL and the parameters. -/
theorem MemoryInv.of_same {s t : State} (h : MemoryInv s) (hb : t.buf = s.buf) (ht : t.tbl = s.tbl)
    (hp : t.params = s.params) : MemoryInv t :=
  ⟨by rw [hb]; exact h.buf_wf, by rw [ht]; exact h.tbl_wf, by rw [hb, hp]; exact h.buf_below,
    by rw [ht, hp]; exact h.tbl_below⟩

/-- A packet that fits is one of LEN and the parameters. -/
theorem PacketInv.of_same {s t : State} (h : PacketInv s) (hl : t.len = s.len) (hp : t.params = s.params) :
    PacketInv t :=
  ⟨by rw [hl]; exact h.two_le, by rw [hl, hp]; exact h.le_max⟩

/-- Without a decoder the invariant asks nothing of the core and the packet. -/
theorem State.Inv.of_not_ready {s : State} (hp : s.params.legal = true) (hm : MemoryInv s) (hs : StatusInv s)
    (hr : s.ready = false) : s.Inv :=
  ⟨hp, hm, hs, fun h => by simp [hr] at h, fun h => by simp [hr] at h⟩

/-! ### The block's step keeps the invariant -/

/-- Fault entry keeps the invariant. -/
theorem raiseFault_inv {s : State} (h : s.Inv) (w : Word) (f : RdecFault) (x : Word) : (raiseFault w f x s).Inv :=
  .of_not_ready h.params (h.memory.of_same rfl rfl rfl) (statusInv_raiseFault w f x s) rfl

/-- INIT's seed, normalized, satisfies 10_state.md R25: the raw channel is empty (40_init_normalize.md R121, R125). -/
theorem coreInv_initSeed_normalized (b0 : Nat) (s : State) : CoreInv (normalizeRange (initSeed b0 s)) := by
  obtain ⟨hrng, hval, hpos, htot⟩ := initSeed_normalized b0 s
  exact ⟨hrng, hval, by simp, by simp, htot.ge, hpos.ge⟩

/-- INIT establishes the clauses about STATUS, the core and the packet, whatever state it found
(40_init_normalize.md R120, R125). -/
theorem exec_init_establishes {s t : State} (h : exec .init s = .next t) :
    StatusInv t ∧ (t.ready = true → CoreInv t ∧ PacketInv t) := by
  rcases exec_init_cases s with ⟨-, e⟩ | ⟨-, -, e⟩ | ⟨hmax, htwo, e⟩ <;> rw [e] at h <;>
    obtain rfl := Host.Outcome.next.inj h
  · exact ⟨statusInv_raiseFault _ _ _ _, fun h => by simp at h⟩
  · exact ⟨statusInv_complete _ _ rfl rfl rfl rfl, fun h => by simp at h⟩
  · refine ⟨?_, fun _ => ⟨?_, ?_⟩⟩
    · apply statusInv_complete <;> simp
    · have hc := coreInv_initSeed_normalized (s.frontByte 0).toNat (clearFault s)
      exact hc.of_same (by constructor <;> simp)
    · exact ⟨by simpa using htwo, by simpa using hmax⟩

/-- Every command keeps the invariant. -/
theorem exec_inv {i : Instr} {s t : State} (hs : s.Inv) (h : exec i s = .next t) : t.Inv := by
  obtain ⟨hbuf, htbl, hops, hsur⟩ := exec_frame h
  have hp : t.params.legal = true := by rw [hsur.params]; exact hs.params
  have hm : MemoryInv t := hs.memory.of_same hbuf htbl hsur.params
  by_cases hi : i = .init
  · subst hi
    obtain ⟨hst, hrdy⟩ := exec_init_establishes h
    exact ⟨hp, hm, hst, fun hr => (hrdy hr).1, fun hr => (hrdy hr).2⟩
  · rcases exec_next hi h with ⟨-, rfl⟩ | ⟨-, -, rfl⟩ | ⟨ha, -, hc⟩ | ⟨-, f, x, rfl, -⟩
    · exact hs
    · exact raiseFault_inv hs _ _ _
    · exact ⟨hp, hm, hc.statusInv hs.status ha.no_fault, fun _ => hc.coreInv (hs.core ha.ready),
        fun _ => (hs.packet ha.ready).of_same hops.len hsur.params⟩
    · exact raiseFault_inv hs _ _ _

/-- Executing any word, legal or not, keeps the invariant. -/
theorem execWord_inv {w : Word} {s t : State} (hs : s.Inv) (h : execWord w s = .next t) : t.Inv := by
  unfold execWord at h
  split at h
  · exact exec_inv hs h
  · cases h
    split
    · exact hs
    · exact raiseFault_inv hs _ _ _

/-- The invariant does not speak of the operands, PENDING or the host's side. -/
theorem State.Inv.surroundings {s : State} (h : s.Inv) (a0 a1 a2 : Word) (pending : Option Word)
    (program : List HostOp) (replies : List Word) (polls : List Nat) :
    State.Inv { s with
      arg0 := a0, arg1 := a1, arg2 := a2, pending := pending, program := program, replies := replies
      polls := polls } :=
  ⟨h.params, h.memory.of_same rfl rfl rfl, h.status.of_same id rfl rfl rfl rfl rfl rfl,
    fun hr => (h.core hr).of_same ⟨rfl, rfl, rfl, rfl, rfl, rfl, rfl, rfl⟩,
    fun hr => (h.packet hr).of_same rfl rfl⟩

/-- The block's step keeps the invariant. -/
theorem blockStep_inv {w : Word} {s t : State} (hs : s.Inv) (h : blockStep w s = .next t) : t.Inv := by
  unfold blockStep at h
  split at h
  · rename_i u hu
    cases h
    exact (execWord_inv hs hu).surroundings ..
  · cases h
  · cases h

/-! ### The host's step keeps the invariant -/

/-- Discarding the decoder, with any LEN, keeps the invariant (20_memory.md R82). -/
theorem State.Inv.discard {s : State} (h : s.Inv) (len : BitVec 17) :
    State.Inv { s with len := len, ready := false } :=
  .of_not_ready h.params (h.memory.of_same rfl rfl rfl)
    (h.status.of_same (fun hr => by simp at hr) rfl rfl rfl rfl rfl rfl) rfl

/-- New canonical memories keep the invariant when no decoder appears with them. -/
theorem State.Inv.withMemory {s : State} (h : s.Inv) {buf tbl : Memory} {ready : Bool}
    (hm : MemoryInv { s with buf := buf, tbl := tbl, ready := ready }) (hr : ready = true → s.ready = true) :
    State.Inv { s with buf := buf, tbl := tbl, ready := ready } :=
  ⟨h.params, hm, h.status.of_same hr rfl rfl rfl rfl rfl rfl,
    fun hy => (h.core (hr hy)).of_same ⟨rfl, rfl, rfl, rfl, rfl, rfl, rfl, rfl⟩,
    fun hy => (h.packet (hr hy)).of_same rfl rfl⟩

/-- A window write constructs no decoder. -/
theorem ready_of_windowWrite_ready {w : Window} {i d n : Nat} {s : State}
    (h : (windowWrite w i d n s).ready = true) : s.ready = true := by
  induction n generalizing i d s with
  | zero => exact h
  | succ n ih =>
    have hs : (windowStore w i (BitVec.ofNat 8 d) s).ready = true := ih h
    unfold windowStore at hs
    split at hs
    · cases w with
      | buf => simp at hs
      | tbl => exact hs
    · exact hs

/-- A window write keeps the invariant. -/
theorem windowWrite_inv {s : State} (h : s.Inv) (w : Window) (i d n : Nat) : (windowWrite w i d n s).Inv := by
  have hm := windowWrite_memoryInv h.memory w i d n
  rw [windowWrite_frame] at hm ⊢
  exact h.withMemory hm ready_of_windowWrite_ready

/-- A soft reset keeps the invariant: it keeps the memories, and STATUS is as at power-on
(70_reset_and_hazards.md R271). -/
theorem softReset_inv {s : State} (h : s.Inv) : (softReset s).Inv :=
  .of_not_ready h.params (h.memory.of_same rfl rfl rfl)
    ((statusInv_powerOn s.params s.buf s.tbl s.program s.polls).of_same id rfl rfl rfl rfl rfl rfl) rfl

/-- A register write keeps the invariant. -/
theorem writeReg_inv {s : State} (h : s.Inv) (r : Reg) (v : Word) : (writeReg r v s).Inv := by
  cases r with
  | ctrl =>
    unfold writeReg
    dsimp only
    split
    · exact softReset_inv h
    · exact h
  | cmd | arg0 | arg1 | arg2 => exact h.surroundings ..
  | len => exact h.discard _
  | id | status | result | rng | val | pos | endPos | totalBits | window | rawinfo | fcmd | finfo => exact h

/-- Whatever state a host access leaves, the invariant holds there. -/
theorem Accesses.inv {a : Access} {s u : State} (h : Accesses a s u) (hs : s.Inv) : u.Inv := by
  cases h with
  | nothing => exact hs
  | register r v h => exact writeReg_inv hs r v
  | window w o v win i n h ho => exact windowWrite_inv hs win i _ n

/-- The host's step keeps the invariant. -/
theorem hostStep_inv {op : HostOp} {rest : List HostOp} {s t : State} (hs : s.Inv)
    (h : hostStep op rest s = .next t) : t.Inv := by
  rcases hostStep_next h with ⟨-, rfl⟩ | ⟨a, u, data, -, hu, rfl⟩
  · exact hs.surroundings ..
  · exact (hu.inv hs).surroundings ..

/-! ### The cursors -/

/-- The two cursors and the bit count of `t` are at or past those of `s`. -/
structure CursorsLe (s t : State) : Prop where
  pos : s.pos.toNat ≤ t.pos.toNat
  endPos : s.endPos.toNat ≤ t.endPos.toNat
  totalBits : s.totalBits.toNat ≤ t.totalBits.toNat

theorem CursorsLe.refl (s : State) : CursorsLe s s := ⟨le_rfl, le_rfl, le_rfl⟩

theorem CursorsLe.trans {s t u : State} (h : CursorsLe s t) (h' : CursorsLe t u) : CursorsLe s u :=
  ⟨h.pos.trans h'.pos, h.endPos.trans h'.endPos, h.totalBits.trans h'.totalBits⟩

/-- Narrowing moves POS and TOTAL_BITS forward and leaves END_POS. -/
theorem cursorsLe_narrow (s : State) {v g : Word} (h : v.toNat < g.toNat) :
    CursorsLe s (normalizeRange { s with val := v, rng := g }) := by
  obtain ⟨-, -, hpos, htot⟩ := normalizeRange_spec (s := { s with val := v, rng := g }) h
  exact ⟨hpos, by simp, htot⟩

/-- A tail fetch moves END_POS forward, saturating. -/
theorem endPos_le_rawFetch (s : State) : s.endPos.toNat ≤ (rawFetch s).endPos.toNat := by
  rw [rawFetch_endPos, satInc, satAdd_toNat]
  exact le_satAdd 1 s.endPos.isLt

/-- Taking raw bits moves END_POS and TOTAL_BITS forward and leaves POS, from any state. -/
theorem cursorsLe_rawBits (n : Nat) (s : State) : CursorsLe s (rawBits n s).2 where
  pos := by simp
  endPos := rawFill_keeps (P := fun t => s.endPos.toNat ≤ t.endPos.toNat)
    (fun t h => h.trans (endPos_le_rawFetch t)) n 4 s le_rfl
  totalBits := by
    have hfill : (rawFill n 4 s).totalBits = s.totalBits :=
      rawFill_keeps (P := fun t => t.totalBits = s.totalBits) (fun _ h => h) n 4 s rfl
    rw [rawBits, rawTake_totalBits, satAdd_toNat, hfill]
    exact le_satAdd n s.totalBits.isLt

/-- A completed command moves no cursor back; its completion writes none. -/
theorem Completes.cursorsLe {s t : State} (h : Completes s t) : CursorsLe s t := by
  have close {u : State} (hu : CursorsLe s u) (c : Completion) (r : Word) : CursorsLe s (complete c r u) :=
    ⟨hu.pos, hu.endPos, hu.totalBits⟩
  cases h with
  | report c r => exact close (.refl s) c r
  | narrow c r v g h => exact close (cursorsLe_narrow s h) c r
  | raw r n h => exact close (cursorsLe_rawBits n s) .ok r
  | both c r v g h n hn => exact close ((cursorsLe_narrow s h).trans (cursorsLe_rawBits n _)) c r

/-- No command but INIT moves a cursor back: one that is ignored or faults leaves all three. -/
theorem exec_cursorsLe {i : Instr} (hi : i ≠ .init) {s t : State} (h : exec i s = .next t) : CursorsLe s t := by
  rcases exec_next hi h with ⟨-, rfl⟩ | ⟨-, -, rfl⟩ | ⟨-, -, hc⟩ | ⟨-, f, x, rfl, -⟩
  · exact .refl t
  · exact ⟨le_rfl, le_rfl, le_rfl⟩
  · exact hc.cursorsLe
  · exact ⟨le_rfl, le_rfl, le_rfl⟩

/-! ### STATUS as a word -/

theorem bit_le_one (b : Bool) : bit b ≤ 1 := by cases b <;> decide

/-- STATUS is the sum of its fields: no field overflows its place. -/
theorem statusWord_toNat (s : State) : s.statusWord.toNat =
    bit s.busy + bit s.ready * 2 + bit s.fault * 4 + bit s.err * 8 + bit s.errSeen * 16
      + s.ecode.toNat * 2 ^ 8 + s.fcode.toNat * 2 ^ 16 := by
  have h0 := bit_le_one s.busy
  have h1 := bit_le_one s.ready
  have h2 := bit_le_one s.fault
  have h3 := bit_le_one s.err
  have h4 := bit_le_one s.errSeen
  exact w32_toNat_of_lt (by omega)

/-- A bit of a word, read off its value. -/
theorem getLsbD_of_div {x : Word} {k : Nat} {b : Bool} (h : x.toNat / 2 ^ k % 2 = bit b) : x.getLsbD k = b := by
  rw [BitVec.getLsbD, Nat.testBit_eq_decide_div_mod_eq, h]
  cases b <;> rfl

/-- A field of a word, read off its value. -/
theorem extractLsb'_of_div {x : Word} {k n : Nat} {f : BitVec n} (h : x.toNat / 2 ^ k % 2 ^ n = f.toNat) :
    x.extractLsb' k n = f := by
  apply BitVec.eq_of_toNat_eq
  rw [BitVec.extractLsb'_toNat, Nat.shiftRight_eq_div_pow, h]

/-- Bits of a word that are 0, read off its value. -/
theorem extractLsb'_eq_zero_of_div {x : Word} {k n : Nat} (h : x.toNat / 2 ^ k % 2 ^ n = 0) :
    x.extractLsb' k n = 0 :=
  extractLsb'_of_div h

end Sys2Proof.Machine

/-! ### The obligations -/

section
open Sys2Proof Sys2Proof.Machine

/-- Settles O58: every step is an idle step, a step of the host, a covered STATUS read or a step of the block
(`step_cases`), and each keeps the invariant. -/
theorem stepKeepsInvariant : Obligations.StepKeepsInvariant := by
  unfold Obligations.StepKeepsInvariant
  intro s t hs h
  rcases step_cases s with ⟨-, -, e⟩ | ⟨op, rest, -, e⟩ | ⟨w, op, rest, n, later, -, -, -, -, e⟩ | ⟨w, -, e⟩ <;>
    rw [e] at h
  · cases h; exact hs
  · exact hostStep_inv hs h
  · exact hostStep_inv (hs.surroundings ..) h
  · exact blockStep_inv hs h

/-- Settles O38, from what no command writes (`exec_frame`). -/
theorem commandsKeepOperands : Obligations.CommandsKeepOperands := by
  unfold Obligations.CommandsKeepOperands
  intro i s t h
  obtain ⟨-, -, hops, hsur⟩ := exec_frame h
  exact ⟨hops, hsur⟩

/-- Settles O41, from what every command but INIT leaves of the cursors (`exec_cursorsLe`). -/
theorem cursorsNeverMoveBack : Obligations.CursorsNeverMoveBack := by
  unfold Obligations.CursorsNeverMoveBack
  intro i s t hi h
  obtain ⟨hpos, hend, htot⟩ := exec_cursorsLe hi h
  exact ⟨hpos, hend, htot⟩

/-- Settles O6: the step is the block's (`step_blockTurn`), and the word's execution is the command's. -/
theorem stepRunsDecodedCommand : Obligations.StepRunsDecodedCommand := by
  unfold Obligations.StepRunsDecodedCommand
  intro s w i hturn hdec
  have hword : execWord w s = exec i s := by rw [execWord, hdec]
  rw [step_blockTurn hturn, blockStep, hword]
  cases exec i s <;> rfl

/-- Settles O44: each bit and field is read off the sum that STATUS is (`statusWord_toNat`). -/
theorem statusFieldsInPlace : Obligations.StatusFieldsInPlace := by
  unfold Obligations.StatusFieldsInPlace
  intro s
  have hw := statusWord_toNat s
  have h0 := bit_le_one s.busy
  have h1 := bit_le_one s.ready
  have h2 := bit_le_one s.fault
  have h3 := bit_le_one s.err
  have h4 := bit_le_one s.errSeen
  have he := s.ecode.isLt
  have hf := s.fcode.isLt
  refine ⟨getLsbD_of_div (b := s.busy) ?_, getLsbD_of_div ?_, getLsbD_of_div ?_, getLsbD_of_div (b := s.err) ?_,
    getLsbD_of_div ?_, extractLsb'_eq_zero_of_div ?_, extractLsb'_of_div ?_, extractLsb'_eq_zero_of_div ?_,
    extractLsb'_of_div ?_, extractLsb'_eq_zero_of_div ?_⟩ <;> omega

end
end

section
/-! PROOFS of the statements of 20_memory.md: no command writes memory, the register page, the windows lane by lane, the
bus error, and what each step keeps of the memories. -/

namespace Sys2Proof.Machine

/-! ### What the block's step leaves of memory -/

/-- Executing any word, legal or not, leaves BUF, TBL and the parameters (20_memory.md R72). -/
theorem execWord_memory {w : Word} {s t : State} (h : execWord w s = .next t) :
    t.buf = s.buf ∧ t.tbl = s.tbl ∧ t.params = s.params := by
  unfold execWord at h
  split at h
  · obtain ⟨hb, ht, -, hsur⟩ := exec_frame h
    exact ⟨hb, ht, hsur.params⟩
  · cases h
    split <;> exact ⟨rfl, rfl, rfl⟩

/-- The block's step leaves BUF, TBL and the parameters (20_memory.md R72). -/
theorem blockStep_memory {w : Word} {s t : State} (h : blockStep w s = .next t) :
    t.buf = s.buf ∧ t.tbl = s.tbl ∧ t.params = s.params := by
  unfold blockStep at h
  split at h
  · rename_i u hu
    cases h
    obtain ⟨hb, ht, hp⟩ := execWord_memory hu
    exact ⟨hb, ht, hp⟩
  · cases h
  · cases h

/-- Equal memories read alike. -/
theorem SameMemory.of_eq {s t : State} (hb : t.buf = s.buf) (ht : t.tbl = s.tbl) : SameMemory s t :=
  fun _ => ⟨by rw [hb], by rw [ht]⟩

/-! ### What the host's step keeps of memory -/

/-- A register write, the soft reset included, leaves BUF, TBL and the parameters (70_reset_and_hazards.md R271). -/
theorem writeReg_memory (r : Reg) (v : Word) (s : State) :
    (writeReg r v s).buf = s.buf ∧ (writeReg r v s).tbl = s.tbl ∧ (writeReg r v s).params = s.params := by
  cases r with
  | ctrl =>
    unfold writeReg
    dsimp only
    split <;> exact ⟨rfl, rfl, rfl⟩
  | _ => exact ⟨rfl, rfl, rfl⟩

/-- Whatever state a host access leaves, its memories are canonical. -/
theorem Accesses.memoryInv {a : Access} {s u : State} (h : Accesses a s u) (hm : MemoryInv s) : MemoryInv u := by
  cases h with
  | nothing => exact hm
  | register r v _ =>
    obtain ⟨hb, ht, hp⟩ := writeReg_memory r v s
    exact hm.of_same hb ht hp
  | window w o v win i n _ _ => exact windowWrite_memoryInv hm win i _ n

/-- The host's step keeps the memories canonical. -/
theorem hostStep_memoryInv {op : HostOp} {rest : List HostOp} {s t : State} (hm : MemoryInv s)
    (h : hostStep op rest s = .next t) : MemoryInv t := by
  rcases hostStep_next h with ⟨-, rfl⟩ | ⟨a, u, data, -, hu, rfl⟩
  · exact hm.of_same rfl rfl rfl
  · exact (hu.memoryInv hm).of_same rfl rfl rfl

/-! ### The register page -/

/-- A read at a register's offset, with no side effect (20_memory.md R62, R73). -/
theorem busAccess_read_reg (r : Reg) (s : State) :
    busAccess (.read .w32 (regOffset r)) s = (.data (readReg s r), s) := by
  rw [busAccess, busRead_reg]

/-- A write at a register's offset (20_memory.md R62). -/
theorem busAccess_write_reg (r : Reg) (v : Word) (s : State) :
    busAccess (.write .w32 (regOffset r) v) s = (.done, writeReg r v s) :=
  busWrite_reg r v s

/-- FINFO is the last register (20_memory.md R62). -/
theorem regOffset_le (r : Reg) : regOffset r ≤ 0x044 := by cases r <;> decide

/-- No register lies past FINFO (20_memory.md R68). -/
theorem regAt_reserved {o : Nat} (h : 0x048 ≤ o) : regAt o = none := by
  cases hr : regAt o with
  | none => rfl
  | some r =>
    have := regAt_eq_some hr
    have := regOffset_le r
    omega

theorem pageAccepts_iff {w : Width} {o : Nat} : pageAccepts w o = true ↔ w = .w32 ∧ o % 4 = 0 := by
  simp [pageAccepts]

/-- A reserved offset of the page reads 0 (20_memory.md R68). -/
theorem busAccess_read_reserved {o : Nat} (h : 0x048 ≤ o) (hp : o < 0x10000) (ha : o % 4 = 0) (s : State) :
    busAccess (.read .w32 o) s = (.data 0, s) := by
  simp only [busAccess, busRead, placeOf_page hp, pageAccepts_iff.mpr ⟨rfl, ha⟩, regAt_reserved h, if_true]

/-- A reserved offset of the page ignores a write (20_memory.md R68). -/
theorem busAccess_write_reserved {o : Nat} (h : 0x048 ≤ o) (hp : o < 0x10000) (ha : o % 4 = 0) (v : Word) (s : State) :
    busAccess (.write .w32 o v) s = (.done, s) := by
  simp only [busAccess, busWrite, placeOf_page hp, pageAccepts_iff.mpr ⟨rfl, ha⟩, regAt_reserved h, if_true]

/-- An access to the page errs exactly when the page does not take it (20_memory.md R65). -/
theorem busAccess_page_error {w : Width} {o : Nat} (hp : o < 0x10000) (v : Word) (s : State) :
    ((busAccess (.read w o) s).1 = .busError ↔ pageAccepts w o = false) ∧
      ((busAccess (.write w o v) s).1 = .busError ↔ pageAccepts w o = false) := by
  simp only [busAccess, busRead, busWrite, placeOf_page hp]
  cases pageAccepts w o with
  | false => simp
  | true => cases regAt o <;> simp

/-- The registers that ignore a write (20_memory.md R68). -/
def readOnlyRegs : List Reg :=
  [.id, .status, .result, .rng, .val, .pos, .endPos, .totalBits, .window, .rawinfo, .fcmd, .finfo]

theorem writeReg_readOnly {r : Reg} (h : r ∈ readOnlyRegs) (v : Word) (s : State) : writeReg r v s = s := by
  cases r with
  | ctrl | cmd | arg0 | arg1 | arg2 | len => exact absurd h (by decide)
  | _ => rfl

/-- A CTRL write with bit 0 clear does nothing (10_state.md R34). -/
theorem writeReg_ctrl_clear {v : Word} (h : v.getLsbD 0 = false) (s : State) : writeReg .ctrl v s = s := by
  have hv : ¬ v.toNat % 2 = 1 := by simpa [BitVec.getLsbD, Nat.testBit_zero] using h
  exact if_neg hv

/-- RAWINFO is the sum of its two fields. -/
theorem rawinfoWord_toNat (s : State) : s.rawinfoWord.toNat = s.avail.toNat + s.rem.toNat * 2 ^ 8 := by
  have ha := s.avail.isLt
  have hr := s.rem.isLt
  exact w32_toNat_of_lt (by omega)

/-! ### One access to a window -/

/-- The memory behind a window (20_memory.md R60). -/
def windowMem (s : State) : Window → Memory
  | .buf => s.buf
  | .tbl => s.tbl

theorem MemoryInv.windowMem_wf {s : State} (h : MemoryInv s) : ∀ w, Memory.wf (windowMem s w) = true
  | .buf => h.buf_wf
  | .tbl => h.tbl_wf

theorem placeOf_window : ∀ (w : Window) {i : Nat}, i < 0x10000 → placeOf (windowBase w + i) = .window w i
  | .buf, _, h => placeOf_buf h
  | .tbl, _, h => placeOf_tbl h

/-- A naturally aligned read of a window moves its lanes (20_memory.md R66). -/
theorem busAccess_read_window (win : Window) {w : Width} {i : Nat} (hi : i < 0x10000) (ha : i % widthBytes w = 0)
    (s : State) :
    busAccess (.read w (windowBase win + i)) s = (.data (w32 (windowRead s win i (widthBytes w))), s) := by
  simp only [busAccess, busRead, placeOf_window win hi, windowAccepts, ha, decide_true, if_true]

/-- A naturally aligned write to a window moves its lanes (20_memory.md R66). -/
theorem busAccess_write_window (win : Window) {w : Width} {i : Nat} (hi : i < 0x10000) (ha : i % widthBytes w = 0)
    (v : Word) (s : State) :
    busAccess (.write w (windowBase win + i) v) s = (.done, windowWrite win i v.toNat (widthBytes w) s) := by
  simp only [busAccess, busWrite, placeOf_window win hi, windowAccepts, ha, decide_true, if_true]

/-- A misaligned access to a window errs and changes nothing (20_memory.md R66, R67). -/
theorem busAccess_window_misaligned (win : Window) {w : Width} {i : Nat} (hi : i < 0x10000) (ha : i % widthBytes w ≠ 0)
    (v : Word) (s : State) :
    busAccess (.read w (windowBase win + i)) s = (.busError, s) ∧
      busAccess (.write w (windowBase win + i) v) s = (.busError, s) := by
  simp [busAccess, busRead, busWrite, placeOf_window win hi, windowAccepts, ha]

/-- A window write that was performed moved its lanes. -/
theorem busAccess_write_window_done {win : Window} {w : Width} {i : Nat} (hi : i < 0x10000) {v : Word} {s t : State}
    (h : busAccess (.write w (windowBase win + i) v) s = (.done, t)) :
    t = windowWrite win i v.toNat (widthBytes w) s := by
  by_cases ha : i % widthBytes w = 0
  · rw [busAccess_write_window win hi ha] at h
    exact (Prod.mk.inj h).2.symm
  · rw [(busAccess_window_misaligned win hi ha v s).2] at h
    cases h

/-! ### The lanes of a window access -/

/-- A byte of a window as a number: the memory's below the capacity, 0 past it (20_memory.md R68). -/
theorem windowByte_toNat (s : State) (w : Window) (i : Nat) :
    (windowByte s w i).toNat = if i < windowMax s w then ((windowMem s w).read i).toNat else 0 := by
  unfold windowByte
  split
  · cases w <;> rfl
  · rfl

/-- A window read is the little-endian sum of its bytes (20_memory.md R66). -/
theorem windowRead_eq_sum (s : State) (w : Window) (i n : Nat) :
    windowRead s w i n = ∑ k ∈ Finset.range n, (windowByte s w (i + k)).toNat * 256 ^ k := by
  induction n generalizing i with
  | zero => rfl
  | succ n ih =>
    have lane (k : Nat) : (windowByte s w (i + (k + 1))).toNat * 256 ^ (k + 1) =
        256 * ((windowByte s w (i + 1 + k)).toNat * 256 ^ k) := by
      rw [Nat.add_right_comm i 1 k, Nat.add_assoc, Nat.pow_succ]; ring
    rw [windowRead, ih, Finset.sum_range_succ', Finset.mul_sum]
    simp only [lane, Nat.add_zero, Nat.pow_zero, Nat.mul_one]
    exact Nat.add_comm _ _

theorem windowMax_windowStore (w w' : Window) (i : Nat) (v : Byte) (s : State) :
    windowMax (windowStore w i v s) w' = windowMax s w' := by
  unfold windowStore
  split
  · cases w <;> cases w' <;> rfl
  · rfl

/-- What a stored byte leaves in the window's memory: itself below the capacity, nothing past it (20_memory.md R68). -/
theorem windowStore_read {s : State} (h : MemoryInv s) (w : Window) (i j : Nat) (v : Byte) :
    (windowMem (windowStore w i v s) w).read j =
      if j = i ∧ i < windowMax s w then v else (windowMem s w).read j := by
  unfold windowStore
  by_cases hi : i < windowMax s w
  · simp only [hi, if_true, and_true]
    cases w with
    | buf => exact Memory.read_write h.buf_wf i j v
    | tbl => exact Memory.read_write h.tbl_wf i j v
  · simp [hi]

/-- A stored byte keeps the canonical memories. -/
theorem windowStore_memoryInv {s : State} (h : MemoryInv s) (w : Window) (i d : Nat) :
    MemoryInv (windowStore w i (BitVec.ofNat 8 d) s) :=
  windowWrite_memoryInv h w i d 1

/-- A window write stores lane `j - i` of the data at each index `j` it covers below the capacity, and no other byte of
its window (20_memory.md R66, R68). -/
theorem windowWrite_read {s : State} (h : MemoryInv s) (w : Window) (i d n j : Nat) :
    (windowMem (windowWrite w i d n s) w).read j =
      if i ≤ j ∧ j < i + n ∧ j < windowMax s w then BitVec.ofNat 8 (d / 256 ^ (j - i))
      else (windowMem s w).read j := by
  induction n generalizing i d s with
  | zero =>
    rw [if_neg (by omega)]
    rfl
  | succ n ih =>
    rw [windowWrite, ih (windowStore_memoryInv h w i d), windowMax_windowStore, windowStore_read h]
    rcases Nat.lt_trichotomy j i with hlt | rfl | hgt
    · rw [if_neg (by omega), if_neg (by omega), if_neg (by omega)]
    · simp
    · have lane : d / 256 / 256 ^ (j - (i + 1)) = d / 256 ^ (j - i) := by
        rw [Nat.div_div_eq_div_mul, ← Nat.pow_succ', show (j - (i + 1)).succ = j - i by omega]
      have covered : (i + 1 ≤ j ∧ j < i + 1 + n ∧ j < windowMax s w) ↔
          (i ≤ j ∧ j < i + (n + 1) ∧ j < windowMax s w) := by omega
      rw [lane, if_neg (c := j = i ∧ _) (by omega)]
      simp only [covered]

/-- Byte `k` of a word, as the division that a window write does. -/
theorem ofNat_div_eq_lane (v : Word) (k : Nat) : BitVec.ofNat 8 (v.toNat / 256 ^ k) = v.extractLsb' (8 * k) 8 := by
  apply BitVec.eq_of_toNat_eq
  rw [BitVec.toNat_ofNat, BitVec.extractLsb'_toNat, Nat.shiftRight_eq_div_pow, Nat.pow_mul]

/-! ### READY at a window write -/

/-- A BUF write that reaches a byte below the capacity discards the decoder (20_memory.md R82). -/
theorem windowWrite_buf_not_ready {s : State} {i : Nat} (hi : i < s.params.bufMax) (d n : Nat) :
    (windowWrite .buf i d (n + 1) s).ready = false := by
  have hstore : (windowStore .buf i (BitVec.ofNat 8 d) s).ready = false := by
    rw [windowStore, if_pos (show i < windowMax s .buf from hi)]
  rw [windowWrite, ← Bool.not_eq_true]
  intro hr
  rw [ready_of_windowWrite_ready hr] at hstore
  cases hstore

/-- A write that starts at or past the capacity is ignored (20_memory.md R68). -/
theorem windowWrite_past_capacity {s : State} {w : Window} {i : Nat} (hi : windowMax s w ≤ i) (d n : Nat) :
    windowWrite w i d n s = s := by
  induction n generalizing i d with
  | zero => rfl
  | succ n ih =>
    have hstore : windowStore w i (BitVec.ofNat 8 d) s = s := if_neg (by omega)
    rw [windowWrite, hstore]
    exact ih (by omega) _

theorem exists_widthBytes (w : Width) : ∃ n, widthBytes w = n + 1 := by
  cases w with
  | w8 => exact ⟨0, rfl⟩
  | w16 => exact ⟨1, rfl⟩
  | w32 => exact ⟨3, rfl⟩

/-! ### The host's step by the block's answer -/

/-- Data is the answer to a read, and a read has no side effect (20_memory.md R73). -/
theorem busAccess_data {a : Access} {s t : State} {v : Word} (h : busAccess a s = (.data v, t)) : t = s := by
  cases a with
  | read w o => exact (Prod.mk.inj h).2.symm
  | write w o x =>
    simp only [busAccess, busWrite] at h
    split at h
    · split at h
      · split at h <;> cases h
      · cases h
    · split at h <;> cases h
    · cases h

theorem hostStep_of_data {a : Access} {s t : State} {v : Word} (h : busAccess a s = (.data v, t))
    (rest : List HostOp) :
    hostStep (.access a) rest s = .next { s with program := rest, replies := s.replies ++ [v] } := by
  obtain rfl := busAccess_data h
  simp only [hostStep, h]

theorem hostStep_of_done {a : Access} {s t : State} (h : busAccess a s = (.done, t)) (rest : List HostOp) :
    hostStep (.access a) rest s = .next { t with program := rest } := by
  simp only [hostStep, h]

/-- A bus error is the host's own fault (20_memory.md R67, log 5). -/
theorem hostStep_of_busError {a : Access} {s : State} (h : (busAccess a s).1 = .busError) (rest : List HostOp) :
    hostStep (.access a) rest s = .fault .busError := by
  have he : busAccess a s = (.busError, s) := Prod.ext h (busAccess_error (.inl h))
  simp only [hostStep, he]

/-- WAITIDLE ends with its first STATUS read when nothing is pending (30_encoding.md R98). -/
theorem hostStep_waitIdle_idle {s : State} (h : s.pending = none) (rest : List HostOp) :
    hostStep .waitIdle rest s = .next { s with program := rest, replies := s.replies ++ [s.statusWord] } := by
  simp [hostStep, State.busy, h]

end Sys2Proof.Machine

/-! ### The obligations -/

section
open Sys2Proof Sys2Proof.Machine

/-- Settles O37, from what no command and no step of the block writes (`exec_frame`, `blockStep_memory`). -/
theorem commandsWriteNoMemory : Obligations.CommandsWriteNoMemory := by
  unfold Obligations.CommandsWriteNoMemory
  refine ⟨fun i s t h => ?_, fun s t w hturn h => ?_⟩
  · obtain ⟨hb, ht, -⟩ := exec_frame h
    exact .of_eq hb ht
  · rw [step_blockTurn hturn] at h
    obtain ⟨hb, ht, -⟩ := blockStep_memory h
    exact .of_eq hb ht

/-- Settles O49: a read is the sum of its lanes (`windowRead_eq_sum`), and a write stores each of its own
(`windowWrite_read`) and leaves the other window. -/
theorem windowAccessesMoveLanes : Obligations.WindowAccessesMoveLanes := by
  unfold Obligations.WindowAccessesMoveLanes
  intro s w n i v hm hw hi ha
  obtain rfl : n = widthBytes w := by
    rcases hw with ⟨rfl, rfl⟩ | ⟨rfl, rfl⟩ | ⟨rfl, rfl⟩ <;> rfl
  have read := fun win => busAccess_read_window win hi ha s
  have write := fun win => busAccess_write_window win hi ha v s
  have lanes := fun win => windowWrite_read hm win i v.toNat (widthBytes w)
  simp only [windowRead_eq_sum, windowByte_toNat] at read
  simp only [ofNat_div_eq_lane] at lanes
  have writeBuf := write .buf
  have writeTbl := write .tbl
  simp only [windowBase] at writeBuf writeTbl
  rw [writeBuf, writeTbl]
  refine ⟨read .buf, read .tbl, rfl, rfl, fun j => ⟨lanes .buf j, ?_⟩, fun j => ⟨lanes .tbl j, ?_⟩⟩
  · rw [windowWrite_buf]
  · rw [windowWrite_tbl]

/-- Settles O51, region by region: the lanes of BUF, the part of its window past the capacity, TBL's window, and LEN. -/
theorem packetWritesDiscardDecoder : Obligations.PacketWritesDiscardDecoder := by
  unfold Obligations.PacketWritesDiscardDecoder
  intro s t w o v h
  refine ⟨fun hlo hcap hhi => ?_, fun hcap hlo hhi => ?_, fun hlo => ?_, ?_⟩
  · obtain ⟨i, rfl⟩ := Nat.exists_eq_add_of_le hlo
    obtain ⟨n, hn⟩ := exists_widthBytes w
    rw [busAccess_write_window_done (win := .buf) (by omega) h, hn]
    rw [windowWrite_buf, windowWrite_buf_not_ready (by omega)]
  · obtain ⟨i, rfl⟩ := Nat.exists_eq_add_of_le hlo
    rw [busAccess_write_window_done (win := .buf) (by omega) h]
    exact windowWrite_past_capacity (by simp only [windowMax]; omega) _ _
  · obtain ⟨i, rfl⟩ := Nat.exists_eq_add_of_le hlo
    by_cases hi : i < 0x10000
    · rw [busAccess_write_window_done (win := .tbl) hi h]
      exact windowWrite_tbl _ _ _ _
    · have hout : placeOf (0x20000 + i) = .outside := by
        simp only [placeOf]
        rw [if_neg (by omega), if_neg (by omega), if_neg (by omega)]
      simp only [busAccess, busWrite, hout] at h
      cases h
  · rintro rfl
    have haccepts : pageAccepts w 0x020 = true := by
      rw [← Bool.not_eq_false]
      intro hrefused
      have herr := (busAccess_page_error (by decide) v s).2.mpr hrefused
      rw [h] at herr
      cases herr
    obtain ⟨rfl, -⟩ := pageAccepts_iff.mp haccepts
    rw [← (Prod.mk.inj ((busAccess_write_reg .len v s).symm.trans h)).2]
    rfl

/-- Settles O59: the block writes no memory, and every byte that the host writes is stored canonically and below the
capacity. -/
theorem stepKeepsMemoryCanonical : Obligations.StepKeepsMemoryCanonical := by
  unfold Obligations.StepKeepsMemoryCanonical
  intro s t hm h
  rcases step_cases s with ⟨-, -, e⟩ | ⟨op, rest, -, e⟩ | ⟨w, op, rest, n, later, -, -, -, -, e⟩ | ⟨w, -, e⟩ <;>
    rw [e] at h
  · cases h
    exact hm
  · exact hostStep_memoryInv hm h
  · have hm' : MemoryInv { s with polls := n :: later } := hm.of_same rfl rfl rfl
    exact hostStep_memoryInv hm' h
  · obtain ⟨hb, ht, hp⟩ := blockStep_memory h
    exact hm.of_same hb ht hp

/-- Settles O45: the table is each register's offset and value, and RAWINFO's fields are read off their sum. -/
theorem registerReads : Obligations.RegisterReads := by
  unfold Obligations.RegisterReads
  intro s
  have hraw := rawinfoWord_toNat s
  have ha := s.avail.isLt
  have hr := s.rem.isLt
  refine ⟨?_, ⟨s.rawinfoWord, busAccess_read_reg .rawinfo s, extractLsb'_of_div ?_, extractLsb'_eq_zero_of_div ?_,
    extractLsb'_of_div ?_, extractLsb'_eq_zero_of_div ?_⟩,
    fun o hlo hhi ho => busAccess_read_reserved hlo (by omega) ho s⟩
  · change ∀ p ∈ [Reg.id, .ctrl, .status, .cmd, .arg0, .arg1, .arg2, .result, .len, .rng, .val, .pos, .endPos,
        .totalBits, .window, .fcmd, .finfo].map fun r => (regOffset r, readReg s r), _
    intro p hp
    obtain ⟨r, -, rfl⟩ := List.mem_map.mp hp
    exact busAccess_read_reg r s
  all_goals omega

/-- Settles O46: each offset is a register's or reserved, and a read-only register ignores the write
(`writeReg_readOnly`). -/
theorem registerWrites : Obligations.RegisterWrites := by
  unfold Obligations.RegisterWrites
  intro s v
  refine ⟨busAccess_write_reg .arg0 v s, busAccess_write_reg .arg1 v s, busAccess_write_reg .arg2 v s, ?_,
    busAccess_write_reg .cmd v s, fun hv => ?_, ?_, fun o hlo hhi ho => busAccess_write_reserved hlo (by omega) ho v s⟩
  · rw [← BitVec.setWidth_eq_extractLsb' (by decide)]
    exact busAccess_write_reg .len v s
  · rw [← congrArg (Prod.mk Reply.done) (writeReg_ctrl_clear hv s)]
    exact busAccess_write_reg .ctrl v s
  · change ∀ o ∈ readOnlyRegs.map regOffset, _
    intro o ho
    obtain ⟨r, hr, rfl⟩ := List.mem_map.mp ho
    rw [busAccess_write_reg, writeReg_readOnly hr]

/-- Settles O47: the page errs exactly on what it does not accept. -/
theorem pageTakesAlignedWordsOnly : Obligations.PageTakesAlignedWordsOnly := by
  unfold Obligations.PageTakesAlignedWordsOnly
  intro s w o v ho
  have refuses : pageAccepts w o = false ↔ w ≠ .w32 ∨ o % 4 ≠ 0 := by
    rw [← Bool.not_eq_true, pageAccepts_iff]
    exact Decidable.not_and_iff_or_not
  obtain ⟨hread, hwrite⟩ := busAccess_page_error (w := w) ho v s
  exact ⟨hread.trans refuses, hwrite.trans refuses⟩

/-- Settles O48: an error changes nothing (`busAccess_error`), and the host's step stops there. -/
theorem busErrorChangesNothing : Obligations.BusErrorChangesNothing := by
  unfold Obligations.BusErrorChangesNothing
  intro s a h
  refine ⟨busAccess_error (.inl h), fun rest hturn => ?_⟩
  rw [step_hostTurn hturn, hostStep_of_busError h]

/-- Settles O50: both offsets are a window's, and the index is not a multiple of the access's bytes. -/
theorem misalignedWindowAccessErrs : Obligations.MisalignedWindowAccessErrs := by
  unfold Obligations.MisalignedWindowAccessErrs
  intro s i v base hbase hi
  obtain ⟨win, rfl⟩ : ∃ win, base = windowBase win := by
    rcases hbase with rfl | rfl
    exacts [⟨.buf, rfl⟩, ⟨.tbl, rfl⟩]
  have errs (w : Width) (ha : i % widthBytes w ≠ 0) :
      (busAccess (.read w (windowBase win + i)) s).1 = .busError ∧
        (busAccess (.write w (windowBase win + i) v) s).1 = .busError := by
    obtain ⟨hread, hwrite⟩ := busAccess_window_misaligned win hi ha v s
    exact ⟨congrArg Prod.fst hread, congrArg Prod.fst hwrite⟩
  exact ⟨errs .w16, errs .w32⟩

/-- Settles O54: with nothing pending the step is the host's next item (`step_hostTurn`), by the block's answer to it. -/
theorem idleStepPerformsHostAccess : Obligations.IdleStepPerformsHostAccess := by
  unfold Obligations.IdleStepPerformsHostAccess
  intro s hidle
  refine ⟨fun hprog => ?_, fun rest hprog => ⟨?_, ?_⟩, fun a rest hprog => ⟨fun v t h => ?_, fun t h => ?_⟩⟩
  · simp only [step, nextEvent, hidle, hprog]
  · rw [step_hostTurn ⟨hidle, hprog⟩, hostStep_waitIdle_idle hidle]
  · rw [(statusFieldsInPlace s).1, hidle]
    rfl
  · rw [step_hostTurn ⟨hidle, hprog⟩, hostStep_of_data h]
  · rw [step_hostTurn ⟨hidle, hprog⟩, hostStep_of_done h]

end
end

section
/-! PROOFS of the statements of 30_encoding.md: OP and N name the command, the decoder reads exactly the two fields that
the encoder writes, R94's legality, and the assembler. -/

namespace Sys2Proof

/-! ### The fields of a word and the fields of a command -/

/-- A word is its three fields (30_encoding.md R90). -/
theorem toNat_eq_fields (w : Word) : w.toNat = opField w + nField w * 0x100 + rsvField w * 0x2000 := by
  simp only [opField, nField, rsvField]
  omega

theorem Instr.opcode_lt (i : Instr) : i.opcode < 256 := by
  cases i <;> simp [Instr.opcode]

/-- A command is well-formed when its N fits the 5-bit field (30_encoding.md R91, R92). -/
theorem Instr.wf_iff_imm_lt (i : Instr) : i.wf = true ↔ i.imm < 32 := by
  cases i <;> simp [Instr.wf, Instr.imm]

/-- The encoder puts OP and N in their fields, and 0 in RSV. -/
theorem fields_encode {i : Instr} (h : i.wf = true) :
    opField (encode i) = i.opcode ∧ nField (encode i) = i.imm ∧ rsvField (encode i) = 0 :=
  Laws.EncodeLegal.fields i.opcode_lt (i.wf_iff_imm_lt.mp h)

/-- A word with RSV 0 is the encoding of the command that has its OP and N. -/
theorem encode_of_fields {i : Instr} {w : Word} (hop : i.opcode = opField w) (hn : i.imm = nField w)
    (hrsv : rsvField w = 0) : encode i = w := by
  have hw : i.opcode + i.imm * 0x100 = w.toNat := by
    rw [toNat_eq_fields w, hop, hn, hrsv, Nat.zero_mul, Nat.add_zero]
  rw [encode, hw, BitVec.ofNat_toNat, BitVec.setWidth_eq]

/-- The encoding of a command as the assembler's rule writes it, `(n << 8) | OP` (30_encoding.md R97). -/
theorem encode_eq_or {i : Instr} {op n : Nat} (hop : i.opcode = op) (hn : i.imm = n) :
    encode i = BitVec.ofNat 32 n <<< 8 ||| BitVec.ofNat 32 op := by
  subst hop hn
  have hor : i.opcode + i.imm * 0x100 = i.imm <<< 8 ||| i.opcode := by
    rw [← Nat.shiftLeft_add_eq_or_of_lt i.opcode_lt, Nat.shiftLeft_eq, Nat.add_comm]
  rw [encode, hor, BitVec.ofNat_or]
  congr 1
  apply BitVec.eq_of_toNat_eq
  simp [Nat.shiftLeft_eq]

/-! ### The decoder: which command it reads from OP and N -/

theorem decodeC0_eq_ok_iff {n : Nat} {i j : Instr} : decodeC0 n i = .ok j ↔ n = 0 ∧ i = j := by
  rw [decodeC0]
  split <;> simp [*]

/-- The opcode map reads a command from its own OP and N (30_encoding.md R93). -/
theorem decodeOp_imm_opcode (i : Instr) : decodeOp i.imm i.opcode = .ok i := by
  cases i <;> rfl

/-- The opcode map answers with a command exactly when it is the one with that OP and N (30_encoding.md R93, R96). -/
theorem decodeOp_eq_ok_iff {n op : Nat} {i : Instr} : decodeOp n op = .ok i ↔ i.opcode = op ∧ i.imm = n := by
  constructor
  · intro h
    unfold decodeOp at h
    split at h
    case h_13 => cases h
    case h_3 | h_5 | h_6 | h_7 | h_8 => cases h; exact ⟨rfl, rfl⟩
    all_goals
      obtain ⟨rfl, rfl⟩ := decodeC0_eq_ok_iff.mp h
      exact ⟨rfl, rfl⟩
  · rintro ⟨rfl, rfl⟩
    exact decodeOp_imm_opcode i

/-- Everything the decoder accepts: RSV is 0, and OP and N are the command's (30_encoding.md R93, R94). -/
theorem decode_eq_ok_iff {w : Word} {i : Instr} :
    decode w = .ok i ↔ rsvField w = 0 ∧ i.opcode = opField w ∧ i.imm = nField w := by
  rw [decode]
  split
  · rename_i hrsv
    simp only [hrsv, true_and, decodeOp_eq_ok_iff]
  · rename_i hrsv
    simp [hrsv]

/-! ### R94's legality -/

/-- The OPs and Ns that commands have: OP is one of R93's, and N is 0 in form C0 (30_encoding.md R91, R93). -/
theorem exists_opcode_imm_iff (op n : Nat) :
    (∃ i : Instr, i.opcode = op ∧ i.imm = n) ↔
      1 ≤ op ∧ op ≤ 0x0C ∧ (op ∈ [0x01, 0x02, 0x04, 0x09, 0x0A, 0x0B, 0x0C] → n = 0) := by
  constructor
  · rintro ⟨i, rfl, rfl⟩
    cases i <;> simp [Instr.opcode, Instr.imm]
  · rintro ⟨hlo, hhi, hC0⟩
    have c0 (i : Instr) (hop : i.opcode = op) (himm : i.imm = 0)
        (hmem : op ∈ [0x01, 0x02, 0x04, 0x09, 0x0A, 0x0B, 0x0C]) : ∃ i : Instr, i.opcode = op ∧ i.imm = n :=
      ⟨i, hop, himm.trans (hC0 hmem).symm⟩
    interval_cases op
    exacts [c0 .init rfl rfl (by decide), c0 .decode rfl rfl (by decide), ⟨.decodeBin n, rfl, rfl⟩,
      c0 .update rfl rfl (by decide), ⟨.bitLogp n, rfl, rfl⟩, ⟨.icdf8 n, rfl, rfl⟩, ⟨.icdf16 n, rfl, rfl⟩,
      ⟨.bits n, rfl, rfl⟩, c0 .uint rfl rfl (by decide), c0 .laplace rfl rfl (by decide),
      c0 .tell rfl rfl (by decide), c0 .tellFrac rfl rfl (by decide)]

theorem extractLsb'_op_toNat (w : Word) : (w.extractLsb' 0 8).toNat = opField w := by
  simp [opField]

theorem extractLsb'_n_eq_zero_iff (w : Word) : w.extractLsb' 8 5 = 0 ↔ nField w = 0 := by
  simp [← BitVec.toNat_inj, nField, Nat.shiftRight_eq_div_pow]

theorem extractLsb'_rsv_eq_zero_iff (w : Word) : w.extractLsb' 13 19 = 0 ↔ rsvField w = 0 := by
  have hw : w.toNat / 8192 % 524288 = w.toNat / 8192 := Nat.mod_eq_of_lt (by omega)
  simp [← BitVec.toNat_inj, rsvField, Nat.shiftRight_eq_div_pow, hw]

/-- A word's bit fields are legal when RSV is 0 and a command has its OP and N (30_encoding.md R94). -/
theorem legalFields_iff (w : Word) :
    Machine.LegalFields w ↔ rsvField w = 0 ∧ ∃ i : Instr, i.opcode = opField w ∧ i.imm = nField w := by
  rw [Machine.LegalFields, extractLsb'_op_toNat, extractLsb'_n_eq_zero_iff, extractLsb'_rsv_eq_zero_iff,
    exists_opcode_imm_iff]
  tauto

/-! ### The assembler -/

/-- A mnemonic of form CN, once its name is looked up, takes n up to 31 and nothing above (30_encoding.md R97). -/
theorem assemble_cn {m : String} {i : Instr} {op n : Nat}
    (h : assembleInstr m (some n) = if i.wf then some i else none) (hop : i.opcode = op) (hn : i.imm = n) :
    assemble m (some n) = if n ≤ 31 then some (BitVec.ofNat 32 n <<< 8 ||| BitVec.ofNat 32 op) else none := by
  have hwf : i.wf = true ↔ n ≤ 31 := by rw [i.wf_iff_imm_lt, hn, Nat.lt_succ_iff]
  rw [assemble, h, ← encode_eq_or hop hn]
  simp only [hwf]
  split <;> rfl

end Sys2Proof

/-! ### The obligations -/

section
open Sys2Proof Sys2Proof.Machine

/-- Settles O2: the encoder puts OP and N in their fields (`fields_encode`), and the decoder reads the command that has
them (`decode_eq_ok_iff`). -/
theorem decodeInvertsEncode : Obligations.DecodeInvertsEncode := by
  unfold Obligations.DecodeInvertsEncode
  intro i h
  obtain ⟨hop, hn, hrsv⟩ := fields_encode h
  exact decode_eq_ok_iff.mpr ⟨hrsv, hop.symm, hn.symm⟩

/-- Settles O3: N is a 5-bit field, and a word with RSV 0 is its OP and N (`encode_of_fields`). -/
theorem encodeInvertsDecode : Obligations.EncodeInvertsDecode := by
  unfold Obligations.EncodeInvertsDecode
  intro w i h
  obtain ⟨hrsv, hop, hn⟩ := decode_eq_ok_iff.mp h
  have hlt : nField w < 32 := Nat.mod_lt _ (by decide)
  exact ⟨i.wf_iff_imm_lt.mpr (hn ▸ hlt), encode_of_fields hop hn hrsv⟩

/-- Settles O4: both sides say that RSV is 0 and that a command has the word's OP and N. -/
theorem decoderAcceptsExactlyLegalWords : Obligations.DecoderAcceptsExactlyLegalWords := by
  unfold Obligations.DecoderAcceptsExactlyLegalWords
  intro w
  simp only [legalFields_iff, decode_eq_ok_iff, exists_and_left]

/-- Settles O1, by running the decoder on each word. -/
theorem sampleWordsDecode : Obligations.SampleWordsDecode := by
  unfold Obligations.SampleWordsDecode
  decide

/-- Settles O5: a C0 mnemonic and a missing n are looked up by computation, a CN mnemonic with n is `assemble_cn`, and a
name outside the twelve is none of the names that the lookup compares it with. -/
theorem assemblerEncodesOrRefuses : Obligations.AssemblerEncodesOrRefuses := by
  unfold Obligations.AssemblerEncodesOrRefuses
  refine ⟨?_, ?_, fun m hm n => ?_⟩
  · simp only [List.forall_mem_cons]
    exact ⟨⟨rfl, fun _ => rfl⟩, ⟨rfl, fun _ => rfl⟩, ⟨rfl, fun _ => rfl⟩, ⟨rfl, fun _ => rfl⟩, ⟨rfl, fun _ => rfl⟩,
      ⟨rfl, fun _ => rfl⟩, ⟨rfl, fun _ => rfl⟩, List.forall_mem_nil _⟩
  · simp only [List.forall_mem_cons]
    exact ⟨⟨rfl, fun n => assemble_cn (i := .decodeBin n) rfl rfl rfl⟩,
      ⟨rfl, fun n => assemble_cn (i := .bitLogp n) rfl rfl rfl⟩, ⟨rfl, fun n => assemble_cn (i := .icdf8 n) rfl rfl rfl⟩,
      ⟨rfl, fun n => assemble_cn (i := .icdf16 n) rfl rfl rfl⟩, ⟨rfl, fun n => assemble_cn (i := .bits n) rfl rfl rfl⟩,
      List.forall_mem_nil _⟩
  · simp only [List.mem_cons, List.not_mem_nil, or_false, not_or] at hm
    cases n <;> simp [assemble, assembleInstr, hm]

end
end

section
/-! PROOFS of the statements of 40_init_normalize.md: what one iteration of Normalize and the whole of it leave, and the
decoder that INIT constructs, as a value read from the front of the packet. -/

namespace Sys2Proof.Machine

/-! ### Normalize -/

/-- A forward read gives the packet's byte, and 0 at and past its end (20_memory.md R71). -/
theorem frontByte_toNat (s : State) (i : Nat) :
    (s.frontByte i).toNat = if i < s.len.toNat then (s.buf.read i).toNat else 0 := by
  rw [State.frontByte]
  split <;> rfl

theorem normalizeOnce_pos_toNat (s : State) : (normalizeOnce s).pos.toNat = min (s.pos.toNat + 1) (2 ^ 32 - 1) :=
  satAdd_toNat s.pos 1

theorem normalizeOnce_totalBits_toNat (s : State) :
    (normalizeOnce s).totalBits.toNat = min (s.totalBits.toNat + 8) (2 ^ 32 - 1) :=
  satAdd_toNat s.totalBits 8

theorem normalizeOnce_rem_toNat (s : State) :
    (normalizeOnce s).rem.toNat = (s.frontByte s.pos.toNat).toNat % 2 :=
  BitVec.toNat_ofNat _ 1

theorem normalizeOnce_iterate_frontByte (s : State) (j : Nat) :
    (normalizeOnce^[j] s).frontByte = s.frontByte := by
  induction j with
  | zero => rfl
  | succ j ih => rw [Function.iterate_succ_apply', ← ih]; rfl

/-- As long as every iteration so far was entered at or below the threshold, VAL < RNG (40_init_normalize.md R124 item
1). -/
theorem normalizeOnce_iterate_val_lt {s : State} (hv : s.val.toNat < s.rng.toNat) {j : Nat}
    (below : ∀ i < j, (normalizeOnce^[i] s).rng.toNat ≤ normThreshold) :
    (normalizeOnce^[j] s).val.toNat < (normalizeOnce^[j] s).rng.toNat := by
  induction j with
  | zero => exact hv
  | succ j ih =>
    have hlt := ih fun i hi => below i (by omega)
    rw [Function.iterate_succ_apply']
    exact (normalizeOnce_spec (below j (by omega)) hlt).2.2.1

/-- While RNG stays at or below the threshold, the loop uses all of its fuel. -/
theorem normalizeLoop_eq_iterate {n : Nat} {s : State}
    (below : ∀ j < n, (normalizeOnce^[j] s).rng.toNat ≤ normThreshold) :
    normalizeLoop n s = normalizeOnce^[n] s := by
  induction n generalizing s with
  | zero => rfl
  | succ n ih =>
    have h0 : s.rng.toNat ≤ normThreshold := below 0 (by omega)
    rw [normalizeLoop, if_pos h0, Function.iterate_succ_apply]
    exact ih fun j hj => below (j + 1) (by omega)

/-- Normalize writes RNG, VAL, POS, REM and TOTAL_BITS alone (40_init_normalize.md R123). -/
theorem normalizeRange_frame (s : State) :
    normalizeRange s = { s with
      rng := (normalizeRange s).rng, val := (normalizeRange s).val, pos := (normalizeRange s).pos,
      rem := (normalizeRange s).rem, totalBits := (normalizeRange s).totalBits } := by
  apply State.ext <;> simp

/-! ### The decoder that INIT constructs -/

/-- The packet's first `n` bytes, padded with 0, as one big-endian value: 40_init_normalize.md R125's B, for `n` = 4. -/
def State.frontValue (s : State) : Nat → Nat
  | 0 => 0
  | n + 1 => s.frontValue n * 2 ^ 8 + (s.frontByte n).toNat

theorem frontValue_succ (s : State) (n : Nat) :
    s.frontValue (n + 1) = s.frontValue n * 2 ^ 8 + (s.frontByte n).toNat := rfl

theorem frontValue_lt (s : State) (n : Nat) : s.frontValue n < 2 ^ (8 * n) := by
  induction n with
  | zero => exact Nat.one_pos
  | succ n ih =>
    have hb := (s.frontByte n).isLt
    have hpow : 2 ^ (8 * (n + 1)) = 2 ^ (8 * n) * 2 ^ 8 := by rw [← Nat.pow_add, Nat.mul_succ]
    rw [frontValue_succ]
    omega

theorem frontValue_mod_two (s : State) (n : Nat) : s.frontValue (n + 1) % 2 = (s.frontByte n).toNat % 2 := by
  rw [frontValue_succ]
  omega

/-- `u` is INIT's seed over the packet of `s`, `j` iterations on: RNG is 2^(7 + 8j), VAL is the complement of the
packet's first 7 + 8j bits, and REM is the bit after them (40_init_normalize.md R121, R125). -/
structure SeededAt (s : State) (j : Nat) (u : State) : Prop where
  rng : u.rng.toNat = 2 ^ (7 + 8 * j)
  val : u.val.toNat = 2 ^ (7 + 8 * j) - 1 - s.frontValue (j + 1) / 2
  rem : u.rem.toNat = s.frontValue (j + 1) % 2
  pos : u.pos.toNat = j + 1
  totalBits : u.totalBits.toNat = 9 + 8 * j

/-- INIT's seed holds the first byte (40_init_normalize.md R121). -/
theorem seededAt_initSeed (s : State) : SeededAt s 0 (initSeed (s.frontByte 0).toNat s) where
  rng := rfl
  val := by
    have hv : 127 - (s.frontByte 0).toNat / 2 < 2 ^ 32 := by omega
    simp [State.frontValue, w32_toNat_of_lt hv]
  rem := by simp [State.frontValue]
  pos := rfl
  totalBits := rfl

theorem two_pow_le_normThreshold {j : Nat} (hj : j ≤ 2) : 2 ^ (7 + 8 * j) ≤ normThreshold :=
  Nat.pow_le_pow_right (n := 2) (j := 23) (by decide) (by omega)

/-- One iteration appends the packet's next byte. -/
theorem SeededAt.succ {s u : State} {j : Nat} (h : SeededAt s j u) (hj : j ≤ 2)
    (hfront : u.frontByte = s.frontByte) : SeededAt s (j + 1) (normalizeOnce u) := by
  obtain ⟨hrng, hval, hrem, hpos, htot⟩ := h
  have hr : u.rng.toNat ≤ normThreshold := hrng ▸ two_pow_le_normThreshold hj
  have hv : u.val.toNat < u.rng.toNat := by
    have := Nat.two_pow_pos (7 + 8 * j)
    omega
  obtain ⟨hrng', hval', -, -⟩ := normalizeOnce_spec hr hv
  have hbyte : u.frontByte u.pos.toNat = s.frontByte (j + 1) := by rw [hfront, hpos]
  have hpow : 2 ^ (7 + 8 * (j + 1)) = 2 ^ (7 + 8 * j) * 2 ^ 8 := by rw [← Nat.pow_add]; rfl
  refine ⟨by rw [hrng', hrng, hpow], ?_, ?_, ?_, ?_⟩
  · have hfit : s.frontValue (j + 1) < 2 ^ (7 + 8 * j) * 2 := by
      calc s.frontValue (j + 1) < 2 ^ (8 * (j + 1)) := frontValue_lt s (j + 1)
        _ = 2 ^ (7 + 8 * j) * 2 := by rw [← Nat.pow_succ]; congr 1; omega
    have hb := (s.frontByte (j + 1)).isLt
    rw [hval', hval, hrem, hbyte, hpow, frontValue_succ s (j + 1)]
    omega
  · rw [normalizeOnce_rem_toNat, hbyte, frontValue_mod_two]
  · rw [normalizeOnce_pos_toNat, hpos, Nat.min_eq_left (by omega)]
  · rw [normalizeOnce_totalBits_toNat, htot, Nat.min_eq_left (by omega)]; rfl

theorem seededAt_iterate (s : State) {j : Nat} (hj : j ≤ 3) :
    SeededAt s j (normalizeOnce^[j] (initSeed (s.frontByte 0).toNat s)) := by
  induction j with
  | zero => exact seededAt_initSeed s
  | succ j ih =>
    rw [Function.iterate_succ_apply']
    exact (ih (by omega)).succ (by omega) (normalizeOnce_iterate_frontByte _ j)

/-- INIT's Normalize runs exactly 3 iterations (40_init_normalize.md R125). -/
theorem normalizeRange_initSeed_eq_iterate (s : State) :
    normalizeRange (initSeed (s.frontByte 0).toNat s) = normalizeOnce^[3] (initSeed (s.frontByte 0).toNat s) :=
  normalizeLoop_eq_iterate fun j hj => by
    rw [(seededAt_iterate s (by omega)).rng]
    exact two_pow_le_normThreshold (by omega)

/-- What INIT's Normalize leaves (40_init_normalize.md R125). -/
theorem normalizeRange_initSeed (s : State) :
    normalizeRange (initSeed (s.frontByte 0).toNat s) = { s with
      rng := 0x80000000, val := w32 (0x7FFFFFFF - s.frontValue 4 / 2), pos := 4, totalBits := 33,
      rem := BitVec.ofNat 1 (s.frontByte 3).toNat, endPos := 0, window := 0, avail := 0 } := by
  obtain ⟨hrng, hval, hrem, hpos, htot⟩ := seededAt_iterate s le_rfl
  rw [← normalizeRange_initSeed_eq_iterate] at hrng hval hrem hpos htot
  rw [frontValue_mod_two] at hrem
  have hfit : 0x7FFFFFFF - s.frontValue 4 / 2 < 2 ^ 32 := by omega
  have hrng := BitVec.eq_of_toNat_eq (y := (0x80000000 : Word)) hrng
  have hval := BitVec.eq_of_toNat_eq (hval.trans (w32_toNat_of_lt hfit).symm)
  have hrem := BitVec.eq_of_toNat_eq (hrem.trans (BitVec.toNat_ofNat _ 1).symm)
  have hpos := BitVec.eq_of_toNat_eq (y := (4 : Word)) hpos
  have htot := BitVec.eq_of_toNat_eq (y := (33 : Word)) htot
  rw [normalizeRange_frame, hrng, hval, hrem, hpos, htot]
  rfl

end Sys2Proof.Machine

/-! ### The obligations -/

section
open Sys2Proof Sys2Proof.Machine

/-- Settles O13: with `b k` the byte that a forward read gives, INIT's Normalize runs 3 iterations
(`normalizeRange_initSeed_eq_iterate`), leaves R125's registers (`normalizeRange_initSeed`), and B is the value of the
packet's first four bytes. -/
theorem initConstructsDecoder : Obligations.InitConstructsDecoder := by
  unfold Obligations.InitConstructsDecoder
  intro s htwo hmax
  simp only [← frontByte_toNat]
  have hB : (s.frontByte 0).toNat * 2 ^ 24 + (s.frontByte 1).toNat * 2 ^ 16 + (s.frontByte 2).toNat * 2 ^ 8 +
      (s.frontByte 3).toNat = s.frontValue 4 := by
    simp only [State.frontValue]
    omega
  refine ⟨?_, fun j hj => (seededAt_iterate s hj).rng, normalizeRange_initSeed_eq_iterate s⟩
  rcases exec_init_cases s with ⟨hlen, -⟩ | ⟨-, hlen, -⟩ | ⟨-, -, e⟩
  · omega
  · omega
  · rw [e, hB, show s.frontByte 0 = (clearFault s).frontByte 0 from rfl, normalizeRange_initSeed]
    rfl

/-- Settles O14: INIT's first two cases (`exec_init_cases`), written out. -/
theorem initRejectsBadLengths : Obligations.InitRejectsBadLengths := by
  unfold Obligations.InitRejectsBadLengths
  intro s
  rcases exec_init_cases s with ⟨hmax, e⟩ | ⟨hmax, hlen, e⟩ | ⟨hmax, hlen, -⟩
  · refine ⟨fun _ => ?_, fun h => by omega⟩
    rw [e, w32, BitVec.ofNat_toNat]
    rfl
  · exact ⟨fun h => by omega, fun _ _ => e⟩
  · exact ⟨fun h => by omega, fun _ h => by omega⟩

/-- Settles O15: Normalize is its first iterations up to the least with RNG above the threshold
(`normalizeLoop_iterate`); each of them is entered with VAL < RNG (`normalizeOnce_iterate_val_lt`), so it is exact
(`normalizeOnce_spec`). -/
theorem normalizeIsExactAndBounded : Obligations.NormalizeIsExactAndBounded := by
  unfold Obligations.NormalizeIsExactAndBounded
  intro s hv
  obtain ⟨k, hk, e, below, above, -⟩ := normalizeLoop_iterate (three_iterations (by omega : 1 ≤ s.rng.toNat)) hv
  refine ⟨k, hk, e, ?_, ?_, normalizeRange_frame s⟩
  · rintro j hj t u rfl rfl
    have hr := below j hj
    have hlt := normalizeOnce_iterate_val_lt (j := j) hv fun i hi => below i (by omega)
    rw [Function.iterate_succ_apply']
    have hfront := normalizeOnce_iterate_frontByte s j
    generalize normalizeOnce^[j] s = t at hr hlt hfront
    obtain ⟨hrng, hval, hlt', hle⟩ := normalizeOnce_spec hr hlt
    refine ⟨hr, hrng, hle, hlt', ?_, normalizeOnce_pos_toNat t, normalizeOnce_totalBits_toNat t⟩
    rintro b rfl
    rw [← frontByte_toNat, ← hfront]
    exact ⟨hval, normalizeOnce_rem_toNat t⟩
  · rw [normalizeRange, e]
    exact above

end
end

section
/-! PROOFS of the statements of 41_symbol_decode.md: what the search commands and UPDATE answer from an accepting
state, one lemma per outcome of DecodeCore and UpdateCore. -/

namespace Sys2Proof.Machine

/-! ### A command that executes its own pseudocode -/

theorem exec_of_body_ok {i : Instr} (hi : i ≠ .init) {s t : State} (h : Accepting s) (e : body i s = .ok t) :
    exec i s = .next t := by
  rw [exec_accepting hi h, e, settle]

theorem exec_of_body_raise {i : Instr} (hi : i ≠ .init) {s : State} {f : RdecFault} {x : Word} (h : Accepting s)
    (e : body i s = .error (.raise f x)) : exec i s = .next (raiseFault (encode i) f x s) := by
  rw [exec_accepting hi h, e, settle]

/-- Completing with OK leaves ERR_SEEN alone (60_exceptions.md R232). -/
theorem complete_ok (r : Word) (s : State) : complete .ok r s = { s with result := r, ecode := 0 } := by
  apply State.ext <;> simp [Completion.code]

/-! ### DIV_ZERO -/

/-- The two spellings of DIV_ZERO's condition agree (41_symbol_decode.md R141). -/
theorem eq_zero_or_div_eq_zero_iff {a b : Nat} : b = 0 ∨ a / b = 0 ↔ b = 0 ∨ a < b := by
  rw [Nat.div_eq_zero_iff, or_self_left]

/-! ### DECODE and DECODE_BIN -/

/-- A command whose pseudocode is a symbol search over `ft` raises DIV_ZERO when DecodeCore does. -/
theorem exec_search_divZero {i : Instr} (hi : i ≠ .init) {s : State} {ft : Nat} (hb : body i s = decodeBody ft s)
    (h : Accepting s) (hft : ft = 0 ∨ s.rng.toNat < ft) :
    exec i s = .next (raiseFault (encode i) .divZero (w32 ft) s) := by
  apply exec_of_body_raise hi h
  rw [hb, decodeBody, decodeCore_error hft]
  rfl

/-- A command whose pseudocode is a symbol search over `ft` reports DecodeCore's offset, which is below `ft`. -/
theorem exec_search_offset {i : Instr} (hi : i ≠ .init) {s : State} {ft : Nat} (hb : body i s = decodeBody ft s)
    (h : Accepting s) (hft : ¬ (ft = 0 ∨ s.rng.toNat < ft)) :
    exec i s = .next { s with
      result := w32 (ft - min (s.val.toNat / (s.rng.toNat / ft) + 1) ft), ecode := 0 } ∧
    ft - min (s.val.toNat / (s.rng.toNat / ft) + 1) ft < ft := by
  rcases decodeCore_cases ft s with ⟨hbad, -⟩ | ⟨-, -, fs, hlt, hd, rfl⟩
  · exact absurd hbad hft
  · refine ⟨?_, hlt⟩
    rw [← complete_ok]
    apply exec_of_body_ok hi h
    rw [hb, decodeBody, hd]
    rfl

/-! ### UPDATE -/

theorem updateCore_error {fl fh ft : Nat} {s : State} (h : ft = 0 ∨ s.rng.toNat < ft) :
    updateCore fl fh ft s = .error (.raise .divZero (w32 ft)) := by
  rw [updateCore, if_pos (eq_zero_or_div_eq_zero_iff.mpr h)]

section
variable {s : State} {v r : Nat}

theorem exec_update_divZero (h : Accepting s) (hft : s.arg2.toNat = 0 ∨ s.rng.toNat < s.arg2.toNat) :
    exec .update s = .next (raiseFault 0x00000004 .divZero s.arg2 s) := by
  apply exec_of_body_raise (by decide) h
  rw [body, updateBody, State.opArg2, updateCore_error hft, w32_of_toNat]
  rfl

variable (h : Accepting s) (hft : ¬ (s.arg2.toNat = 0 ∨ s.rng.toNat < s.arg2.toNat))
  (hv : updateVal s.arg1.toNat s.arg2.toNat s = v) (hr : updateRng s.arg0.toNat s.arg1.toNat s.arg2.toNat s = r)
include h hft hv hr

/-- UPDATE faults when the new range does not reach above the new value (41_symbol_decode.md R144). -/
theorem exec_update_contract (hle : r ≤ v) :
    exec .update s = .next (raiseFault 0x00000004 .updateContract (w32 r) s) := by
  subst hv hr
  rcases updateCore_cases s.opArg0 s.opArg1 s.opArg2 s with ⟨hbad, -⟩ | ⟨-, -, -, e⟩ | ⟨-, -, hlt, -⟩
  · exact absurd hbad hft
  · apply exec_of_body_raise (by decide) h
    rw [body, updateBody, e]
    rfl
  · exact absurd hlt (Nat.not_lt.mpr hle)

/-- UPDATE completes, normalized, when the new value is below the new range (41_symbol_decode.md R144). -/
theorem exec_update_narrows (hlt : v < r) :
    exec .update s = .next
      { normalizeRange { s with val := w32 v, rng := w32 r } with result := 0, ecode := 0 } := by
  subst hv hr
  rw [← complete_ok]
  rcases updateCore_cases s.opArg0 s.opArg1 s.opArg2 s with ⟨hbad, -⟩ | ⟨-, -, hle, -⟩ | ⟨-, -, -, e⟩
  · exact absurd hbad hft
  · exact absurd hlt (Nat.not_lt.mpr hle)
  · apply exec_of_body_ok (by decide) h
    rw [body, updateBody, e]
    rfl

end

/-- An interval that reaches the end of the space, or past it, takes nothing off the value (41_symbol_decode.md R146). -/
theorem updateVal_of_le {fh ft : Nat} (h : ft ≤ fh) (s : State) : updateVal fh ft s = s.val.toNat := by
  rw [updateVal_unclamped, Nat.sub_eq_zero_of_le h, Nat.mul_zero, Nat.sub_zero]

theorem updateRng_of_pos {fl : Nat} (h : 0 < fl) (fh ft : Nat) (s : State) :
    updateRng fl fh ft s = satMul (s.rng.toNat / ft) (fh - fl) := if_pos h

/-- From fl = 0 to the end of the space, or past it, is the whole old range (41_symbol_decode.md R146). -/
theorem updateRng_zero_of_le {fh ft : Nat} (h : ft ≤ fh) (s : State) : updateRng 0 fh ft s = s.rng.toNat := by
  rw [updateRng, if_neg (Nat.lt_irrefl 0), satSub, satSub, Nat.sub_eq_zero_of_le h, satMul_zero, Nat.sub_zero]

/-- An empty or reversed interval that does not begin at 0 leaves no range (41_symbol_decode.md R146). -/
theorem updateRng_eq_zero {fl fh : Nat} (h : 0 < fl) (hle : fh ≤ fl) (ft : Nat) (s : State) :
    updateRng fl fh ft s = 0 := by
  rw [updateRng_of_pos h, Nat.sub_eq_zero_of_le hle, satMul_zero]

end Sys2Proof.Machine

/-! ### The obligations -/

section
open Sys2Proof Sys2Proof.Machine

/-- Settles O16: DECODE is the symbol search over ARG0 (`exec_search_divZero`, `exec_search_offset`). -/
theorem decodeReportsOffset : Obligations.DecodeReportsOffset := by
  unfold Obligations.DecodeReportsOffset
  intro s h ft fs
  constructor
  · intro hft
    have e := exec_search_divZero (i := .decode) (ft := s.arg0.toNat) (by decide) rfl h
      (eq_zero_or_div_eq_zero_iff.mp hft)
    rwa [w32_of_toNat] at e
  · intro h0 hq
    exact exec_search_offset (by decide) rfl h (mt eq_zero_or_div_eq_zero_iff.mpr (not_or.mpr ⟨h0, hq⟩))

/-- Settles O17: DECODE_BIN is the symbol search over 2^N, and 10_state.md R25 keeps RNG above 2^23. -/
theorem decodeBinReportsOffset : Obligations.DecodeBinReportsOffset := by
  unfold Obligations.DecodeBinReportsOffset
  intro s n h _ fs
  have hpos : 2 ^ n ≠ 0 := (Nat.two_pow_pos n).ne'
  refine ⟨fun hlt => ?_, fun hle => ?_, fun hc hn => ?_⟩
  · exact exec_search_divZero Instr.noConfusion rfl h (.inr hlt)
  · exact exec_search_offset Instr.noConfusion rfl h (not_or.mpr ⟨hpos, Nat.not_lt.mpr hle⟩)
  · calc 2 ^ n ≤ 2 ^ 23 := Nat.pow_le_pow_right (by decide) hn
      _ ≤ s.rng.toNat := hc.rng_low.le

/-- Settles O18: the three outcomes of UPDATE, whose new value and range are R144's formulas as the model has them. -/
theorem updateNarrowsInterval : Obligations.UpdateNarrowsInterval := by
  unfold Obligations.UpdateNarrowsInterval
  intro s h fl fh ft q v r
  have good (h0 : ft ≠ 0) (hq : q ≠ 0) : ¬ (ft = 0 ∨ s.rng.toNat < ft) :=
    mt eq_zero_or_div_eq_zero_iff.mpr (not_or.mpr ⟨h0, hq⟩)
  refine ⟨fun hft => ?_, fun h0 hq hle => ?_, fun h0 hq hlt => ?_⟩
  · exact exec_update_divZero h (eq_zero_or_div_eq_zero_iff.mp hft)
  · exact exec_update_contract h (good h0 hq) rfl rfl hle
  · exact exec_update_narrows h (good h0 hq) rfl rfl hlt

/-- Settles O19, by the caller contract of UpdateCore (`updateCore_contract`): the interval's new range is positive, at
most RNG, and normalized. -/
theorem updateInContractIsExact : Obligations.UpdateInContractIsExact := by
  unfold Obligations.UpdateInContractIsExact
  intro s h hc fl fh ft q fs hlt hfh hft hfl hfs
  obtain ⟨e, hval, hvr, hrng⟩ := updateCore_contract hc.val_lt (decodeCore_ok (by omega) hft) hlt hfh hfl hfs
  have hmul : q * (fh - fl) ≤ s.rng.toNat :=
    calc q * (fh - fl) ≤ q * ft := Nat.mul_le_mul_left q (by omega)
      _ ≤ s.rng.toNat := Nat.div_mul_le_self _ _
  refine ⟨_, ?_, rfl, hval, hmul.trans_lt s.rng.isLt, ?_⟩
  · rw [← complete_ok]
    apply exec_of_body_ok (by decide) h
    rw [body, updateBody, State.opArg0, State.opArg1, State.opArg2, e]
    rfl
  · refine (hc.narrow ?_).of_same ⟨rfl, rfl, rfl, rfl, rfl, rfl, rfl, rfl⟩
    rwa [← w32_toNat_of_lt ((Nat.sub_le _ _).trans_lt s.val.isLt),
      ← w32_toNat_of_lt (hrng.trans_lt s.rng.isLt)] at hvr

/-- Settles O20: in each row of R146's table the new value and range take the row's form (`updateVal_of_le` and the
`updateRng` lemmas past the end of the space, `updateVal_unclamped` and `updateRng_unclamped` inside it), and UPDATE
completes or faults on them. -/
theorem updateOutOfContractSaturates : Obligations.UpdateOutOfContractSaturates := by
  unfold Obligations.UpdateOutOfContractSaturates
  intro s h hc fl fh ft q fs p v r contract
  refine ⟨exec_update_divZero h, fun h0 hle => ?_⟩
  have good : ¬ (ft = 0 ∨ s.rng.toNat < ft) := not_or.mpr ⟨h0, Nat.not_lt.mpr hle⟩
  refine ⟨fun hfh hfl => ?_, fun hfh hfl hlt => ?_, fun hfh hfl hge => ?_, fun hfh hfl => ?_, fun _ hfh _ => ?_⟩
  · have hr : updateRng fl fh ft s = s.rng.toNat := by rw [hfl, updateRng_zero_of_le hfh.le]
    rw [exec_update_narrows h good (updateVal_of_le hfh.le s) hr hc.val_lt, w32_of_toNat, w32_of_toNat,
      normalizeRange_of_lt hc.rng_low]
  · rw [exec_update_narrows h good (updateVal_of_le hfh.le s) (updateRng_of_pos hfl fh ft s) hlt, w32_of_toNat]
    rfl
  · exact exec_update_contract h good (updateVal_of_le hfh.le s) (updateRng_of_pos hfl fh ft s) hge
  · exact exec_update_contract h good rfl (updateRng_eq_zero hfl hfh ft s) (Nat.zero_le _)
  · exact ⟨exec_update_narrows h good updateVal_unclamped (updateRng_unclamped hfh),
      exec_update_contract h good updateVal_unclamped (updateRng_unclamped hfh)⟩

end
end

section
/-! PROOFS of the statements of 42_table_bit.md: BIT_LOGP as one split of the range, and what an ICDF command over
entries of either width answers from an accepting state, one lemma per outcome of IcdfSearch. -/

namespace Sys2Proof.Machine

/-! ### BIT_LOGP -/

theorem bitLogpBody_divZero {n : Nat} {s : State} (hq : s.rng.toNat / 2 ^ n = 0) :
    bitLogpBody n s = .error (.raise .divZero (w32 (2 ^ n))) := by
  rw [bitLogpBody, pow2, decodeCore_error (eq_zero_or_div_eq_zero_iff.mp (.inr hq))]
  rfl

/-- At the last offset BIT_LOGP takes the last symbol of the space and returns 1 (42_table_bit.md R160). -/
theorem bitLogpBody_of_last {n : Nat} {s t : State} (hd : decodeCore (2 ^ n) s = .ok (2 ^ n - 1))
    (hu : updateCore (2 ^ n - 1) (2 ^ n) (2 ^ n) s = .ok t) : bitLogpBody n s = .ok (complete .ok 1 t) := by
  rw [bitLogpBody, pow2, hd]
  change (if 2 ^ n - 1 < 2 ^ n - 1 then _ else (updateCore (2 ^ n - 1) (2 ^ n) (2 ^ n) s).bind _) = _
  rw [if_neg (Nat.lt_irrefl _), hu]
  rfl

/-- At an earlier offset BIT_LOGP takes all symbols but the last and returns 0 (42_table_bit.md R160). -/
theorem bitLogpBody_of_earlier {n fs : Nat} {s t : State} (hd : decodeCore (2 ^ n) s = .ok fs) (hfs : fs < 2 ^ n - 1)
    (hu : updateCore 0 (2 ^ n - 1) (2 ^ n) s = .ok t) : bitLogpBody n s = .ok (complete .ok 0 t) := by
  rw [bitLogpBody, pow2, hd]
  change (if fs < 2 ^ n - 1 then (updateCore 0 (2 ^ n - 1) (2 ^ n) s).bind _ else _) = _
  rw [if_pos hfs, hu]
  rfl

section
variable {n : Nat} {s : State} (hlt : s.val.toNat < s.rng.toNat) (hq : s.rng.toNat / 2 ^ n ≠ 0)
include hlt hq

/-- Below RNG >> N DecodeCore finds the last offset, whose symbol is one quotient wide (42_table_bit.md R161). -/
theorem bitLogpBody_one (hv : s.val.toNat < s.rng.toNat / 2 ^ n) :
    bitLogpBody n s = .ok (complete .ok 1 (normalizeRange { s with rng := w32 (s.rng.toNat / 2 ^ n) })) := by
  have hft : 1 ≤ 2 ^ n := Nat.one_le_two_pow
  have hd : decodeCore (2 ^ n) s = .ok (2 ^ n - 1) := by
    rw [decodeCore_ok (by omega) (Nat.le_of_not_lt (mt Nat.div_eq_of_lt hq)), Nat.div_eq_of_lt hv, Nat.zero_add,
      Nat.min_eq_left hft]
  have hwidth : (if 0 < 2 ^ n - 1 then s.rng.toNat / 2 ^ n * (2 ^ n - (2 ^ n - 1))
      else s.rng.toNat - s.rng.toNat / 2 ^ n * (2 ^ n - 2 ^ n)) = s.rng.toNat / 2 ^ n := by
    split
    · rw [Nat.sub_sub_self hft, Nat.mul_one]
    · rw [Nat.sub_self, Nat.mul_zero, Nat.sub_zero, show 2 ^ n = 1 by omega, Nat.div_one]
  obtain ⟨hu, -⟩ := updateCore_contract hlt hd (by omega : 2 ^ n - 1 < 2 ^ n) le_rfl le_rfl (by omega)
  rw [hwidth, Nat.sub_self, Nat.mul_zero, Nat.sub_zero, w32_of_toNat] at hu
  exact bitLogpBody_of_last hd hu

/-- At or above RNG >> N DecodeCore finds an earlier offset, and the symbols but the last take the rest of the range
(42_table_bit.md R161). -/
theorem bitLogpBody_zero (hv : s.rng.toNat / 2 ^ n ≤ s.val.toNat) :
    bitLogpBody n s = .ok (complete .ok 0 (normalizeRange { s with
      val := w32 (s.val.toNat - s.rng.toNat / 2 ^ n), rng := w32 (s.rng.toNat - s.rng.toNat / 2 ^ n) })) := by
  have hft : 1 ≤ 2 ^ n := Nat.one_le_two_pow
  have hne : 2 ^ n ≠ 1 := fun e => by
    rw [e, Nat.div_one] at hv
    omega
  have hone : 1 ≤ s.val.toNat / (s.rng.toNat / 2 ^ n) := Nat.div_pos hv (Nat.pos_of_ne_zero hq)
  have hd := decodeCore_ok (by omega) (Nat.le_of_not_lt (mt Nat.div_eq_of_lt hq))
  have hfs : 2 ^ n - min (s.val.toNat / (s.rng.toNat / 2 ^ n) + 1) (2 ^ n) < 2 ^ n - 1 := by omega
  obtain ⟨hu, -⟩ := updateCore_contract hlt hd (by omega : 0 < 2 ^ n - 1) (Nat.sub_le _ _) (Nat.zero_le _) hfs
  rw [if_neg (Nat.lt_irrefl 0), Nat.sub_sub_self hft, Nat.mul_one] at hu
  exact bitLogpBody_of_earlier hd hfs hu

end

/-! ### ICDF8 and ICDF16 -/

/-- ICDF8's clamped product, in terms of TBL's bytes (42_table_bit.md R163). -/
theorem satMul_tblEntry_one (r base j : Nat) (s : State) :
    satMul r (s.tblEntry base j 1) = min (r * (s.tbl.read (base + j)).toNat) (2 ^ 32 - 1) := by
  rw [tblEntry_one]
  rfl

/-- ICDF16's clamped product, in terms of TBL's bytes (42_table_bit.md R164, 20_memory.md R70). -/
theorem satMul_tblEntry_two (r base j : Nat) (s : State) :
    satMul r (s.tblEntry base j 2) =
      min (r * ((s.tbl.read (base + 2 * j)).toNat + (s.tbl.read (base + 2 * j + 1)).toNat * 256)) (2 ^ 32 - 1) := by
  rw [tblEntry_two, Nat.mul_comm 256]
  rfl

theorem icdfSearch_tableBounds {base len w : Nat} {s : State} (hlen : len = 0 ∨ s.params.tblMax < base + w * len)
    (ftb : Nat) : icdfSearch ftb base len w s = .error (.raise .tableBounds (w32 base)) := by
  rw [icdfSearch, if_pos hlen]

theorem icdfSearch_overrun {ftb base len w : Nat} {s : State} (h0 : len ≠ 0)
    (hin : base + w * len ≤ s.params.tblMax)
    (hnone : ∀ j < len, s.val.toNat < satMul (s.rng.toNat / 2 ^ ftb) (s.tblEntry base j w)) :
    icdfSearch ftb base len w s = .error (.raise .icdfOverrun (w32 len)) := by
  have hloop : icdfLoop s base w (s.rng.toNat / 2 ^ ftb) s.val.toNat len 0 s.rng.toNat = none :=
    icdfLoop_none.mpr fun j _ hj => hnone j (by omega)
  rw [icdfSearch, if_neg (by omega)]
  simp only [hloop]

/-- IcdfSearch stops at the first entry that stops it, where the product before is above VAL (42_table_bit.md R163,
R165). -/
theorem icdfSearch_first {ftb base len w k : Nat} {s : State} {p : Nat → Nat}
    (hp : ∀ j, satMul (s.rng.toNat / 2 ^ ftb) (s.tblEntry base j w) = p j) (hlt : s.val.toNat < s.rng.toNat)
    (hin : base + w * len ≤ s.params.tblMax) (hk : k < len) (before : ∀ j < k, s.val.toNat < p j)
    (stop : p k ≤ s.val.toNat) :
    icdfSearch ftb base len w s = .ok (k, normalizeRange { s with
      val := w32 (s.val.toNat - p k), rng := w32 ((if k = 0 then s.rng.toNat else p (k - 1)) - p k) }) ∧
    s.val.toNat < (if k = 0 then s.rng.toNat else p (k - 1)) := by
  have hd : s.val.toNat < (if k = 0 then s.rng.toNat else p (k - 1)) := by
    split
    · exact hlt
    · exact before (k - 1) (by omega)
  refine ⟨?_, hd⟩
  simp only [← hp] at before stop hd ⊢
  rw [icdfSearch, if_neg (by omega)]
  simp only [icdfLoop_first hk before stop, Nat.not_le.mpr hd, if_false]

section
variable {i : Instr} {n w : Nat} {s : State} (hi : i ≠ .init) (hb : body i s = icdfBody n w s) (h : Accepting s)
include hi hb h

/-- An ICDF command faults on an empty table and on one that leaves TBL, before the search (42_table_bit.md R163). -/
theorem exec_icdf_tableBounds (hlen : s.arg1.toNat = 0 ∨ s.params.tblMax < s.arg0.toNat + w * s.arg1.toNat) :
    exec i s = .next (raiseFault (encode i) .tableBounds s.arg0 s) := by
  apply exec_of_body_raise hi h
  rw [hb, icdfBody, State.opArg0, State.opArg1, icdfSearch_tableBounds hlen, w32_of_toNat]
  rfl

/-- A completing ICDF command returns an index of the table (42_table_bit.md R166). -/
theorem exec_icdf_result_lt {t : State} (he : exec i s = .next t) (hf : t.fault = false) :
    t.result.toNat < s.arg1.toNat := by
  rw [exec_eq_dispatch hi, hb] at he
  rcases dispatch_next he with ⟨hfault, -⟩ | ⟨-, hready, -⟩ | ⟨-, e | ⟨f, x, -, rfl⟩⟩
  · simp [h.no_fault] at hfault
  · simp [h.ready] at hready
  · obtain ⟨k, hk, v, g, -, rfl⟩ := icdfBody_ok e
    rwa [complete_result, w32_toNat_of_lt (hk.trans s.arg1.isLt)]
  · simp at hf

variable {p : Nat → Nat} (hp : ∀ j, satMul (s.rng.toNat / 2 ^ n) (s.tblEntry s.arg0.toNat j w) = p j)
  (hin : s.arg0.toNat + w * s.arg1.toNat ≤ s.params.tblMax)
include hp hin

/-- An ICDF command faults when no entry stops the search (42_table_bit.md R163). -/
theorem exec_icdf_overrun (h0 : s.arg1.toNat ≠ 0) (hnone : ∀ j < s.arg1.toNat, s.val.toNat < p j) :
    exec i s = .next (raiseFault (encode i) .icdfOverrun s.arg1 s) := by
  simp only [← hp] at hnone
  apply exec_of_body_raise hi h
  rw [hb, icdfBody, State.opArg0, State.opArg1, icdfSearch_overrun h0 hin hnone, w32_of_toNat]
  rfl

/-- An ICDF command returns the first entry that stops the search, and takes its interval, normalized
(42_table_bit.md R163, R165). -/
theorem exec_icdf_first {k : Nat} (hlt : s.val.toNat < s.rng.toNat) (hk : k < s.arg1.toNat)
    (before : ∀ j < k, s.val.toNat < p j) (stop : p k ≤ s.val.toNat) :
    exec i s = .next { normalizeRange { s with
        val := w32 (s.val.toNat - p k), rng := w32 ((if k = 0 then s.rng.toNat else p (k - 1)) - p k) } with
      result := w32 k, ecode := 0 } ∧
    s.val.toNat < (if k = 0 then s.rng.toNat else p (k - 1)) := by
  obtain ⟨e, hd⟩ := icdfSearch_first hp hlt hin hk before stop
  refine ⟨?_, hd⟩
  rw [← complete_ok]
  apply exec_of_body_ok hi h
  rw [hb, icdfBody, State.opArg0, State.opArg1, e]
  rfl

end

end Sys2Proof.Machine

/-! ### The obligations -/

section
open Sys2Proof Sys2Proof.Machine

/-- Settles O21: BIT_LOGP's pseudocode has one outcome per side of RNG >> N (`bitLogpBody_divZero`, `bitLogpBody_one`,
`bitLogpBody_zero`). -/
theorem bitLogpClosedForm : Obligations.BitLogpClosedForm := by
  unfold Obligations.BitLogpClosedForm
  intro s n h hc _ q
  refine ⟨fun hq => ?_, fun hq hv => ?_, fun hq hv => ?_⟩
  · exact exec_of_body_raise (i := .bitLogp n) Instr.noConfusion h (bitLogpBody_divZero hq)
  · rw [← complete_ok]
    exact exec_of_body_ok (i := .bitLogp n) Instr.noConfusion h (bitLogpBody_one hc.val_lt hq hv)
  · rw [← complete_ok]
    exact exec_of_body_ok (i := .bitLogp n) Instr.noConfusion h (bitLogpBody_zero hc.val_lt hq hv)

/-- Settles O22: ICDF8 is the search over entries of one byte (`exec_icdf_first`). -/
theorem icdf8FindsFirstStop : Obligations.Icdf8FindsFirstStop := by
  unfold Obligations.Icdf8FindsFirstStop
  intro s n k h hlt _ base len p t hin hk before stop
  exact exec_icdf_first Instr.noConfusion rfl h (fun j => satMul_tblEntry_one _ _ j s) (by rwa [Nat.one_mul])
    hlt hk before stop

/-- Settles O23: ICDF16 is the search over little-endian entries of two bytes (`exec_icdf_first`). -/
theorem icdf16FindsFirstStop : Obligations.Icdf16FindsFirstStop := by
  unfold Obligations.Icdf16FindsFirstStop
  intro s n k h hlt _ base len e p t hin hk before stop
  exact exec_icdf_first Instr.noConfusion rfl h (fun j => satMul_tblEntry_two _ _ j s) hin hlt hk before stop

/-- Settles O24: the two faults of the search over entries of either width (`exec_icdf_tableBounds`,
`exec_icdf_overrun`). -/
theorem icdfFaultsOnBadTables : Obligations.IcdfFaultsOnBadTables := by
  unfold Obligations.IcdfFaultsOnBadTables
  intro s n h _ base len e8 e16 p
  refine ⟨fun hlen => ?_, fun hlen => ?_, fun h0 hin hnone => ?_, fun h0 hin hnone => ?_⟩
  · exact exec_icdf_tableBounds (i := .icdf8 n) Instr.noConfusion rfl h (by rwa [Nat.one_mul])
  · exact exec_icdf_tableBounds (i := .icdf16 n) Instr.noConfusion rfl h hlen
  · exact exec_icdf_overrun (i := .icdf8 n) Instr.noConfusion rfl h (fun j => satMul_tblEntry_one _ _ j s)
      (by rwa [Nat.one_mul]) h0 hnone
  · exact exec_icdf_overrun (i := .icdf16 n) Instr.noConfusion rfl h (fun j => satMul_tblEntry_two _ _ j s)
      hin h0 hnone

/-- Settles O25: a completed search names an entry of the table (`exec_icdf_result_lt`). -/
theorem icdfIndexBelowTableLength : Obligations.IcdfIndexBelowTableLength := by
  unfold Obligations.IcdfIndexBelowTableLength
  rintro s t n i (rfl | rfl) h he hf
  · exact exec_icdf_result_lt Instr.noConfusion rfl h he hf
  · exact exec_icdf_result_lt Instr.noConfusion rfl h he hf

end
end

section
/-! PROOFS of the statements of 43_raw_bits.md: RawBits as one closed form, the symbol that UINT takes from the range
coder, what each command's completion leaves of the registers, and the independence of the range coder and the raw
channel of each other. -/

namespace Sys2Proof.Machine

/-! ### RawBits and BITS -/

/-- A tail read gives the packet's byte counted from its end, and 0 past its start (20_memory.md R71). -/
theorem tailByte_toNat (s : State) (k : Nat) :
    (s.tailByte k).toNat = if k < s.len.toNat then (s.buf.read (s.len.toNat - 1 - k)).toNat else 0 := by
  rw [State.tailByte]
  split <;> rfl

theorem eq_ofNat_of_toNat_eq {k n : Nat} {x : BitVec k} (h : x.toNat = n) : x = BitVec.ofNat k n := by
  rw [← h, BitVec.ofNat_toNat, BitVec.setWidth_eq]

/-- The window with the next `f` tail bytes laid above its AVAIL bits, a byte fetched earlier below a later one
(43_raw_bits.md R181, R182). -/
def State.filledWindow (s : State) (f : Nat) : Nat :=
  s.window.toNat + 2 ^ s.avail.toNat * ∑ j ∈ Finset.range f, (s.tailByte (s.endPos.toNat + j)).toNat * 256 ^ j

/-- RawBits(n) fetches the least number of bytes that makes `n` bits available (43_raw_bits.md R182). -/
theorem rawBits_eq {n : Nat} {s : State} (hn : n ≤ 25) (hc : CoreInv s) :
    rawBits n s = (s.filledWindow ((n - s.avail.toNat + 7) / 8) % 2 ^ n, { s with
      window := w32 (s.filledWindow ((n - s.avail.toNat + 7) / 8) / 2 ^ n)
      avail := BitVec.ofNat 6 (s.avail.toNat + 8 * ((n - s.avail.toNat + 7) / 8) - n)
      endPos := w32 (satAdd s.endPos.toNat ((n - s.avail.toNat + 7) / 8))
      totalBits := w32 (satAdd s.totalBits.toNat n) }) := by
  obtain ⟨f, full, henough, hleast, hfull, -, hbits, hwin, havail, hend, htot⟩ :=
    rawBits_spec hn hc.avail_le hc.window_lt
  have hf : f = (n - s.avail.toNat + 7) / 8 := by omega
  rw [← hf, State.filledWindow, ← hfull]
  refine Prod.ext hbits (State.ext ?_ ?_ ?_ ?_ ?_ ?_ ?_ ?_ ?_ ?_ (eq_ofNat_of_toNat_eq hend) (eq_ofNat_of_toNat_eq htot)
    (eq_ofNat_of_toNat_eq hwin) (eq_ofNat_of_toNat_eq havail) ?_ ?_ ?_ ?_ ?_ ?_ ?_ ?_ ?_ ?_ ?_ ?_ ?_) <;> simp

/-- The check of the raw-bit ceiling comes first (43_raw_bits.md R180). -/
theorem bitsBody_tooMany {n : Nat} (hbig : 25 < n) (s : State) : bitsBody n s = .ok (complete .tooManyBits 0 s) :=
  if_pos hbig

theorem bitsBody_zero (s : State) : bitsBody 0 s = .ok (complete .ok 0 s) := rfl

theorem exec_bits_takes {n : Nat} {s : State} (h : Accepting s) (hpos : 1 ≤ n) (hn : n ≤ 25) :
    exec (.bits n) s = .next { (rawBits n s).2 with result := w32 (rawBits n s).1, ecode := 0 } := by
  rw [← complete_ok]
  apply exec_of_body_ok Instr.noConfusion h
  rcases bitsBody_cases n s with ⟨hbig, -⟩ | ⟨hzero, -⟩ | ⟨-, -, e⟩
  · omega
  · omega
  · exact e

/-- A completion with an error code sets ERR_SEEN (60_exceptions.md R232). -/
theorem complete_error {c : Completion} (hc : c ≠ .ok) (r : Word) (s : State) :
    complete c r s = { s with result := r, ecode := c.code, errSeen := true } := by
  apply State.ext <;> simp [hc]

/-! ### The symbol that UINT takes -/

/-- The offset that DecodeCore finds over `ft` (41_symbol_decode.md R141). -/
def State.offsetOver (s : State) (ft : Nat) : Nat := ft - min (s.val.toNat / (s.rng.toNat / ft) + 1) ft

/-- The state with the interval of the one symbol at DecodeCore's offset taken, normalized (43_raw_bits.md R184). -/
def State.takeSymbol (s : State) (ft : Nat) : State :=
  normalizeRange { s with
    val := w32 (s.val.toNat - s.rng.toNat / ft * (ft - (s.offsetOver ft + 1)))
    rng := w32 (if 0 < s.offsetOver ft then s.rng.toNat / ft else s.rng.toNat - s.rng.toNat / ft * (ft - 1)) }

theorem offsetOver_lt (s : State) {ft : Nat} (hpos : 0 < ft) : s.offsetOver ft < ft :=
  Nat.sub_lt hpos (Nat.lt_min.mpr ⟨Nat.succ_pos _, hpos⟩)

theorem decodeCore_offsetOver {s : State} {ft : Nat} (hpos : 0 < ft) (hle : ft ≤ s.rng.toNat) :
    decodeCore ft s = .ok (s.offsetOver ft) :=
  decodeCore_ok hpos.ne' hle

/-- One symbol at the decoded offset is inside the caller contract of UpdateCore (41_symbol_decode.md R145). -/
theorem updateCore_takeSymbol {s : State} {ft : Nat} (hv : s.val.toNat < s.rng.toNat) (hpos : 0 < ft)
    (hle : ft ≤ s.rng.toNat) :
    updateCore (s.offsetOver ft) (s.offsetOver ft + 1) ft s = .ok (s.takeSymbol ft) := by
  obtain ⟨e, -⟩ := updateCore_contract hv (decodeCore_offsetOver hpos hle) (Nat.lt_add_one _)
    (offsetOver_lt s hpos) le_rfl (Nat.lt_add_one _)
  rw [e, State.takeSymbol, Nat.add_sub_cancel_left, Nat.mul_one]
  by_cases hfs : 0 < s.offsetOver ft
  · rw [if_pos hfs, if_pos hfs]
  · rw [if_neg hfs, if_neg hfs, Nat.eq_zero_of_not_pos hfs]

theorem CoreInv.takeSymbol {s : State} (hc : CoreInv s) {ft : Nat} (hpos : 0 < ft) (hle : ft ≤ s.rng.toNat) :
    CoreInv (s.takeSymbol ft) := by
  obtain ⟨v, g, hlt, e⟩ := updateCore_spec (updateCore_takeSymbol hc.val_lt hpos hle)
  rw [e]
  exact hc.narrow hlt

theorem takeSymbol_errSeen (s : State) (ft : Nat) : (s.takeSymbol ft).errSeen = s.errSeen :=
  normalizeRange_errSeen _

/-- A space of one symbol has offset 0 and its interval is the whole range. -/
theorem takeSymbol_one {s : State} (hc : CoreInv s) : s.offsetOver 1 = 0 ∧ s.takeSymbol 1 = s := by
  have hoff : s.offsetOver 1 = 0 := by
    have := offsetOver_lt s Nat.one_pos
    omega
  refine ⟨hoff, ?_⟩
  simp only [State.takeSymbol, hoff, Nat.lt_irrefl, if_false, Nat.zero_add, Nat.sub_self, Nat.mul_zero, Nat.sub_zero,
    w32_of_toNat]
  exact normalizeRange_of_lt hc.rng_low

/-! ### UINT -/

/-- UINT reports t, with CORRUPT_FRAME exactly when it is not below ft, and keeps every change (43_raw_bits.md R184). -/
theorem uintFinish_frame (ft t : Nat) (s : State) :
    uintFinish ft t s = { s with
      result := w32 t, ecode := if ft ≤ t then 4 else 0, errSeen := s.errSeen || decide (ft ≤ t) } := by
  by_cases hle : ft ≤ t
  · rw [uintFinish, if_pos hle, complete_error (by decide), if_pos hle, decide_eq_true hle, Bool.or_true]
    rfl
  · rw [uintFinish, if_neg hle, complete_ok, if_neg hle, decide_eq_false hle, Bool.or_false]

theorem uintBody_zero {s : State} (hft : s.arg0.toNat = 0) : uintBody s = .ok (complete .invalidArgument 0 s) := by
  simp only [uintBody, State.opArg0, hft, if_true]

theorem uintBody_direct {s : State} (hpos : 0 < s.arg0.toNat) (hle : s.arg0.toNat ≤ 256) :
    uintBody s = uintDirect s.arg0.toNat s := by
  have hbits : ilog (s.arg0.toNat - 1) ≤ uintSplitBits := ilog_le_iff.mpr (by simp only [uintSplitBits]; omega)
  unfold uintBody State.opArg0
  dsimp only
  rw [if_neg hpos.ne', if_pos hbits]

theorem ilog_eq_of_bounds {x k : Nat} (hlo : 2 ^ (k - 1) ≤ x) (hhi : x < 2 ^ k) : ilog x = k := by
  have hle : ilog x ≤ k := ilog_le_iff.mpr hhi
  have hge : ¬ ilog x ≤ k - 1 := fun h => Nat.not_lt.mpr hlo (ilog_le_iff.mp h)
  omega

theorem uintBody_split {s : State} {ftb : Nat} (hft : 256 < s.arg0.toNat) (hlo : 2 ^ (ftb - 1) ≤ s.arg0.toNat - 1)
    (hhi : s.arg0.toNat - 1 < 2 ^ ftb) : uintBody s = uintSplit s.arg0.toNat (ftb - 8) s := by
  have hlog : ilog (s.arg0.toNat - 1) = ftb := ilog_eq_of_bounds hlo hhi
  have hbits : ¬ ilog (s.arg0.toNat - 1) ≤ uintSplitBits := fun h => by
    have := ilog_le_iff.mp h
    simp only [uintSplitBits] at this
    omega
  unfold uintBody State.opArg0
  dsimp only
  rw [if_neg (by omega), if_neg hbits, hlog]
  rfl

/-- UINT's direct path takes the one symbol it reports (43_raw_bits.md R184). -/
theorem exec_uint_direct {s : State} (h : Accepting s) (hc : CoreInv s) (hpos : 0 < s.arg0.toNat)
    (hle : s.arg0.toNat ≤ 256) :
    exec .uint s = .next { s.takeSymbol s.arg0.toNat with result := w32 (s.offsetOver s.arg0.toNat), ecode := 0 } := by
  have hrng : s.arg0.toNat ≤ s.rng.toNat := by
    have := hc.rng_low
    omega
  rw [← complete_ok]
  apply exec_of_body_ok (by decide) h
  rw [body, uintBody_direct hpos hle, uintDirect, decodeCore_offsetOver hpos hrng]
  change (updateCore _ _ _ s).bind _ = _
  rw [updateCore_takeSymbol hc.val_lt hpos hrng]
  change Except.ok (uintFinish _ _ _) = _
  rw [uintFinish, if_neg (Nat.not_le.mpr (offsetOver_lt s hpos))]

/-- UINT's split path takes one symbol of the high part's space, then the low part from the raw channel
(43_raw_bits.md R184). -/
theorem uintSplit_eq {s : State} {ft sh : Nat} (hc : CoreInv s) (hfth : (ft - 1) / 2 ^ sh + 1 ≤ s.rng.toNat) :
    uintSplit ft sh s = .ok (uintFinish ft
      (s.offsetOver ((ft - 1) / 2 ^ sh + 1) * 2 ^ sh + (rawBits sh (s.takeSymbol ((ft - 1) / 2 ^ sh + 1))).1)
      (rawBits sh (s.takeSymbol ((ft - 1) / 2 ^ sh + 1))).2) := by
  rw [uintSplit, decodeCore_offsetOver (Nat.succ_pos _) hfth]
  change (updateCore _ _ _ s).bind _ = _
  rw [updateCore_takeSymbol hc.val_lt (Nat.succ_pos _) hfth]
  rfl

/-- The high part's space, for a bit-length of `sh + 8`, has 129 to 256 symbols (43_raw_bits.md R184). -/
theorem highPart_bounds {m sh : Nat} (hlo : 2 ^ (sh + 7) ≤ m) (hhi : m < 2 ^ (sh + 8)) :
    128 ≤ m / 2 ^ sh ∧ m / 2 ^ sh < 256 := by
  rw [Nat.pow_add, Nat.mul_comm] at hlo hhi
  exact ⟨(Nat.le_div_iff_mul_le (Nat.two_pow_pos sh)).mpr hlo, (Nat.div_lt_iff_lt_mul (Nat.two_pow_pos sh)).mpr hhi⟩

/-- A value put together from a high part of at most `m / d` and a low part below `d` passes `m` only at the last high
part, with a low part past that of `m` (43_raw_bits.md R185). -/
theorem lt_high_low_iff {m d hi lo : Nat} (hhi : hi ≤ m / d) (hlo : lo < d) :
    m < hi * d + lo ↔ hi = m / d ∧ m % d < lo := by
  have hm := Nat.div_add_mod' m d
  have hr := Nat.mod_lt m (Nat.zero_lt_of_lt hlo)
  constructor
  · intro hlt
    have he : hi = m / d := by
      by_contra hne
      have hmul : (hi + 1) * d ≤ m / d * d := Nat.mul_le_mul_right d (by omega)
      rw [Nat.succ_mul] at hmul
      omega
    subst he
    exact ⟨rfl, by omega⟩
  · rintro ⟨rfl, hlt⟩
    omega

/-! ### What a completed command leaves of the registers -/

/-- A command that ends outside the fault state completed its pseudocode. -/
theorem body_ok_of_exec {i : Instr} (hi : i ≠ .init) {s t : State} (h : Accepting s) (he : exec i s = .next t)
    (hf : t.fault = false) : body i s = .ok t := by
  rcases exec_next hi he with ⟨hfault, -⟩ | ⟨-, hready, -⟩ | ⟨-, hb, -⟩ | ⟨-, f, x, rfl, -⟩
  · simp [h.no_fault] at hfault
  · simp [h.ready] at hready
  · exact hb
  · simp at hf

theorem exec_sameMemory {i : Instr} {s t : State} (he : exec i s = .next t) : SameMemory s t := by
  obtain ⟨hb, ht, -⟩ := exec_frame he
  exact .of_eq hb ht

/-- Narrowing the range and completing OK writes the range coder, RESULT and ECODE alone. -/
theorem complete_narrow_frame {s t : State} {r v g : Word}
    (e : t = complete .ok r (normalizeRange { s with val := v, rng := g })) :
    t = { s with rng := t.rng, val := t.val, pos := t.pos, rem := t.rem, totalBits := t.totalBits,
                 result := t.result, ecode := 0 } := by
  subst e
  rw [complete_ok, normalizeRange_frame]

theorem complete_report_frame {s t : State} {r : Word} (e : t = complete .ok r s) :
    t = { s with result := t.result, ecode := 0 } := by
  subst e
  exact complete_ok r s

/-- RawBits writes the raw channel and TOTAL_BITS alone (43_raw_bits.md R182, R183). -/
theorem rawBits_frame (n : Nat) (s : State) :
    (rawBits n s).2 = { s with
      endPos := (rawBits n s).2.endPos, window := (rawBits n s).2.window, avail := (rawBits n s).2.avail,
      totalBits := (rawBits n s).2.totalBits } := by
  apply State.ext <;> simp

theorem bitsBody_frame {n : Nat} {s t : State} (e : bitsBody n s = .ok t) :
    t = { s with endPos := t.endPos, window := t.window, avail := t.avail, totalBits := t.totalBits,
                 result := t.result, ecode := t.ecode, errSeen := t.errSeen } := by
  rcases bitsBody_cases n s with ⟨-, hb⟩ | ⟨-, hb⟩ | ⟨-, -, hb⟩ <;> rw [hb] at e <;> cases e
  · rfl
  · rfl
  · rw [rawBits_frame]
    rfl

/-! ### A change of registers that the dispatch does not see -/

/-- A change of registers that leaves READY and FAULT alone and commutes with the command's pseudocode and with fault
entry commutes with the command. -/
theorem exec_map {i : Instr} (hi : i ≠ .init) {f : State → State} {s t : State} (hready : (f s).ready = s.ready)
    (hfault : (f s).fault = s.fault) (hraise : ∀ w c x, raiseFault w c x (f s) = f (raiseFault w c x s))
    (hbody : body i (f s) = f <$> body i s) (he : exec i s = .next t) : exec i (f s) = .next (f t) := by
  rw [exec_eq_dispatch hi] at he
  rcases dispatch_next he with ⟨hf, rfl⟩ | ⟨hf, hr, rfl⟩ | ⟨h, hb⟩
  · exact exec_fault hi (hfault.trans hf)
  · rw [exec_not_ready hi (hfault.trans hf) (hready.trans hr), hraise]
  · have h' : Accepting (f s) := ⟨hready.trans h.ready, hfault.trans h.no_fault⟩
    rcases hb with hb | ⟨c, x, hb, rfl⟩ <;> rw [hb] at hbody
    · exact exec_of_body_ok hi h' hbody
    · rw [exec_of_body_raise hi h' hbody, hraise]

/-! ### The range coder does not see the raw channel -/

/-- The state with another END_POS, WINDOW and AVAIL. -/
def State.withRawChannel (s : State) (e w : Word) (a : BitVec 6) : State :=
  { s with endPos := e, window := w, avail := a }

section
variable (e w : Word) (a : BitVec 6)

theorem withRawChannel_rng (s : State) : (s.withRawChannel e w a).rng = s.rng := rfl

theorem withRawChannel_val (s : State) : (s.withRawChannel e w a).val = s.val := rfl

theorem withRawChannel_opArg0 (s : State) : (s.withRawChannel e w a).opArg0 = s.opArg0 := rfl

theorem withRawChannel_opArg1 (s : State) : (s.withRawChannel e w a).opArg1 = s.opArg1 := rfl

theorem decodeCore_withRawChannel (ft : Nat) (s : State) :
    decodeCore ft (s.withRawChannel e w a) = decodeCore ft s := rfl

theorem normalizeLoop_withRawChannel (fuel : Nat) (s : State) :
    normalizeLoop fuel (s.withRawChannel e w a) = (normalizeLoop fuel s).withRawChannel e w a := by
  induction fuel generalizing s with
  | zero => rfl
  | succ fuel ih =>
    rw [normalizeLoop, normalizeLoop, show normalizeOnce (s.withRawChannel e w a) =
      (normalizeOnce s).withRawChannel e w a from rfl, ih, apply_ite (fun u => State.withRawChannel u e w a)]
    rfl

/-- Narrowing the range does the same over any raw channel. -/
theorem narrow_withRawChannel (v g : Word) (s : State) :
    normalizeRange { s.withRawChannel e w a with val := v, rng := g } =
      (normalizeRange { s with val := v, rng := g }).withRawChannel e w a :=
  normalizeLoop_withRawChannel e w a 3 { s with val := v, rng := g }

theorem updateCore_withRawChannel (fl fh ft : Nat) (s : State) :
    updateCore fl fh ft (s.withRawChannel e w a) = (·.withRawChannel e w a) <$> updateCore fl fh ft s := by
  unfold updateCore
  rw [apply_ite (_ <$> ·)]
  refine if_congr Iff.rfl rfl ?_
  dsimp only
  rw [apply_ite (_ <$> ·), narrow_withRawChannel]
  rfl

/-- The common end of the commands that narrow the range. -/
theorem updateCore_complete_withRawChannel (fl fh ft : Nat) (r : Word) (s : State) :
    (do let t ← updateCore fl fh ft (s.withRawChannel e w a); return complete .ok r t) =
      (·.withRawChannel e w a) <$> (do let t ← updateCore fl fh ft s; return complete .ok r t) := by
  rw [updateCore_withRawChannel]
  cases updateCore fl fh ft s <;> rfl

theorem decodeBody_withRawChannel (ft : Nat) (s : State) :
    decodeBody ft (s.withRawChannel e w a) = (·.withRawChannel e w a) <$> decodeBody ft s := by
  rw [decodeBody, decodeBody, decodeCore_withRawChannel]
  cases decodeCore ft s <;> rfl

theorem bitLogpBody_withRawChannel (n : Nat) (s : State) :
    bitLogpBody n (s.withRawChannel e w a) = (·.withRawChannel e w a) <$> bitLogpBody n s := by
  rw [bitLogpBody, bitLogpBody, decodeCore_withRawChannel]
  cases decodeCore (pow2 n) s with
  | error x => rfl
  | ok fs =>
    by_cases hfs : fs < pow2 n - 1
    · simp only [bind, Except.bind, hfs, if_true]
      exact updateCore_complete_withRawChannel e w a _ _ _ _ s
    · simp only [bind, Except.bind, hfs, if_false]
      exact updateCore_complete_withRawChannel e w a _ _ _ _ s

theorem laplaceBody_withRawChannel (s : State) :
    laplaceBody (s.withRawChannel e w a) = (·.withRawChannel e w a) <$> laplaceBody s := by
  rw [laplaceBody, laplaceBody, decodeCore_withRawChannel]
  cases decodeCore (2 ^ 15) s with
  | error x => rfl
  | ok fm => exact updateCore_complete_withRawChannel e w a _ _ _ _ s

theorem icdfLoop_withRawChannel (s : State) (base width r d left k t : Nat) :
    icdfLoop (s.withRawChannel e w a) base width r d left k t = icdfLoop s base width r d left k t := by
  induction left generalizing k t with
  | zero => rfl
  | succ left ih =>
    rw [icdfLoop, icdfLoop, ih]
    rfl

theorem icdfSearch_withRawChannel (ftb base len width : Nat) (s : State) :
    icdfSearch ftb base len width (s.withRawChannel e w a) =
      (fun x => (x.1, x.2.withRawChannel e w a)) <$> icdfSearch ftb base len width s := by
  unfold icdfSearch
  rw [apply_ite (_ <$> ·)]
  refine if_congr Iff.rfl rfl ?_
  dsimp only
  rw [icdfLoop_withRawChannel, withRawChannel_rng, withRawChannel_val]
  cases icdfLoop s base width (s.rng.toNat / 2 ^ ftb) s.val.toNat len 0 s.rng.toNat with
  | none => rfl
  | some x =>
    dsimp only
    rw [apply_ite (_ <$> ·), narrow_withRawChannel]
    rfl

theorem icdfBody_withRawChannel (n width : Nat) (s : State) :
    icdfBody n width (s.withRawChannel e w a) = (·.withRawChannel e w a) <$> icdfBody n width s := by
  rw [icdfBody, icdfBody, icdfSearch_withRawChannel, withRawChannel_opArg0, withRawChannel_opArg1]
  cases icdfSearch n s.opArg0 s.opArg1 width s <;> rfl

theorem tellFracBody_withRawChannel (s : State) :
    tellFracBody (s.withRawChannel e w a) = (·.withRawChannel e w a) <$> tellFracBody s := by
  by_cases hlog : ilog s.rng.toNat < 16
  · rw [show tellFracBody s = .error .broken from if_pos hlog]
    exact if_pos hlog
  · rw [show tellFracBody s = .ok _ from if_neg hlog]
    exact if_neg hlog

theorem body_withRawChannel {i : Instr} (hbits : ∀ n, i ≠ .bits n) (huint : i ≠ .uint) (s : State) :
    body i (s.withRawChannel e w a) = (·.withRawChannel e w a) <$> body i s := by
  cases i with
  | init => rfl
  | decode => exact decodeBody_withRawChannel e w a _ s
  | decodeBin n => exact decodeBody_withRawChannel e w a _ s
  | update => exact updateCore_complete_withRawChannel e w a _ _ _ _ s
  | bitLogp n => exact bitLogpBody_withRawChannel e w a n s
  | icdf8 n => exact icdfBody_withRawChannel e w a n 1 s
  | icdf16 n => exact icdfBody_withRawChannel e w a n 2 s
  | bits n => exact absurd rfl (hbits n)
  | uint => exact absurd rfl huint
  | laplace => exact laplaceBody_withRawChannel e w a s
  | tell => rfl
  | tellFrac => exact tellFracBody_withRawChannel e w a s

end

/-! ### The raw channel does not see the range coder -/

/-- The state with another RNG, VAL, POS and REM. -/
def State.withRangeCoder (s : State) (r v p : Word) (b : BitVec 1) : State :=
  { s with rng := r, val := v, pos := p, rem := b }

section
variable (r v p : Word) (b : BitVec 1)

theorem rawFill_withRangeCoder (n fuel : Nat) (s : State) :
    rawFill n fuel (s.withRangeCoder r v p b) = (rawFill n fuel s).withRangeCoder r v p b := by
  induction fuel generalizing s with
  | zero => rfl
  | succ fuel ih =>
    rw [rawFill, rawFill, show rawFetch (s.withRangeCoder r v p b) =
      (rawFetch s).withRangeCoder r v p b from rfl, ih, apply_ite (fun u => State.withRangeCoder u r v p b)]
    rfl

theorem bitsBody_withRangeCoder (n : Nat) (s : State) :
    bitsBody n (s.withRangeCoder r v p b) = (·.withRangeCoder r v p b) <$> bitsBody n s := by
  by_cases hbig : rawBitCeiling < n
  · rw [bitsBody, bitsBody, if_pos hbig, if_pos hbig]
    rfl
  · by_cases hzero : n = 0
    · rw [bitsBody, bitsBody, if_neg hbig, if_neg hbig, if_pos hzero, if_pos hzero]
      rfl
    · rw [bitsBody, bitsBody, if_neg hbig, if_neg hbig, if_neg hzero, if_neg hzero, rawBits, rawBits,
        rawFill_withRangeCoder]
      rfl

end

end Sys2Proof.Machine

/-! ### The obligations -/

section
open Sys2Proof Sys2Proof.Machine

/-- Settles O26: BITS n takes RawBits' bits (`exec_bits_takes`), which are the closed form `rawBits_eq`. -/
theorem bitsTakesLowBits : Obligations.BitsTakesLowBits := by
  unfold Obligations.BitsTakesLowBits
  intro s n h hc hpos hn tail f full
  have hfull : full = s.filledWindow f := by simp only [State.filledWindow, tailByte_toNat, full, tail]
  rw [exec_bits_takes h hpos hn, rawBits_eq hn hc, hfull]
  rfl

/-- Settles O28: UINT's direct path takes the symbol at DecodeCore's offset (`exec_uint_direct`, `offsetOver_lt`). -/
theorem uintDirectPath : Obligations.UintDirectPath := by
  unfold Obligations.UintDirectPath
  intro s h hc ft q fs hpos hle
  exact ⟨exec_uint_direct h hc hpos hle, offsetOver_lt s hpos⟩

/-- Settles O29: UINT's split path takes one symbol of the high part's space and the raw bits after it (`uintSplit_eq`),
whose bounds are `highPart_bounds` and `rawBits_inv`, and passes ft - 1 by its low part only (`lt_high_low_iff`). -/
theorem uintSplitPath : Obligations.UintSplitPath := by
  unfold Obligations.UintSplitPath
  intro s ftb h hc ft sh fth q th s1 tl t hft hlo hhi
  have hftb : 9 ≤ ftb := by
    by_contra hsmall
    have hpow : 2 ^ ftb ≤ 2 ^ 8 := Nat.pow_le_pow_right (by decide) (by omega)
    omega
  have hftb32 : ftb ≤ 32 := by
    rw [← ilog_eq_of_bounds hlo hhi]
    exact ilog_le_32 (by omega)
  obtain ⟨hhigh, hhigh'⟩ := highPart_bounds (m := ft - 1) (sh := sh)
    (by rwa [show sh + 7 = ftb - 1 by omega]) (by rwa [show sh + 8 = ftb by omega])
  have hfth : fth ≤ s.rng.toNat := by
    have := hc.rng_low
    omega
  have hth : th < fth := offsetOver_lt s (Nat.succ_pos _)
  have hc1 : CoreInv s1 := hc.takeSymbol (Nat.succ_pos _) hfth
  obtain ⟨-, -, htl, -⟩ := rawBits_inv (n := sh) (by omega) hc1.avail_le hc1.window_lt
  have ht : t < 2 ^ 32 :=
    calc t < (th + 1) * 2 ^ sh := by rw [Nat.succ_mul]; exact Nat.add_lt_add_left htl _
      _ ≤ 2 ^ 8 * 2 ^ 24 := Nat.mul_le_mul (by omega) (Nat.pow_le_pow_right (by decide) (by omega))
  refine ⟨?_, by omega, by omega, hth, htl, ht, ?_⟩
  · have hseen : (rawBits sh s1).2.errSeen = s.errSeen := (rawBits_errSeen sh s1).trans (takeSymbol_errSeen s fth)
    apply exec_of_body_ok (by decide) h
    rw [body, uintBody_split hft hlo hhi, uintSplit_eq hc hfth, uintFinish_frame, ← hseen]
    rfl
  · have hiff := lt_high_low_iff (m := ft - 1) (Nat.le_of_lt_succ hth) htl
    rw [show fth - 1 = (ft - 1) / 2 ^ sh from rfl, ← hiff]
    omega

/-- Settles O39: the completed body either narrows the range (`complete_narrow_frame`) or only reports
(`complete_report_frame`). -/
theorem rangeCoderFrame : Obligations.RangeCoderFrame := by
  unfold Obligations.RangeCoderFrame
  intro i s t h he hf
  have hmem := exec_sameMemory he
  have hbody (hi : i ≠ .init) : body i s = .ok t := body_ok_of_exec hi h he hf
  constructor
  · rintro (rfl | rfl | ⟨n, rfl | rfl | rfl⟩) <;> refine ⟨?_, hmem⟩
    · obtain ⟨v, g, -, e⟩ := updateBody_ok (hbody Instr.noConfusion)
      exact complete_narrow_frame e
    · obtain ⟨r, v, g, -, e⟩ := laplaceBody_ok (hbody Instr.noConfusion)
      exact complete_narrow_frame e
    · obtain ⟨r, v, g, -, e⟩ := bitLogpBody_ok (hbody Instr.noConfusion)
      exact complete_narrow_frame e
    · obtain ⟨k, -, v, g, -, e⟩ := icdfBody_ok (hbody Instr.noConfusion)
      exact complete_narrow_frame e
    · obtain ⟨k, -, v, g, -, e⟩ := icdfBody_ok (hbody Instr.noConfusion)
      exact complete_narrow_frame e
  · rintro (rfl | rfl | rfl | ⟨n, rfl⟩) <;> refine ⟨?_, hmem⟩
    · obtain ⟨r, e⟩ := decodeBody_ok (hbody Instr.noConfusion)
      exact complete_report_frame e
    · exact complete_report_frame (Except.ok.inj (hbody Instr.noConfusion)).symm
    · obtain ⟨r, e⟩ := tellFracBody_ok (hbody Instr.noConfusion)
      exact complete_report_frame e
    · obtain ⟨r, e⟩ := decodeBody_ok (hbody Instr.noConfusion)
      exact complete_report_frame e

/-- Settles O40: BITS by its three outcomes (`bitsBody_frame`), UINT by what no completed command writes
(`Completes.frame`). -/
theorem rawChannelFrame : Obligations.RawChannelFrame := by
  unfold Obligations.RawChannelFrame
  intro i s t h he hf
  have hmem := exec_sameMemory he
  have hbody (hi : i ≠ .init) : body i s = .ok t := body_ok_of_exec hi h he hf
  constructor
  · rintro ⟨n, rfl⟩
    exact ⟨bitsBody_frame (hbody Instr.noConfusion), hmem⟩
  · rintro rfl
    exact ⟨(body_ok (hbody Instr.noConfusion)).frame, hmem⟩

/-- Settles O42: every other body commutes with a change of the raw channel (`body_withRawChannel`), and so does the
dispatch around it (`exec_map`). -/
theorem rangeCoderIgnoresRawChannel : Obligations.RangeCoderIgnoresRawChannel := by
  unfold Obligations.RangeCoderIgnoresRawChannel
  intro i s t e w a hi huint hbits he
  exact exec_map (f := (·.withRawChannel e w a)) hi rfl rfl (fun _ _ _ => rfl)
    (body_withRawChannel e w a hbits huint s) he

/-- Settles O43: BITS' body commutes with a change of the range coder (`bitsBody_withRangeCoder`), and so does the
dispatch around it (`exec_map`). -/
theorem rawChannelIgnoresRangeCoder : Obligations.RawChannelIgnoresRangeCoder := by
  unfold Obligations.RawChannelIgnoresRangeCoder
  intro n s t r v p b he
  exact exec_map (f := (·.withRangeCoder r v p b)) Instr.noConfusion rfl rfl (fun _ _ _ => rfl)
    (bitsBody_withRangeCoder r v p b n s) he

/-- Settles O27: the two outcomes of BITS that take no bits (`bitsBody_zero`, `bitsBody_tooMany`). -/
theorem bitsZeroAndTooMany : Obligations.BitsZeroAndTooMany := by
  unfold Obligations.BitsZeroAndTooMany
  intro s n h
  constructor
  · rintro rfl
    rw [← complete_ok]
    exact exec_of_body_ok Instr.noConfusion h (bitsBody_zero s)
  · intro hbig _
    have e := exec_of_body_ok (i := .bits n) Instr.noConfusion h (bitsBody_tooMany hbig s)
    rwa [complete_error (by decide)] at e

/-- Settles O30: UINT of 0 is refused (`uintBody_zero`), and UINT of 1 takes the only symbol of its space, which is the
whole range (`takeSymbol_one`). -/
theorem uintOfZeroAndOne : Obligations.UintOfZeroAndOne := by
  unfold Obligations.UintOfZeroAndOne
  intro s h
  refine ⟨fun hzero => ?_, fun hc hone => ?_⟩
  · have e := exec_of_body_ok (i := .uint) (by decide) h (uintBody_zero (by rw [hzero]; rfl))
    rwa [complete_error (by decide)] at e
  · have hft : s.arg0.toNat = 1 := by rw [hone]; rfl
    obtain ⟨hoff, hsame⟩ := takeSymbol_one hc
    rw [exec_uint_direct h hc (by omega) (by omega), hft, hoff, hsame]
    rfl

end
end

section
/-! PROOFS of the statements of 44_laplace.md: LAPLACE takes the interval that the search leaves, and what that search
is in terms of the loop's iterations. -/

namespace Sys2Proof.Machine

/-! ### The search below and at or above fs -/

/-- Below fs the search answers 0 and the interval of width fs at 0 (44_laplace.md R201). -/
theorem laplaceSearch_of_lt {fm fs : Nat} (h : fm < fs) (decay : Nat) : laplaceSearch fm fs decay = (0, 0, fs) :=
  if_neg (Nat.not_le.mpr h)

/-- How many minimum steps the interpolation adds to the magnitude: none unless the step has collapsed
(44_laplace.md R201). -/
def LaplaceVars.extra (fm : Nat) (v : LaplaceVars) : Nat := if v.fsc ≤ 1 then (fm - v.fl) / 2 else 0

/-- The interpolation moves the magnitude by its extra steps and `fl` by twice as much. -/
theorem laplaceCollapse_eq (fm : Nat) (v : LaplaceVars) :
    laplaceCollapse fm v = { v with mag := v.mag + v.extra fm, fl := v.fl + 2 * v.extra fm } := by
  by_cases hc : v.fsc ≤ 1
  · simp [laplaceCollapse, LaplaceVars.extra, laplaceMinp, laplaceLogMinp, hc]
  · simp [laplaceCollapse, LaplaceVars.extra, laplaceMinp, hc]

/-- The value, `fl` and `fsc` that interpolation and sign make of the loop's last state (44_laplace.md R201). -/
theorem laplaceSign_laplaceCollapse (fm : Nat) (v : LaplaceVars) :
    laplaceSign fm (laplaceCollapse fm v) =
      (if fm < v.fl + 2 * v.extra fm + v.fsc then -((v.mag + v.extra fm : Nat) : Int) else (v.mag + v.extra fm : Nat),
        if fm < v.fl + 2 * v.extra fm + v.fsc then v.fl + 2 * v.extra fm else v.fl + 2 * v.extra fm + v.fsc,
        v.fsc) := by
  rw [laplaceCollapse_eq, laplaceSign]
  split <;> rfl

/-- The loop's test (44_laplace.md R201). -/
def LaplaceVars.more (fm : Nat) (v : LaplaceVars) : Prop := 1 < v.fsc ∧ v.fl + 2 * v.fsc ≤ fm

/-- At or above fs the search is at most 8192 iterations of the loop, each entered with its test true, until the test
is false; then the interpolation and the sign (44_laplace.md R201, R202 item 5). -/
theorem laplaceSearch_of_le {fm fs : Nat} (decay : Nat) (hfm : fm < 32768) (h : fs ≤ fm) :
    ∃ k ≤ 8192, (∀ j < k, ((laplaceOnce decay)^[j] (laplaceStart fs decay)).more fm) ∧
      ¬ ((laplaceOnce decay)^[k] (laplaceStart fs decay)).more fm ∧
      laplaceSearch fm fs decay =
        laplaceSign fm (laplaceCollapse fm ((laplaceOnce decay)^[k] (laplaceStart fs decay))) := by
  have hroom : fm < (laplaceStart fs decay).fl + 4 * 8192 := by omega
  obtain ⟨k, hk, e, before, after⟩ := laplaceLoop_iterate (laplaceStart_inv decay h) hroom
  exact ⟨k, hk, before, after, by rw [laplaceSearch, if_pos h, e]⟩

/-! ### The loop's state as the triple of R201 -/

/-- The loop's variables in the order (fl, fsc, val). -/
def LaplaceVars.triple (v : LaplaceVars) : Nat × Nat × Nat := (v.fl, v.fsc, v.mag)

/-- Iterating a step on triples that follows the loop's step follows the loop (44_laplace.md R201). -/
theorem iterate_laplaceStart_triple {decay : Nat} {once : Nat × Nat × Nat → Nat × Nat × Nat}
    (honce : ∀ v : LaplaceVars, (laplaceOnce decay v).triple = once v.triple) (fs j : Nat) :
    once^[j] (laplaceStart fs decay).triple = ((laplaceOnce decay)^[j] (laplaceStart fs decay)).triple :=
  (Function.Semiconj.iterate_right honce j (laplaceStart fs decay)).symm

/-! ### LAPLACE -/

/-- The state with the interval [lo, hi) of the 32768 frequencies taken, normalized (44_laplace.md R201). -/
def State.takeInterval (s : State) (lo hi : Nat) : State :=
  normalizeRange { s with
    val := w32 (s.val.toNat - s.rng.toNat / 32768 * (32768 - hi))
    rng := w32 (if 0 < lo then s.rng.toNat / 32768 * (hi - lo)
      else s.rng.toNat - s.rng.toNat / 32768 * (32768 - hi)) }

/-- The whole space is the whole range. -/
theorem takeInterval_whole {s : State} (hc : CoreInv s) : s.takeInterval 0 32768 = s := by
  simp only [State.takeInterval, Nat.lt_irrefl, if_false, Nat.sub_self, Nat.mul_zero, Nat.sub_zero, w32_of_toNat]
  exact normalizeRange_of_lt hc.rng_low

section
variable {s : State} (hc : CoreInv s) {val : Int} {fl fsc : Nat}
  (hsearch : laplaceSearch (s.offsetOver 32768) s.arg0.toNat s.arg1.toNat = (val, fl, fsc))
include hc hsearch

/-- The interval found holds the decoded offset, so UpdateCore's contract holds and LAPLACE completes
(41_symbol_decode.md R145, 44_laplace.md R202). -/
theorem laplaceBody_eq :
    laplaceBody s = .ok (complete .ok (BitVec.ofInt 32 val) (s.takeInterval fl (min (fl + fsc) 32768))) := by
  have hoff : s.offsetOver 32768 < 32768 := offsetOver_lt s (by decide)
  obtain ⟨hlow, hhigh, -, -⟩ := laplaceSearch_spec (fs := s.arg0.toNat) (decay := s.arg1.toNat) hoff
  rw [hsearch] at hlow hhigh
  dsimp only at hlow hhigh
  have hd : decodeCore 32768 s = .ok (s.offsetOver 32768) := by
    have := hc.rng_low
    exact decodeCore_offsetOver (by decide) (by omega)
  obtain ⟨hu, -⟩ := updateCore_contract hc.val_lt hd (by omega : fl < min (fl + fsc) 32768) (Nat.min_le_right _ _)
    hlow (by omega)
  simp only [laplaceBody, State.opArg0, State.opArg1, laplaceTotal, Nat.reducePow, hd, bind, Except.bind, hsearch, hu]
  rfl

/-- LAPLACE takes the interval that its search leaves and reports the search's value (44_laplace.md R201). -/
theorem exec_laplace (h : Accepting s) :
    exec .laplace s = .next
      { s.takeInterval fl (min (fl + fsc) 32768) with result := BitVec.ofInt 32 val, ecode := 0 } := by
  rw [← complete_ok]
  exact exec_of_body_ok Instr.noConfusion h (laplaceBody_eq hc hsearch)

end

end Sys2Proof.Machine

/-! ### The obligations -/

section
open Sys2Proof Sys2Proof.Machine

/-- Settles O31: below fs the search is `laplaceSearch_of_lt`, and LAPLACE takes its interval (`exec_laplace`), which
for fs of 32768 or more is the whole range (`takeInterval_whole`). -/
theorem laplaceDecodesZero : Obligations.LaplaceDecodesZero := by
  unfold Obligations.LaplaceDecodesZero
  intro s h hc fs q fm hlt
  have e := exec_laplace hc (laplaceSearch_of_lt hlt _) h
  rw [Nat.zero_add] at e
  refine ⟨?_, fun hfs => ?_⟩
  · have hclamp : 32768 - min fs 32768 = 32768 - fs := by omega
    rw [e, State.takeInterval, if_neg (Nat.lt_irrefl 0), hclamp]
    rfl
  · rw [e, Nat.min_eq_right hfs, takeInterval_whole hc]
    rfl

/-- Settles O32: at or above fs the search is the loop's iterations and the sign (`laplaceSearch_of_le`,
`laplaceSign_laplaceCollapse`), its interval holds fm (`laplaceSearch_spec`), and LAPLACE takes it (`exec_laplace`). -/
theorem laplaceDecodesNonzero : Obligations.LaplaceDecodesNonzero := by
  unfold Obligations.LaplaceDecodesNonzero
  intro s h hc fs decay q fm start once more hle
  have hfm : fm < 32768 := offsetOver_lt s (by decide)
  obtain ⟨k, hk, before, after, hsearch⟩ := laplaceSearch_of_le decay hfm hle
  have hiter (j : Nat) : once^[j] start = ((laplaceOnce decay)^[j] (laplaceStart fs decay)).triple :=
    iterate_laplaceStart_triple (fun _ => rfl) fs j
  refine ⟨k, hk, fun j hj => ?_, ?_, ?_⟩
  · rw [hiter]
    exact before j hj
  · rw [hiter]
    exact after
  · rintro fl fsc mag hend di low lo hi val
    rw [hiter] at hend
    generalize (laplaceOnce decay)^[k] (laplaceStart fs decay) = v at hend hsearch
    cases hend
    rw [laplaceSign_laplaceCollapse] at hsearch
    obtain ⟨hlow, hhigh, hmag, hsign⟩ := laplaceSearch_spec (fs := fs) (decay := decay) hfm
    rw [hsearch] at hlow hhigh hmag hsign
    exact ⟨exec_laplace hc hsearch h, hlow, Nat.lt_min.mpr ⟨hhigh, hfm⟩, hsign.mp hle, hmag⟩

/-- Settles O33: LAPLACE completes with the search's value (`laplaceBody_eq`), whose magnitude `laplaceSearch_spec`
bounds; a completed command keeps 10_state.md R25, and narrowing touches neither the fault state nor the raw channel. -/
theorem laplaceNeverFaults : Obligations.LaplaceNeverFaults := by
  unfold Obligations.LaplaceNeverFaults
  intro s h hc
  rcases hsearch : laplaceSearch (s.offsetOver 32768) s.arg0.toNat s.arg1.toNat with ⟨val, fl, fsc⟩
  have hoff : s.offsetOver 32768 < 32768 := offsetOver_lt s (by decide)
  obtain ⟨-, -, hmag, -⟩ := laplaceSearch_spec (fs := s.arg0.toNat) (decay := s.arg1.toNat) hoff
  rw [hsearch] at hmag
  have hb : body .laplace s = _ := laplaceBody_eq hc hsearch
  refine ⟨_, val, exec_of_body_ok Instr.noConfusion h hb, ?_, rfl, rfl, hmag, (body_ok hb).coreInv hc, ?_⟩
  · constructor <;> simp [State.takeInterval]
  · simp [State.takeInterval]

end
end

section
/-! PROOFS of the statements of 45_accounting.md: TELL's value from the bit-length of RNG, the three refinements of
TELL_FRAC, and that no command which keeps RNG from rising lowers TELL. -/

namespace Sys2Proof.Machine

/-! ### The bit-length of RNG -/

theorem ilog_mono {x y : Nat} (h : x ≤ y) : ilog x ≤ ilog y :=
  ilog_le_iff.mpr (h.trans_lt (lt_two_pow_ilog y))

/-- Shifting left by `m` adds `m` to the bit-length. -/
theorem ilog_mul_two_pow {x : Nat} (h : x ≠ 0) (m : Nat) : ilog (x * 2 ^ m) = ilog x + m := by
  have hpos : 1 ≤ ilog x := by rw [ilog_pos h]; exact Nat.succ_pos _
  apply ilog_eq_of_bounds
  · calc 2 ^ (ilog x + m - 1) = 2 ^ (ilog x - 1) * 2 ^ m := by rw [← Nat.pow_add, Nat.sub_add_comm hpos]
      _ ≤ x * 2 ^ m := Nat.mul_le_mul_right _ (two_pow_le_of_ilog h)
  · rw [Nat.pow_add]
    exact Nat.mul_lt_mul_of_pos_right (lt_two_pow_ilog x) (Nat.two_pow_pos m)

/-- The bit-length of RNG is 24 to 32 (45_accounting.md R221). -/
theorem CoreInv.ilog_rng_bounds {s : State} (hc : CoreInv s) : 24 ≤ ilog s.rng.toNat ∧ ilog s.rng.toNat ≤ 32 := by
  refine ⟨?_, ilog_le_32 s.rng.isLt⟩
  by_contra hlt
  have hsmall : s.rng.toNat < 2 ^ 23 := ilog_le_iff.mp (by omega)
  have hlow := hc.rng_low
  omega

/-! ### TELL_FRAC -/

/-- One refinement doubles `lg`, folds in one bit, and leaves a normalized 16-bit copy (45_accounting.md R222). -/
theorem tellRefine_bounds {x : Nat × Nat} (hlo : 2 ^ 15 ≤ x.2) (hhi : x.2 < 2 ^ 16) :
    (2 * x.1 ≤ (tellRefine x).1 ∧ (tellRefine x).1 ≤ 2 * x.1 + 1) ∧
    2 ^ 15 ≤ (tellRefine x).2 ∧ (tellRefine x).2 < 2 ^ 16 := by
  have hlow : 2 ^ 15 * 2 ^ 15 ≤ x.2 * x.2 := Nat.mul_le_mul hlo hlo
  have hhigh : x.2 * x.2 < 2 ^ 16 * 2 ^ 16 := Nat.mul_lt_mul'' hhi hhi
  simp only [tellRefine]
  generalize x.2 * x.2 = sq at hlow hhigh
  have hbit : sq / 2 ^ 15 / 2 ^ 16 = 0 ∨ sq / 2 ^ 15 / 2 ^ 16 = 1 := by omega
  rcases hbit with hb | hb <;> rw [hb] <;> omega

/-- The refined `lg` is eight times the bit-length and three bits more (45_accounting.md R223). -/
theorem tellFracLg_bounds {rng : Nat} (h : 16 ≤ ilog rng) :
    8 * ilog rng ≤ tellFracLg rng ∧ tellFracLg rng ≤ 8 * ilog rng + 7 := by
  have h0 : rng ≠ 0 := by rintro rfl; simp [ilog] at h
  have hlo : 2 ^ 15 ≤ rng / 2 ^ (ilog rng - 16) := by
    rw [Nat.le_div_iff_mul_le (Nat.two_pow_pos _), ← Nat.pow_add, show 15 + (ilog rng - 16) = ilog rng - 1 by omega]
    exact two_pow_le_of_ilog h0
  have hhi : rng / 2 ^ (ilog rng - 16) < 2 ^ 16 := by
    rw [Nat.div_lt_iff_lt_mul (Nat.two_pow_pos _), ← Nat.pow_add, Nat.add_sub_cancel' h]
    exact lt_two_pow_ilog rng
  obtain ⟨hfst1, hlo1, hhi1⟩ := tellRefine_bounds (x := (ilog rng, rng / 2 ^ (ilog rng - 16))) hlo hhi
  obtain ⟨hfst2, hlo2, hhi2⟩ := tellRefine_bounds hlo1 hhi1
  obtain ⟨hfst3, -, -⟩ := tellRefine_bounds hlo2 hhi2
  rw [tellFracLg]
  dsimp only at hfst1
  omega

theorem tellFracBody_eq {s : State} (hc : CoreInv s) :
    tellFracBody s = .ok (complete .ok (w32 (tellFracValue s)) s) := by
  obtain ⟨hlo, -⟩ := hc.ilog_rng_bounds
  rw [tellFracBody, if_neg (by omega)]

/-! ### What the commands leave of TELL -/

theorem tellValue_complete (c : Completion) (r : Word) (s : State) : tellValue (complete c r s) = tellValue s := rfl

/-- RawBits only adds to TOTAL_BITS (45_accounting.md R221). -/
theorem tellValue_le_rawBits (n : Nat) (s : State) : tellValue s ≤ tellValue (rawBits n s).2 := by
  rw [tellValue, tellValue, rawBits_rng]
  exact Nat.sub_le_sub_right (cursorsLe_rawBits n s).totalBits _

/-- `t` is `s` with the range narrowed to at most RNG, and normalized. -/
def NarrowsWithin (s t : State) : Prop :=
  ∃ v g : Word, v.toNat < g.toNat ∧ g.toNat ≤ s.rng.toNat ∧ t = normalizeRange { s with val := v, rng := g }

/-- Each iteration of Normalize adds 8 to TOTAL_BITS and 8 to the bit-length of RNG (45_accounting.md R221). -/
theorem NarrowsWithin.tellValue_le {s t : State} (h : NarrowsWithin s t) (hsat : s.totalBits.toNat + 24 < 2 ^ 32) :
    tellValue s ≤ tellValue t := by
  obtain ⟨v, g, hvg, hg, rfl⟩ := h
  obtain ⟨k, hk, e, -, -, hrng, -, -, htot, -⟩ :=
    normalizeLoop_iterate (s := { s with val := v, rng := g }) (three_iterations (Nat.one_le_of_lt hvg)) hvg
  dsimp only at hrng htot
  have hadd : satAdd s.totalBits.toNat (8 * k) = s.totalBits.toNat + 8 * k :=
    Nat.min_eq_left (by simp only [maxU32]; omega)
  rw [tellValue, tellValue, satSub, satSub, normalizeRange, e, hrng, htot, hadd,
    ilog_mul_two_pow (Nat.ne_zero_of_lt hvg), Nat.add_sub_add_right]
  exact Nat.sub_le_sub_left (ilog_mono hg) _

/-- UpdateCore never raises RNG on an interval that ends inside the space (45_accounting.md R221). -/
theorem updateCore_narrowsWithin {fl fh ft : Nat} {s t : State} (h : updateCore fl fh ft s = .ok t) (hle : fh ≤ ft) :
    NarrowsWithin s t := by
  have hrng : updateRng fl fh ft s ≤ s.rng.toNat := by
    rw [updateRng_unclamped hle]
    split
    · exact (Nat.mul_le_mul_left _ (by omega)).trans (Nat.div_mul_le_self _ ft)
    · exact Nat.sub_le _ _
  rcases updateCore_cases fl fh ft s with ⟨-, e⟩ | ⟨-, -, -, e⟩ | ⟨-, -, hlt, e⟩ <;> rw [e] at h <;> cases h
  refine ⟨_, _, ?_, ?_, rfl⟩
  · rwa [w32_toNat_of_lt (updateVal_lt fh ft s), w32_toNat_of_lt (updateRng_lt fl fh ft s)]
  · rwa [w32_toNat_of_lt (updateRng_lt fl fh ft s)]

/-- IcdfSearch never raises RNG on a table whose entries are at most 2^ftb (45_accounting.md R221). -/
theorem icdfSearch_narrowsWithin {ftb base len w k : Nat} {s t : State} (hv : s.val.toNat < s.rng.toNat)
    (hentry : ∀ j < len, s.tblEntry base j w ≤ 2 ^ ftb) (h : icdfSearch ftb base len w s = .ok (k, t)) :
    NarrowsWithin s t := by
  rcases icdfSearch_cases (ftb := ftb) (base := base) (len := len) (w := w) hv with
    ⟨-, e⟩ | ⟨-, -, -, e⟩ | ⟨-, -, j, hj, u, p, -, hu, -, hp, hlt, -, e⟩ <;> rw [e] at h <;> cases h
  have hule : u ≤ s.rng.toNat := by
    rw [hu]
    split
    · exact le_rfl
    · exact (satMul_le _ _).trans
        ((Nat.mul_le_mul_left _ (hentry _ (by omega))).trans (Nat.div_mul_le_self _ _))
  have hr := s.rng.isLt
  refine ⟨_, _, ?_, ?_, rfl⟩
  · rw [w32_toNat_of_lt (by omega), w32_toNat_of_lt (by omega)]
    omega
  · rw [w32_toNat_of_lt (by omega)]
    omega

theorem decodeCore_lt {ft fs : Nat} {s : State} (h : decodeCore ft s = .ok fs) : fs < ft := by
  rcases decodeCore_cases ft s with ⟨-, e⟩ | ⟨-, -, fs', hlt, e, -⟩ <;> rw [e] at h <;> cases h
  exact hlt

section
variable {s t : State} (hsat : s.totalBits.toNat + 24 < 2 ^ 32)
include hsat

theorem updateBody_tellValue_le (hle : s.arg1.toNat ≤ s.arg2.toNat) (h : updateBody s = .ok t) :
    tellValue s ≤ tellValue t := by
  obtain ⟨u, hu, e⟩ := bind_eq_ok h
  cases e
  exact (updateCore_narrowsWithin hu hle).tellValue_le hsat

theorem bitLogpBody_tellValue_le {n : Nat} (h : bitLogpBody n s = .ok t) : tellValue s ≤ tellValue t := by
  obtain ⟨fs, -, h1⟩ := bind_eq_ok h
  split at h1 <;> obtain ⟨u, hu, e⟩ := bind_eq_ok h1 <;> cases e
  · exact (updateCore_narrowsWithin hu (Nat.sub_le _ _)).tellValue_le hsat
  · exact (updateCore_narrowsWithin hu le_rfl).tellValue_le hsat

theorem icdfBody_tellValue_le {n w : Nat} (hv : s.val.toNat < s.rng.toNat)
    (hentry : ∀ j < s.arg1.toNat, s.tblEntry s.arg0.toNat j w ≤ 2 ^ n) (h : icdfBody n w s = .ok t) :
    tellValue s ≤ tellValue t := by
  obtain ⟨⟨k, u⟩, hu, e⟩ := bind_eq_ok h
  cases e
  exact (icdfSearch_narrowsWithin hv hentry hu).tellValue_le hsat

theorem uintBody_tellValue_le (h : uintBody s = .ok t) : tellValue s ≤ tellValue t := by
  simp only [uintBody] at h
  split at h
  · cases h
    exact le_rfl
  · split at h <;> obtain ⟨fs, hd, h1⟩ := bind_eq_ok h <;> obtain ⟨u, hu, e⟩ := bind_eq_ok h1 <;>
      have hle := (updateCore_narrowsWithin hu (decodeCore_lt hd)).tellValue_le hsat
    · cases e
      rwa [uintFinish_eq, tellValue_complete]
    · obtain rfl : _ = t := Except.ok.inj e
      rw [uintFinish_eq, tellValue_complete]
      exact hle.trans (tellValue_le_rawBits _ u)

theorem laplaceBody_tellValue_le (h : laplaceBody s = .ok t) : tellValue s ≤ tellValue t := by
  obtain ⟨fm, -, h1⟩ := bind_eq_ok h
  obtain ⟨u, hu, e⟩ := bind_eq_ok h1
  cases e
  exact (updateCore_narrowsWithin hu (Nat.min_le_right _ _)).tellValue_le hsat

end

theorem bitsBody_tellValue_le {n : Nat} {s t : State} (h : bitsBody n s = .ok t) : tellValue s ≤ tellValue t := by
  rcases bitsBody_cases n s with ⟨-, e⟩ | ⟨-, e⟩ | ⟨-, -, e⟩ <;> rw [e] at h <;> cases h
  · exact le_rfl
  · exact le_rfl
  · exact tellValue_le_rawBits n s

end Sys2Proof.Machine

/-! ### The obligations -/

section
open Sys2Proof Sys2Proof.Machine

/-- Settles O34: TELL reports its value, and the bit-length of RNG is at most 32, below TOTAL_BITS
(`CoreInv.ilog_rng_bounds`). -/
theorem tellReportsWholeBits : Obligations.TellReportsWholeBits := by
  unfold Obligations.TellReportsWholeBits
  intro s k h hc hlo hhi
  have hk : ilog s.rng.toNat = k := ilog_eq_of_bounds hlo hhi
  obtain ⟨h24, h32⟩ := hc.ilog_rng_bounds
  have htot := hc.total_ge
  refine ⟨?_, by omega, by omega, by omega⟩
  rw [← complete_ok, ← hk]
  exact exec_of_body_ok (i := .tell) (by decide) h rfl

/-- Settles O35: the refined lg is R222's `8 * k + c`, and `tellFracLg_bounds` bounds it. -/
theorem tellFracReportsEighthBits : Obligations.TellFracReportsEighthBits := by
  unfold Obligations.TellFracReportsEighthBits
  intro s k h hc hlo hhi r0 b1 r1 b2 r2 b3 c frac
  have hk : ilog s.rng.toNat = k := ilog_eq_of_bounds hlo hhi
  obtain ⟨h24, h32⟩ := hc.ilog_rng_bounds
  obtain ⟨hlg, hlg'⟩ := tellFracLg_bounds (rng := s.rng.toNat) (by omega)
  have hrefined : tellFracLg s.rng.toNat = 8 * k + c := by
    rw [tellFracLg, hk]
    change ((k * 2 + b1) * 2 + b2) * 2 + b3 = 8 * k + (4 * b1 + 2 * b2 + b3)
    ring
  have htot := hc.total_ge
  refine ⟨?_, by omega, by omega, fun _ => by omega⟩
  rw [← complete_ok]
  have hvalue : frac = tellFracValue s := by rw [tellFracValue, hrefined]; rfl
  rw [hvalue]
  exact exec_of_body_ok (i := .tellFrac) (by decide) h (tellFracBody_eq hc)

/-- Settles O36: a completed command either leaves RNG and TOTAL_BITS, or takes raw bits (`tellValue_le_rawBits`), or
narrows the range within RNG (`NarrowsWithin.tellValue_le`). -/
theorem tellNeverFalls : Obligations.TellNeverFalls := by
  unfold Obligations.TellNeverFalls
  intro s t i h hc he hf hsat hcontract
  have hi : i ≠ .init := by rintro rfl; exact hcontract
  have hb : body i s = .ok t := body_ok_of_exec hi h he hf
  have hsat24 : s.totalBits.toNat + 24 < 2 ^ 32 := by omega
  change tellValue s ≤ tellValue t
  cases i with
  | init => exact absurd rfl hi
  | decode | decodeBin n => obtain ⟨r, rfl⟩ := decodeBody_ok hb; exact le_rfl
  | update => exact updateBody_tellValue_le hsat24 hcontract.1 hb
  | bitLogp n => exact bitLogpBody_tellValue_le hsat24 hb
  | icdf8 n =>
    exact icdfBody_tellValue_le hsat24 hc.val_lt (fun j hj => by rw [tblEntry_one]; exact hcontract j hj) hb
  | icdf16 n =>
    refine icdfBody_tellValue_le hsat24 hc.val_lt (fun j hj => ?_) hb
    rw [tblEntry_two, Nat.mul_comm 256]
    exact hcontract j hj
  | bits n => exact bitsBody_tellValue_le hb
  | uint => exact uintBody_tellValue_le hsat24 hb
  | laplace => exact laplaceBody_tellValue_le hsat24 hb
  | tell => cases hb; exact le_rfl
  | tellFrac => obtain ⟨r, rfl⟩ := tellFracBody_ok hb; exact le_rfl

end
end

section
/-! PROOFS of the statements of 60_exceptions.md: the block's step on any word, the completion codes, fault entry, and
how the fault state is left. -/

namespace Sys2Proof.Machine

/-! ### The block's step on any word -/

/-- When the block moves, the step is the word's execution followed by the end of the command (10_state.md R38). -/
theorem step_of_execWord {s t : State} {w : Word} (hturn : BlockTurn s w) (h : execWord w s = .next t) :
    step s = .next (endCommand t) := by
  rw [step_blockTurn hturn, blockStep, h]

/-- A legal word executes as a command, the one it encodes (30_encoding.md R94, R96). -/
theorem execWord_of_legal {w : Word} (h : LegalFields w) (s : State) :
    ∃ i, encode i = w ∧ execWord w s = exec i s := by
  obtain ⟨i, hdec⟩ := (decoderAcceptsExactlyLegalWords w).mpr h
  exact ⟨i, (encodeInvertsDecode w i hdec).2, by rw [execWord, hdec]⟩

/-- A word that is not legal is ignored in the fault state and raises ILLEGAL_CMD outside it (60_exceptions.md R240,
R241). -/
theorem execWord_of_not_legal {w : Word} (h : ¬ LegalFields w) (s : State) :
    execWord w s = .next (if s.fault then s else raiseFault w .illegalCmd 0 s) := by
  cases hdec : decode w with
  | ok i => exact absurd ((decoderAcceptsExactlyLegalWords w).mp ⟨i, hdec⟩) h
  | error e => rw [execWord, hdec]

/-- Only INIT's own word encodes INIT (30_encoding.md R93). -/
theorem ne_init_of_encode {w : Word} {i : Instr} (he : encode i = w) (hw : w ≠ 0x00000001) : i ≠ .init := by
  rintro rfl
  exact hw he.symm

/-- In the fault state every word but INIT's is ignored (60_exceptions.md R240). -/
theorem execWord_fault {w : Word} {s : State} (hf : s.fault = true) (hw : w ≠ 0x00000001) :
    execWord w s = .next s := by
  by_cases hlegal : LegalFields w
  · obtain ⟨i, he, h⟩ := execWord_of_legal hlegal s
    rw [h, exec_fault (ne_init_of_encode he hw) hf]
  · rw [execWord_of_not_legal hlegal, if_pos hf]

/-! ### What a completion leaves of STATUS -/

/-- A completed command leaves READY, FAULT and the fault registers (60_exceptions.md R232). -/
theorem Completes.sameFaultState {s t : State} (h : Completes s t) : SameFaultState s t := by
  rw [h.frame]
  exact ⟨rfl, rfl, rfl, rfl, rfl⟩

/-- A completed command reports a code of 60_exceptions.md R231, and ERR_SEEN accumulates it (R232). -/
theorem Completes.code {s t : State} (h : Completes s t) :
    ∃ c : Completion, t.ecode = c.code ∧ t.errSeen = (s.errSeen || (c != .ok)) := by
  cases h with
  | report c r => exact ⟨c, rfl, rfl⟩
  | narrow c r v g h => exact ⟨c, rfl, by simp⟩
  | raw r n h => exact ⟨.ok, rfl, by simp⟩
  | both c r v g h n hn => exact ⟨c, rfl, by simp⟩

/-- OK is the one completion whose code is 0 (60_exceptions.md R231). -/
theorem code_bne_zero (c : Completion) : (c.code != 0) = (c != .ok) := by cases c <;> rfl

/-- No command but INIT completes with BUFFER_TOO_SMALL (60_exceptions.md R231). -/
theorem body_ok_ecode_ne_bufferTooSmall {i : Instr} {s t : State} (h : body i s = .ok t) :
    t.ecode ≠ Completion.bufferTooSmall.code := by
  have ok : Completion.ok.code ≠ Completion.bufferTooSmall.code := by decide
  cases i with
  | init => cases h
  | decode | decodeBin n => obtain ⟨r, rfl⟩ := decodeBody_ok h; exact ok
  | update => obtain ⟨v, g, -, rfl⟩ := updateBody_ok h; exact ok
  | bitLogp n => obtain ⟨r, v, g, -, rfl⟩ := bitLogpBody_ok h; exact ok
  | icdf8 n | icdf16 n => obtain ⟨k, -, v, g, -, rfl⟩ := icdfBody_ok h; exact ok
  | bits n =>
    change bitsBody n s = .ok t at h
    rcases bitsBody_cases n s with ⟨-, e⟩ | ⟨-, e⟩ | ⟨-, -, e⟩ <;> rw [e] at h <;> cases h
    · exact (by decide : Completion.tooManyBits.code ≠ Completion.bufferTooSmall.code)
    · exact ok
    · exact ok
  | uint =>
    have corrupt : Completion.corruptFrame.code ≠ Completion.bufferTooSmall.code := by decide
    rcases uintBody_ok h with rfl | ⟨c, r, v, g, -, rfl | rfl, rfl | ⟨sh, -, rfl⟩⟩
    · exact (by decide : Completion.invalidArgument.code ≠ Completion.bufferTooSmall.code)
    · exact ok
    · exact ok
    · exact corrupt
    · exact corrupt
  | laplace => obtain ⟨r, v, g, -, rfl⟩ := laplaceBody_ok h; exact ok
  | tell => cases h; exact ok
  | tellFrac => obtain ⟨r, rfl⟩ := tellFracBody_ok h; exact ok

/-! ### What a fault leaves -/

/-- A command but INIT that enters the fault state raised a fault, of any of 60_exceptions.md R235's codes but
LEN_RANGE, from the state that it found (R237). -/
theorem exec_raises {i : Instr} (hi : i ≠ .init) {s t : State} (hf : s.fault = false) (h : exec i s = .next t)
    (ht : t.fault = true) :
    ∃ f x, t = raiseFault (encode i) f x s ∧ f ≠ .lenRange := by
  rcases exec_next hi h with ⟨hfault, -⟩ | ⟨-, -, rfl⟩ | ⟨-, -, hc⟩ | ⟨-, f, x, rfl, hcode⟩
  · exact absurd (hf.symm.trans hfault) (by decide)
  · exact ⟨.notReady, 0, rfl, by decide⟩
  · exact absurd ((hf.symm.trans hc.sameFaultState.fault.symm).trans ht) (by decide)
  · exact ⟨f, x, rfl, by rcases hcode with rfl | rfl | rfl | rfl <;> decide⟩

/-- LEN_RANGE has the last of the seven fault codes (60_exceptions.md R235). -/
theorem RdecFault.code_bounds {f : RdecFault} (h : f ≠ .lenRange) : 1 ≤ f.code.toNat ∧ f.code.toNat ≤ 6 := by
  cases f with
  | lenRange => exact absurd rfl h
  | _ => decide

/-! ### How the host leaves the fault state -/

theorem windowWrite_fault (w : Window) (i d n : Nat) (s : State) : (windowWrite w i d n s).fault = s.fault := by
  rw [windowWrite_frame]

/-- The one register write that leaves the fault state is the soft reset (60_exceptions.md R238). -/
theorem writeReg_leaves_fault {r : Reg} {v : Word} {s : State} (hs : s.fault = true)
    (h : (writeReg r v s).fault = false) : r = .ctrl ∧ v.getLsbD 0 = true := by
  have kept (e : (writeReg r v s).fault = s.fault) : False := absurd ((hs.symm.trans e.symm).trans h) (by decide)
  cases r with
  | ctrl =>
    refine ⟨rfl, ?_⟩
    cases hv : v.getLsbD 0 with
    | true => rfl
    | false => exact (kept (by rw [writeReg_ctrl_clear hv])).elim
  | _ => exact (kept rfl).elim

/-- The one host access that leaves the fault state is the soft reset (60_exceptions.md R238). -/
theorem Accesses.leaves_fault {a : Access} {s u : State} (h : Accesses a s u) (hs : s.fault = true)
    (hu : u.fault = false) : ∃ v : Word, v.getLsbD 0 = true ∧ a = .write .w32 0x004 v := by
  cases h with
  | nothing => exact absurd (hs.symm.trans hu) (by decide)
  | register r v ha =>
    obtain ⟨rfl, hv⟩ := writeReg_leaves_fault hs hu
    exact ⟨v, hv, ha⟩
  | window w o v win i n _ _ =>
    rw [windowWrite_fault] at hu
    exact absurd (hs.symm.trans hu) (by decide)

/-- The one step of the host's that leaves the fault state is the soft reset (60_exceptions.md R238). -/
theorem hostStep_leaves_fault {op : HostOp} {rest : List HostOp} {s t : State} (h : hostStep op rest s = .next t)
    (hs : s.fault = true) (ht : t.fault = false) :
    ∃ v : Word, v.getLsbD 0 = true ∧ op = .access (.write .w32 0x004 v) := by
  rcases hostStep_next h with ⟨-, rfl⟩ | ⟨a, u, data, rfl, hu, rfl⟩
  · exact absurd (hs.symm.trans ht) (by decide)
  · obtain ⟨v, hv, rfl⟩ := hu.leaves_fault hs ht
    exact ⟨v, hv, rfl⟩

end Sys2Proof.Machine

/-! ### The obligations -/

section
open Sys2Proof Sys2Proof.Machine

/-- Settles O10: a command that enters the fault state is a fault entry from the state that it found (`exec_raises`). -/
theorem faultEntryIsPrecise : Obligations.FaultEntryIsPrecise := by
  unfold Obligations.FaultEntryIsPrecise
  intro i s t hi hf h ht
  obtain ⟨f, x, rfl, hlen⟩ := exec_raises hi hf h ht
  exact ⟨rfl, RdecFault.code_bounds hlen⟩

/-- Settles O11: a completed command writes neither READY nor the fault registers (`Completes.sameFaultState`), and its
code is one of R231's (`Completes.code`) other than INIT's (`body_ok_ecode_ne_bufferTooSmall`). -/
theorem completionKeepsDecoder : Obligations.CompletionKeepsDecoder := by
  unfold Obligations.CompletionKeepsDecoder
  intro i s t hi ha h ht
  have hbody := body_ok_of_exec hi ha h ht
  have hc := body_ok hbody
  have hne := body_ok_ecode_ne_bufferTooSmall hbody
  obtain ⟨c, hcode, hseen⟩ := hc.code
  rw [hcode] at hne ⊢
  refine ⟨hc.sameFaultState, ?_, by rw [hseen, code_bne_zero]⟩
  cases c with
  | bufferTooSmall => exact absurd rfl hne
  | _ => decide

/-- Settles O12: an idle step and a STATUS read leave FAULT, a host access leaves it but for the soft reset
(`hostStep_leaves_fault`), and the block's step ignores every word but INIT's (`execWord_fault`). -/
theorem faultStateLeftOnlyByInitOrReset : Obligations.FaultStateLeftOnlyByInitOrReset := by
  unfold Obligations.FaultStateLeftOnlyByInitOrReset
  intro s t hs h ht
  have kept : t.fault ≠ s.fault := by simp [hs, ht]
  rcases step_cases s with ⟨-, -, e⟩ | ⟨op, rest, hturn, e⟩ | ⟨w, op, rest, n, later, -, -, hread, -, e⟩ | ⟨w, hturn, e⟩
  · rw [e] at h; cases h
    exact absurd rfl kept
  · rw [e] at h
    obtain ⟨v, hv, rfl⟩ := hostStep_leaves_fault h hs ht
    exact .inr ⟨hturn.idle, v, rest, hv, hturn.program⟩
  · rw [e, hostStep_statusRead hread] at h; cases h
    exact absurd rfl kept
  · refine .inl ?_
    by_contra hw
    have hinit : w ≠ 0x00000001 := by rintro rfl; exact hw hturn.pending
    rw [step_of_execWord hturn (execWord_fault hs hinit)] at h; cases h
    exact absurd rfl kept

/-- Settles O7, from the execution of a word that is not legal (`execWord_of_not_legal`). -/
theorem illegalWordFaults : Obligations.IllegalWordFaults := by
  unfold Obligations.IllegalWordFaults
  intro s w hturn hlegal hf
  have h : execWord w s = .next (raiseFault w .illegalCmd 0 s) := by
    rw [execWord_of_not_legal hlegal, hf]; rfl
  exact step_of_execWord hturn h

/-- Settles O8, from the execution of a word in the fault state (`execWord_fault`). -/
theorem faultStateIgnoresWords : Obligations.FaultStateIgnoresWords := by
  unfold Obligations.FaultStateIgnoresWords
  intro s w hturn hf hw
  exact step_of_execWord hturn (execWord_fault hf hw)

/-- Settles O9: a legal word is a command's (`execWord_of_legal`), which without a decoder raises NOT_READY
(`exec_not_ready`). -/
theorem commandWithoutDecoderFaults : Obligations.CommandWithoutDecoderFaults := by
  unfold Obligations.CommandWithoutDecoderFaults
  intro s w hturn hlegal hw hf hr
  obtain ⟨i, rfl, h⟩ := execWord_of_legal hlegal s
  rw [exec_not_ready (ne_init_of_encode rfl hw) hf hr] at h
  exact step_of_execWord hturn h

end
end

section
/-! PROOFS of the statements of 70_reset_and_hazards.md: what a reset leaves, the interlock, that a pending command's step
comes, and that a step stops on the host's errors alone. -/

namespace Sys2Proof.Machine

/-! ### Reset -/

/-- As power-on leaves it, with any replies, every register reads 0 but ID (10_state.md R44). -/
theorem readReg_powerOn (p : Params) (buf tbl : Memory) (program : List HostOp) (polls : List Nat)
    (replies : List Word) (r : Reg) :
    readReg { State.powerOn p buf tbl program polls with replies := replies } r =
      if r = .id then 0x52444543 else 0 := by
  cases r with
  | status => simp [readReg, State.statusWord, State.powerOn, State.busy, State.err, bit, w32]
  | rawinfo => simp [readReg, State.rawinfoWord, State.powerOn, w32]
  | _ => rfl

/-- A CTRL write with bit 0 set is a soft reset (10_state.md R34). -/
theorem writeReg_ctrl_set {v : Word} (h : v.getLsbD 0 = true) (s : State) : writeReg .ctrl v s = softReset s := by
  have hv : v.toNat % 2 = 1 := by simpa [BitVec.getLsbD, Nat.testBit_zero] using h
  exact if_pos hv

/-- Power-on constructs no decoder, so it has the invariant as soon as its parameters and memories do. -/
theorem powerOn_inv {p : Params} {buf tbl : Memory} (program : List HostOp) (polls : List Nat)
    (hp : p.legal = true) (hm : MemoryInv (State.powerOn p buf tbl program polls)) :
    (State.powerOn p buf tbl program polls).Inv :=
  .of_not_ready hp hm (statusInv_powerOn p buf tbl program polls) rfl

/-! ### The two moves while a command is pending -/

/-- Before an access that is no STATUS read the block moves (70_reset_and_hazards.md R275). -/
theorem blockTurn_of_waiting {s : State} {w : Word} {op : HostOp} {rest : List HostOp} (hp : s.pending = some w)
    (hg : s.program = op :: rest) (hr : isStatusRead op = false) : BlockTurn s w where
  pending := hp
  no_poll op' rest' hg' hr' := by
    obtain ⟨rfl, -⟩ := List.cons.inj (hg.symm.trans hg')
    exact absurd (hr.symm.trans hr') (by decide)

/-- The state after a STATUS read with BUSY = 1: the reply joins the others, WAITIDLE stays and a read is done
(30_encoding.md R98, 70_reset_and_hazards.md R275). -/
def State.readStatusBusy (s : State) (op : HostOp) (rest : List HostOp) (polls : List Nat) : State :=
  { s with
    program := if op = .waitIdle then s.program else rest
    replies := s.replies ++ [s.statusWord], polls := polls }

theorem hostStep_statusRead_busy {op : HostOp} {s : State} (hr : isStatusRead op = true) (hb : s.busy = true)
    (rest : List HostOp) : hostStep op rest s = .next (s.readStatusBusy op rest s.polls) := by
  simp only [hostStep_statusRead hr, hb, and_true, State.readStatusBusy]

/-- While a command is pending the block moves, or the host performs a STATUS read that the latency covers
(70_reset_and_hazards.md R275, R278). -/
theorem step_pending_cases {s : State} {w : Word} (hp : s.pending = some w) :
    BlockTurn s w ∨
    ∃ op rest n later, s.program = op :: rest ∧ isStatusRead op = true ∧ s.polls = (n + 1) :: later ∧
      step s = .next (s.readStatusBusy op rest (n :: later)) := by
  rcases step_cases s with
    ⟨hidle, -⟩ | ⟨_, _, hturn, -⟩ | ⟨_, op, rest, n, later, -, hg, hr, hq, e⟩ | ⟨w', hturn, -⟩
  · cases hp.symm.trans hidle
  · cases hp.symm.trans hturn.idle
  · have hbusy : s.busy = true := by rw [State.busy, hp]; rfl
    exact .inr ⟨op, rest, n, later, hg, hr, hq,
      e.trans (hostStep_statusRead_busy (s := { s with polls := n :: later }) hr hbusy rest)⟩
  · obtain rfl : w' = w := Option.some.inj (hturn.pending.symm.trans hp)
    exact .inl hturn

/-- A STATUS read that the latency covers comes before the block's step (70_reset_and_hazards.md R275, log 4). -/
theorem step_coveredRead {s : State} {w : Word} {op : HostOp} {rest : List HostOp} {n : Nat} {later : List Nat}
    (hp : s.pending = some w) (hg : s.program = op :: rest) (hr : isStatusRead op = true)
    (hq : s.polls = (n + 1) :: later) : step s = .next (s.readStatusBusy op rest (n :: later)) := by
  rcases step_pending_cases hp with hturn | ⟨_, _, _, _, hg', -, hq', h⟩
  · have hleft := hturn.no_poll op rest hg hr
    simp [hq, pollsLeft] at hleft
  · obtain ⟨rfl, rfl⟩ := List.cons.inj (hg.symm.trans hg')
    obtain ⟨hn, rfl⟩ := List.cons.inj (hq.symm.trans hq')
    obtain rfl := Nat.succ.inj hn
    exact h

/-- Executing a word writes nothing of PENDING, the parameters and the host's side. -/
theorem execWord_surroundings {w : Word} {s t : State} (h : execWord w s = .next t) : SameSurroundings s t := by
  by_cases hlegal : LegalFields w
  · obtain ⟨i, -, e⟩ := execWord_of_legal hlegal s
    obtain ⟨-, -, -, hsur⟩ := exec_frame (e.symm.trans h)
    exact hsur
  · cases (execWord_of_not_legal hlegal s).symm.trans h
    split <;> exact ⟨rfl, rfl, rfl, rfl, rfl⟩

/-- The block's step is the word's execution and the end of the command (10_state.md R38). -/
theorem blockStep_next {w : Word} {s t : State} (h : blockStep w s = .next t) :
    ∃ u, execWord w s = .next u ∧ t = endCommand u := by
  unfold blockStep at h
  split at h
  · exact ⟨_, ‹_›, (Host.Outcome.next.inj h).symm⟩
  · cases h
  · cases h

/-! ### What stops a step -/

/-- From a state of the invariant every command answers a next state: no body is broken (`body_not_broken`). -/
theorem exec_answers {s : State} (hs : s.Inv) (i : Instr) : ∃ t, exec i s = .next t := by
  by_cases hi : i = .init
  · subst hi
    rcases exec_init_cases s with ⟨-, e⟩ | ⟨-, -, e⟩ | ⟨-, -, e⟩ <;> exact ⟨_, e⟩
  · cases hf : s.fault with
    | true => exact ⟨_, exec_fault hi hf⟩
    | false =>
      cases hr : s.ready with
      | false => exact ⟨_, exec_not_ready hi hf hr⟩
      | true =>
        rw [exec_accepting hi ⟨hr, hf⟩]
        match hb : body i s with
        | .ok t => exact ⟨t, rfl⟩
        | .error (.raise f x) => exact ⟨_, rfl⟩
        | .error .broken => exact absurd hb (body_not_broken hi (hs.core hr))

/-- From a state of the invariant the block's step answers a next state on any word. -/
theorem blockStep_answers {s : State} (hs : s.Inv) (w : Word) : ∃ t, blockStep w s = .next t := by
  have hword : ∃ t, execWord w s = .next t := by
    by_cases hlegal : LegalFields w
    · obtain ⟨i, -, e⟩ := execWord_of_legal hlegal s
      rw [e]
      exact exec_answers hs i
    · exact ⟨_, execWord_of_not_legal hlegal s⟩
  obtain ⟨t, ht⟩ := hword
  exact ⟨endCommand t, by rw [blockStep, ht]⟩

/-- An access outside the aperture stops the run (20_memory.md R60, log 6). -/
theorem hostStep_of_outside {a : Access} {s : State} (h : (busAccess a s).1 = .outside) (rest : List HostOp) :
    hostStep (.access a) rest s = .fault .outsideAperture := by
  have he : busAccess a s = (.outside, s) := Prod.ext h (busAccess_error (.inr h))
  simp only [hostStep, he]

/-- Everything the host's step can answer: a next state, or the stop that its access's error names. -/
theorem hostStep_answers (op : HostOp) (rest : List HostOp) (s : State) :
    (∃ t, hostStep op rest s = .next t) ∨
    ∃ a, op = .access a ∧
      ((busAccess a s).1 = .busError ∧ hostStep op rest s = .fault .busError ∨
        (busAccess a s).1 = .outside ∧ hostStep op rest s = .fault .outsideAperture) := by
  cases op with
  | waitIdle => exact .inl ⟨_, rfl⟩
  | access a =>
    match h : busAccess a s with
    | (.data v, t) => exact .inl ⟨_, hostStep_of_data h rest⟩
    | (.done, t) => exact .inl ⟨_, hostStep_of_done h rest⟩
    | (.busError, t) =>
      have he : (busAccess a s).1 = .busError := by rw [h]
      exact .inr ⟨a, rfl, .inl ⟨he, hostStep_of_busError he rest⟩⟩
    | (.outside, t) =>
      have he : (busAccess a s).1 = .outside := by rw [h]
      exact .inr ⟨a, rfl, .inr ⟨he, hostStep_of_outside he rest⟩⟩

/-! ### A pending command's step comes -/

/-- One step more, in front. -/
theorem core_run_succ {s s' : State} (h : step s = .next s') (k : Nat) :
    Sys2Proof.core.run (k + 1) s = Sys2Proof.core.run k s' := by
  have hcore : Sys2Proof.core.step s = .next s' := h
  simp only [Host.Core.run, hcore]

/-- With `n` polls left the block moves after at most `n` steps, each a covered STATUS read, so that the host's side
alone has changed (70_reset_and_hazards.md R278). -/
theorem run_reaches_blockTurn {w : Word} {n : Nat} {s : State} (hn : pollsLeft s.polls = n)
    (hp : s.pending = some w) :
    ∃ k ≤ n, ∃ t, Sys2Proof.core.run k s = .next t ∧ BlockTurn t w ∧
      t = { s with program := t.program, replies := t.replies, polls := t.polls } := by
  induction n generalizing s with
  | zero => exact ⟨0, le_rfl, s, rfl, ⟨hp, fun _ _ _ _ => hn⟩, rfl⟩
  | succ n ih =>
    rcases step_pending_cases hp with hturn | ⟨op, rest, m, later, -, -, hq, hstep⟩
    · exact ⟨0, by omega, s, rfl, hturn, rfl⟩
    · obtain rfl : m = n := by simpa [hq, pollsLeft] using hn
      obtain ⟨k, hk, t, hrun, hturn, ht⟩ := ih (s := s.readStatusBusy op rest (m :: later)) rfl hp
      exact ⟨k + 1, by omega, t, (core_run_succ hstep k).trans hrun, hturn, ht⟩

end Sys2Proof.Machine

/-! ### The obligations -/

section
open Sys2Proof Sys2Proof.Machine

/-- Settles O55: a waiting access leaves the turn to the block (`blockTurn_of_waiting`), whose step writes nothing of the
host's side (`execWord_surroundings`), and a covered STATUS read is `step_coveredRead`. -/
theorem interlockHolds : Obligations.InterlockHolds := by
  unfold Obligations.InterlockHolds
  intro s w op rest hp hg
  refine ⟨fun hr t h => ?_, fun n later hr hq => ⟨step_coveredRead hp hg hr hq, ?_⟩⟩
  · rw [step_blockTurn (blockTurn_of_waiting hp hg hr)] at h
    obtain ⟨u, hu, rfl⟩ := blockStep_next h
    obtain ⟨hpending, -, hprogram, hreplies, hpolls⟩ := execWord_surroundings hu
    refine ⟨hprogram, hreplies, rfl, ?_⟩
    rw [hu, ← hp, ← hpending, ← hpolls]
    rfl
  · rw [(statusFieldsInPlace s).1, hp]
    rfl

/-- Settles O56, by induction on the polls that the latency leaves (`run_reaches_blockTurn`). -/
theorem pendingCommandAlwaysSteps : Obligations.PendingCommandAlwaysSteps := by
  unfold Obligations.PendingCommandAlwaysSteps
  intro s w hp
  exact run_reaches_blockTurn rfl hp

/-- Settles O60: an idle step, a covered STATUS read and the block's step (`blockStep_answers`) answer a next state, and a
step of the host answers one unless its access errs (`hostStep_answers`). -/
theorem stepOnlyStopsOnHostErrors : Obligations.StepOnlyStopsOnHostErrors := by
  unfold Obligations.StepOnlyStopsOnHostErrors
  intro s hs
  rcases step_cases s with ⟨-, -, e⟩ | ⟨op, rest, hturn, e⟩ | ⟨w, op, rest, n, later, -, -, hr, -, e⟩ | ⟨w, -, e⟩ <;>
    rw [e]
  · exact .inl ⟨s, rfl⟩
  · rcases hostStep_answers op rest s with hnext | ⟨a, rfl, hstop⟩
    · exact .inl hnext
    · exact .inr ⟨hturn.idle, a, rest, hturn.program, hstop⟩
  · exact .inl ⟨_, hostStep_statusRead hr rest _⟩
  · exact .inl (blockStep_answers hs w)

/-- Settles O52: the write is a soft reset (`writeReg_ctrl_set`), which leaves the registers as power-on does
(`readReg_powerOn`). -/
theorem softResetClearsRegisters : Obligations.SoftResetClearsRegisters := by
  unfold Obligations.SoftResetClearsRegisters
  intro s v hv
  refine ⟨?_, readReg_powerOn s.params s.buf s.tbl s.program s.polls s.replies⟩
  exact (busAccess_write_reg .ctrl v s).trans (congrArg (Prod.mk Reply.done) (writeReg_ctrl_set hv s))

/-- Settles O53, from what every register reads after power-on (`readReg_powerOn`). -/
theorem powerOnRegistersReadZero : Obligations.PowerOnRegistersReadZero := by
  unfold Obligations.PowerOnRegistersReadZero
  intro p buf tbl program polls r
  exact ⟨readReg_powerOn p buf tbl program polls [] r, rfl, rfl, rfl⟩

/-- Settles O57: power-on has the invariant (`powerOn_inv`), and the reset state is the power-on with the default
parameters and empty memories. -/
theorem powerOnSatisfiesInvariant : Obligations.PowerOnSatisfiesInvariant := by
  unfold Obligations.PowerOnSatisfiesInvariant
  refine ⟨fun p buf tbl program polls hp hbuf htbl hbelow htblBelow => ?_, ?_⟩
  · exact powerOn_inv program polls hp ⟨hbuf, htbl, hbelow, htblBelow⟩
  · exact powerOn_inv [] [] (by decide) ⟨rfl, rfl, rfl, rfl⟩

end
end
